-- ==== Sys2Proof/Word.lean ====
section
/-! DEFINITION. The word types of FFTCONV: bytes of the aperture, bus words, data words. -/

namespace Sys2Proof

/-- A byte of the aperture (20_memory.md R63). -/
abbrev Byte := BitVec 8

/-- A word of the 32-bit bus: a register, a command word or one half of a data word (20_memory.md R60, R62). -/
abbrev Word32 := BitVec 32

/-- An IEEE 754 binary64 word, the one data format (40_datapath.md R120). -/
abbrev F64 := BitVec 64

end Sys2Proof
end

