-- ==== Sys2Proof/Config.lean ====
section
/-! DEFINITION. What the spec leaves to a build or leaves unspecified: constants with no body, so that no
proof can rest on a value of them. -/

namespace Sys2Proof

/-- LOG2_KMAX - 1 of the build that comes out of reset: the parameter is any of 1 … 20 (00_scope.md R7; log entry 3). -/
opaque Config.log2KMaxIndex : Fin 20

/-- BASE / 0x0800_0000 of the build that comes out of reset (00_scope.md R7; log entry 3). -/
opaque Config.baseIndex : Nat

/-- The free 32-bit value of draw number n: what a host read of an unspecified value returns
(20_memory.md R71; 93_implementation_defined.md U1 to U3; log entry 6). -/
opaque Config.freeWord : Nat → Word32

/-- The free bit of draw number n: STATUS.ALIASED as read while busy (20_memory.md R71;
93_implementation_defined.md U2; log entry 6). -/
opaque Config.freeBit : Nat → Bool

end Sys2Proof
end

