-- ==== Sys2Proof/Syntax.lean ====
section
/-! DEFINITION. The twelve commands of spec/opcode_table.json with their operands. -/

namespace Sys2Proof

/-- The buffer operand (30_encoding.md R93): `A` is BUF_A (BUF = 0), `B` is BUF_B (BUF = 1). -/
inductive Buf where
  | A
  | B
  deriving DecidableEq, Repr

/-- The direction operand (30_encoding.md R94): DIR = 0 is FORWARD, DIR = 1 is INVERSE. -/
inductive Dir where
  | fwd
  | inv
  deriving DecidableEq, Repr

/-- One constructor per row of the opcode table (30_encoding.md R97). `stage`'s number is the unsigned
STAGE field; its range 1 … LOG2K is checked at execution (30_encoding.md R95). -/
inductive Instr where
  | nop
  | size
  | padx
  | padh
  | clear (b : Buf)
  | bitrev (b : Buf)
  | stage (b : Buf) (d : Dir) (n : Nat)
  | fft (b : Buf) (d : Dir)
  | cmul
  | scale (b : Buf)
  | extract
  | conv
  deriving DecidableEq, Repr

end Sys2Proof
end

