-- ==== Sys2Proof/Machine/State.lean ====
section
/-! DEFINITION. The architectural state of FFTCONV (10_state.md R20) and the state after reset (R49). -/

namespace Sys2Proof.Machine

/-- The host step stops the model with a fault. No command ever raises one: a failing command ends in the
error completion of 60_exceptions.md R225, a next state. -/
inductive Fault where
  /-- Raised by the bus (Machine/Bus.lean) for a host access whose address lies outside the block's aperture:
  the spec describes no such access, it is not an access of this block (20_memory.md R60). Safe: the model stops
  where a platform would route the access elsewhere (log entry 9). -/
  | outsideAperture
  deriving DecidableEq, Repr

/-- An instruction has no meaning in the model. -/
inductive Refusal where
  /-- Raised only by an arm of exec whose instruction has no meaning yet. Safe: the model stops. -/
  | notModelled (mnemonic : String)
  deriving DecidableEq, Repr

/-! ### Data words, with poison (10_state.md R45) -/

/-- A word of a data RAM as its two 32-bit halves (20_memory.md R62). `none` is poison: a half with an
unspecified value (10_state.md R45, 70_reset_and_hazards.md R268). -/
structure RamWord where
  lo : Option Word32
  hi : Option Word32
  deriving DecidableEq, Repr

/-- Complex entry i of a buffer, the pair of words 2i and 2i+1 (00_scope.md R13, 40_datapath.md R126). -/
structure Entry where
  re : RamWord
  im : RamWord
  deriving DecidableEq, Repr

/-- The data RAMs (10_state.md R41 to R44). -/
inductive Ram where
  | bufA
  | bufB
  | x
  | h
  | y
  deriving DecidableEq, Repr

/-! ### Memory -/

/-- The bytes of the data RAMs that hold a specified value, by aperture offset (20_memory.md R61). A byte that
is not listed is poison: nothing has written it since reset (10_state.md R45; log entry 5). -/
abbrev Memory := List Host.Cell

/-- The canonical form: addresses strictly rising. An unlisted byte has no value, so no listed byte can equal
what an unlisted one reads as. -/
def Memory.wf : Memory → Bool
  | [] => true
  | [_] => true
  | c :: d :: m => decide (c.1 < d.1) && Memory.wf (d :: m)

/-! ### Registers -/

/-- CTRL.SIZE_MODE (10_state.md R26): 0 is REFERENCE, 1 is LINEAR. -/
inductive SizeMode where
  | reference
  | linear
  deriving DecidableEq, Repr

/-- ERR_CODE.CODE (60_exceptions.md R220). -/
inductive ErrCode where
  | none
  | invalidInput
  | invalidSize
  | illegalCommand
  deriving DecidableEq, Repr

/-- ERR_CODE.SOURCE (60_exceptions.md R221). -/
inductive ErrSource where
  | none
  | cmd
  | mLen
  | nLen
  | log2k
  | stage
  | pLen
  deriving DecidableEq, Repr

/-- What a failing check reports: Error(code, source, info) (00_scope.md R14). -/
structure Err where
  code : ErrCode
  source : ErrSource
  info : Word32
  deriving DecidableEq, Repr

/-- The sequencer state ENG (10_state.md R47): idle, or running the accepted command word. -/
inductive Eng where
  | idle
  | running (c : Word32)
  deriving DecidableEq, Repr

/-- The parameters of one build (00_scope.md R7): `log2KMaxIndex` is LOG2_KMAX - 1, so that LOG2_KMAX is in
1 … 20, and `baseIndex` is BASE / 0x0800_0000, so that BASE is aligned. No step changes them (log entry 3). -/
structure Build where
  log2KMaxIndex : Fin 20
  baseIndex : Nat
  deriving DecidableEq, Repr

/-! ### The two agents' steps as data (the model's own) -/

/-- What a host access asks for. -/
inductive AccessKind where
  | read
  | write (v : Word32)
  deriving DecidableEq, Repr

/-- A host bus access: its platform address, its width in bits, whether all byte strobes are set, and what it
asks for (20_memory.md R60, R64). -/
structure Access where
  addr : Nat
  width : Nat
  allStrobes : Bool
  kind : AccessKind
  deriving DecidableEq, Repr

/-- One event of the schedule (log entry 1): a host access, a turn of the engine, or the platform's reset
(00_scope.md R10, 70_reset_and_hazards.md R260). -/
inductive Event where
  | access (a : Access)
  | engine
  | reset
  deriving DecidableEq, Repr

/-- The response of the last host access (20_memory.md R60): none since reset, the word read, a write
acknowledged, or the error response of R64, whose form is BUS_PROTOCOL's (log entry 4). -/
inductive BusResponse where
  | none
  | data (v : Word32)
  | written
  | error
  deriving DecidableEq, Repr

/-! ### The state -/

/-- The architectural state (10_state.md R20), the build's parameters, and three fields of the model's own:
`inputs`, `bus` and `draws`. STATUS.BUSY is not stored: it is 1 exactly while ENG is RUNNING (R27). -/
structure State where
  /-- The parameters of the build, constant (00_scope.md R7). -/
  build : Build
  /-- CTRL.SIZE_MODE (10_state.md R26). -/
  sizeMode : SizeMode
  /-- CTRL.IRQ_EN (10_state.md R26). -/
  irqEn : Bool
  /-- STATUS.DONE (10_state.md R28). -/
  done : Bool
  /-- STATUS.ERR (10_state.md R29). -/
  err : Bool
  /-- STATUS.ALIASED (10_state.md R30). -/
  aliased : Bool
  /-- STATUS.BUSY_WR (10_state.md R31). -/
  busyWr : Bool
  /-- ERR_CODE.CODE (10_state.md R34). -/
  errCode : ErrCode
  /-- ERR_CODE.SOURCE (10_state.md R34). -/
  errSource : ErrSource
  /-- ERR_INFO (10_state.md R35). -/
  errInfo : Word32
  /-- M_LEN (10_state.md R36). -/
  mLen : Word32
  /-- N_LEN (10_state.md R37). -/
  nLen : Word32
  /-- LOG2K, bits 4:0 (10_state.md R38). -/
  log2k : BitVec 5
  /-- P_LEN (10_state.md R39). -/
  pLen : Word32
  /-- The data RAMs BUF_A, BUF_B, X, H and Y (10_state.md R41 to R45). -/
  mem : Memory
  /-- ENG (10_state.md R47). -/
  eng : Eng
  /-- MODEL: the pending events of both agents, first one next (log entry 1). -/
  inputs : List Event
  /-- MODEL: the response of the last host access (log entry 4). -/
  bus : BusResponse
  /-- MODEL: how many free values have been drawn (log entry 6). -/
  draws : Nat
  deriving DecidableEq, Repr

/-- The build that comes out of reset: its parameters are open (00_scope.md R7; log entry 3). -/
def Build.open : Build := ⟨Config.log2KMaxIndex, Config.baseIndex⟩

/-- The state after reset (10_state.md R49): registers 0, ENG idle, the RAMs poison. -/
def State.reset : State where
  build := Build.open
  sizeMode := .reference
  irqEn := false
  done := false
  err := false
  aliased := false
  busyWr := false
  errCode := .none
  errSource := .none
  errInfo := 0
  mLen := 0
  nLen := 0
  log2k := 0
  pLen := 0
  mem := []
  eng := .idle
  inputs := []
  bus := .none
  draws := 0

end Sys2Proof.Machine
end

