-- ==== Sys2Proof/Machine/Ops.lean ====
section
/-! DEFINITION. The named operations over memory and registers, and the three moves of a command's life:
issue, successful completion and error completion. -/

namespace Sys2Proof.Machine

/-! ### Bytes -/

/-- The byte at an offset; `none` where it is poison (10_state.md R45). -/
def Memory.read : Memory → Nat → Option Byte
  | [], _ => none
  | c :: m, a => if c.1 = a then some c.2 else Memory.read m a

/-- The cells of consecutive bytes from offset a on: a poison byte has no cell. -/
def cellsFrom (a : Nat) : List (Option Byte) → Memory
  | [] => []
  | none :: bs => cellsFrom (a + 1) bs
  | some b :: bs => (a, b) :: cellsFrom (a + 1) bs

/-- Replace the bytes from offset a on by the given ones, in one piece, in canonical form. -/
def Memory.putBytes (m : Memory) (a : Nat) (bs : List (Option Byte)) : Memory :=
  m.filter (fun c => decide (c.1 < a)) ++ cellsFrom a bs ++
    m.filter (fun c => decide (a + bs.length ≤ c.1))

/-! ### Halves and words (20_memory.md R62, R63) -/

/-- A half from its four bytes, the byte at the lowest offset first (20_memory.md R63); poison if one of them is. -/
def halfOfBytes : Option Byte → Option Byte → Option Byte → Option Byte → Option Word32
  | some b0, some b1, some b2, some b3 => some (b3 ++ b2 ++ b1 ++ b0)
  | _, _, _, _ => none

/-- The bytes of a half, lowest offset first (20_memory.md R63). -/
def halfBytes : Option Word32 → List (Option Byte)
  | some v => [some (v.extractLsb' 0 8), some (v.extractLsb' 8 8), some (v.extractLsb' 16 8),
      some (v.extractLsb' 24 8)]
  | none => [none, none, none, none]

/-- The 32-bit half at an offset. -/
def Memory.half (m : Memory) (a : Nat) : Option Word32 :=
  halfOfBytes (m.read a) (m.read (a + 1)) (m.read (a + 2)) (m.read (a + 3))

/-- Store a 32-bit half at an offset. -/
def Memory.putHalf (m : Memory) (a : Nat) (h : Option Word32) : Memory := m.putBytes a (halfBytes h)

/-- The data word at an offset: the low half at +0, the high half at +4 (20_memory.md R62). -/
def Memory.word (m : Memory) (a : Nat) : RamWord := ⟨m.half a, m.half (a + 4)⟩

/-- The bytes of a data word, lowest offset first. -/
def RamWord.bytes (w : RamWord) : List (Option Byte) := halfBytes w.lo ++ halfBytes w.hi

/-- Store consecutive data words from an offset on. -/
def Memory.putWords (m : Memory) (a : Nat) (ws : List RamWord) : Memory :=
  m.putBytes a (ws.flatMap RamWord.bytes)

/-- The binary64 value of a data word, if no half of it is poison (70_reset_and_hazards.md R268). -/
def RamWord.val (w : RamWord) : Option F64 :=
  match w.lo, w.hi with
  | some lo, some hi => some (hi ++ lo)
  | _, _ => none

/-- The data word that holds a binary64 value. -/
def RamWord.ofF64 (v : F64) : RamWord := ⟨some (v.extractLsb' 0 32), some (v.extractLsb' 32 32)⟩

/-- A data word of which nothing is specified (93_implementation_defined.md U1). -/
def RamWord.poison : RamWord := ⟨none, none⟩

/-- A data word as a command reads it: poison as a whole if one of its halves is (70_reset_and_hazards.md R268), so
that a word it moves is poison too (log entry 16). -/
def RamWord.loaded (w : RamWord) : RamWord :=
  match w.val with
  | some _ => w
  | none => RamWord.poison

/-- An entry as a command reads it. -/
def Entry.loaded (e : Entry) : Entry := ⟨e.re.loaded, e.im.loaded⟩

/-! ### The RAMs (20_memory.md R61) -/

/-- LOG2_KMAX (00_scope.md R7). -/
def Build.log2KMax (b : Build) : Nat := b.log2KMaxIndex.val + 1

/-- K_MAX = 2^LOG2_KMAX (00_scope.md R8). -/
def Build.kMax (b : Build) : Nat := 2 ^ b.log2KMax

/-- BASE (00_scope.md R7). -/
def Build.base (b : Build) : Nat := b.baseIndex * 0x08000000

/-- X_MAX = K_MAX (00_scope.md R8). -/
def Build.xMax (b : Build) : Nat := b.kMax

/-- H_MAX = K_MAX (00_scope.md R8). -/
def Build.hMax (b : Build) : Nat := b.kMax

/-- Y_MAX = 2 K_MAX - 1 (00_scope.md R8). -/
def Build.yMax (b : Build) : Nat := 2 * b.kMax - 1

/-- The offset of a RAM's first word (20_memory.md R61). -/
def Ram.base : Ram → Nat
  | .bufA => 0x1000000
  | .bufB => 0x2000000
  | .x => 0x3000000
  | .h => 0x4000000
  | .y => 0x5000000

/-- The number of words of a RAM (00_scope.md R8). -/
def Ram.words (b : Build) : Ram → Nat
  | .bufA => 2 * b.kMax
  | .bufB => 2 * b.kMax
  | .x => b.xMax
  | .h => b.hMax
  | .y => b.yMax

/-- The offset of word w of a RAM: region base + 8w (20_memory.md R61). -/
def Ram.addr (r : Ram) (w : Nat) : Nat := r.base + 8 * w

/-- Word w of a RAM. -/
def State.ramWord (s : State) (r : Ram) (w : Nat) : RamWord := s.mem.word (r.addr w)

/-- Word w of a RAM as a command reads it (70_reset_and_hazards.md R268). -/
def State.loadWord (s : State) (r : Ram) (w : Nat) : RamWord := (s.ramWord r w).loaded

/-- Store words 0, 1, … of a RAM. -/
def State.putWords (s : State) (r : Ram) (ws : List RamWord) : State :=
  { s with mem := s.mem.putWords (r.addr 0) ws }

/-- The RAM of a buffer operand: buf(b) (00_scope.md R13). -/
def ramOf : Buf → Ram
  | .A => .bufA
  | .B => .bufB

/-- Entry i of a buffer: words 2i and 2i+1 (00_scope.md R13). -/
def State.entry (s : State) (b : Buf) (i : Nat) : Entry :=
  ⟨s.ramWord (ramOf b) (2 * i), s.ramWord (ramOf b) (2 * i + 1)⟩

/-- Entries 0 … k-1 of a buffer as a command reads them (70_reset_and_hazards.md R268). -/
def State.entries (s : State) (b : Buf) (k : Nat) : List Entry :=
  (List.range k).map fun i => (s.entry b i).loaded

/-- The two words of an entry, the real part first (40_datapath.md R126). -/
def Entry.words (e : Entry) : List RamWord := [e.re, e.im]

/-- Store entries 0, 1, … of a buffer. -/
def State.putEntries (s : State) (b : Buf) (es : List Entry) : State :=
  s.putWords (ramOf b) (es.flatMap Entry.words)

/-! ### A command's life (30_encoding.md R101 to R103) -/

/-- Issue: an accepted CMD write of the word c (30_encoding.md R101). STATUS.BUSY follows ENG. -/
def State.issue (s : State) (c : Word32) : State :=
  { s with done := false, err := false, errCode := .none, errSource := .none, errInfo := 0, eng := .running c }

/-- Successful completion: DONE is set and the engine is idle again (30_encoding.md R102). -/
def State.complete (s : State) : State := { s with done := true, eng := .idle }

/-- Error completion, the block's one exception entry (60_exceptions.md R225): the error is recorded, ERR is
set and the engine is idle again; nothing else changes. -/
def State.raise (s : State) (e : Err) : State :=
  { s with errCode := e.code, errSource := e.source, errInfo := e.info, err := true, eng := .idle }

/-- A command: the first failing check of the list ends it with the error completion, before any write; if none
fails, its body's writes and the successful completion happen in the one step (60_exceptions.md R223, R224,
30_encoding.md R102). -/
def State.command (s : State) (checks : List (Option Err)) (body : State → State) : State :=
  match checks.findSome? id with
  | some e => s.raise e
  | none => (body s).complete

end Sys2Proof.Machine
end

