-- ==== Sys2Proof/Machine/Flags.lean ====
section
/-! DEFINITION. The status flags and the words the registers read as. -/

namespace Sys2Proof.Machine

/-- A flag as a bit of a 32-bit word. -/
def flagBit (b : Bool) (i : Nat) : Word32 := bif b then BitVec.ofNat 32 (2 ^ i) else 0

/-- STATUS.BUSY: 1 exactly while ENG is RUNNING (10_state.md R27). -/
def State.busy (s : State) : Bool :=
  match s.eng with
  | .idle => false
  | .running _ => true

/-- STATUS as a word, bits 31:5 zero (10_state.md R27 to R32). -/
def statusWord (busy done err aliased busyWr : Bool) : Word32 :=
  flagBit busy 0 ||| flagBit done 1 ||| flagBit err 2 ||| flagBit aliased 3 ||| flagBit busyWr 4

/-- A host write to STATUS: its W1C bits 1, 2 and 4 together; bits 0, 3 and 31:5 are ignored (10_state.md R32). -/
def State.writeStatus (s : State) (v : Word32) : State :=
  { s with
    done := s.done && !v.getLsbD 1
    err := s.err && !v.getLsbD 2
    busyWr := s.busyWr && !v.getLsbD 4 }

/-- SIZE_MODE as a bit (10_state.md R26). -/
def SizeMode.toBool : SizeMode → Bool
  | .reference => false
  | .linear => true

/-- SIZE_MODE from a bit (10_state.md R26). -/
def SizeMode.ofBool : Bool → SizeMode
  | false => .reference
  | true => .linear

/-- CTRL as a word, bits 31:2 zero (10_state.md R26). -/
def State.ctrlWord (s : State) : Word32 := flagBit s.sizeMode.toBool 0 ||| flagBit s.irqEn 1

/-- A host write to CTRL (10_state.md R26). -/
def State.writeCtrl (s : State) (v : Word32) : State :=
  { s with sizeMode := SizeMode.ofBool (v.getLsbD 0), irqEn := v.getLsbD 1 }

/-- The interrupt output: IRQ_EN AND (DONE OR ERR), a level (10_state.md R48). -/
def State.irq (s : State) : Bool := s.irqEn && (s.done || s.err)

/-- CODE as a number (60_exceptions.md R220). -/
def ErrCode.toNat : ErrCode → Nat
  | .none => 0
  | .invalidInput => 1
  | .invalidSize => 2
  | .illegalCommand => 3

/-- SOURCE as a number (60_exceptions.md R221). -/
def ErrSource.toNat : ErrSource → Nat
  | .none => 0
  | .cmd => 1
  | .mLen => 2
  | .nLen => 3
  | .log2k => 4
  | .stage => 5
  | .pLen => 6

/-- ERR_CODE as a word: (SOURCE << 8) | CODE (60_exceptions.md R221). -/
def State.errCodeWord (s : State) : Word32 :=
  BitVec.ofNat 32 (s.errSource.toNat * 256 + s.errCode.toNat)

/-- The ID constant, "FFTC" (10_state.md R24). -/
def idWord : Word32 := 0x43544646

/-- CONFIG: LOG2_KMAX in bits 4:0, revision 1 in bits 15:8 (10_state.md R25). -/
def Build.configWord (b : Build) : Word32 := BitVec.ofNat 32 (0x100 + b.log2KMax)

/-- The flag STATUS.ALIASED after SIZE or CONV: P > K (43_orchestrator.md R182). -/
def aliasedFlag (p k : Nat) : Bool := decide (k < p)

end Sys2Proof.Machine
end

