-- ==== Sys2Proof/Machine/Operands.lean ====
section
/-! DEFINITION. The operands a command reads, the checks it makes on them, and the integer laws of sizing. -/

namespace Sys2Proof.Machine

/-! ### Operands -/

/-- M, the input length (10_state.md R36). -/
def State.m (s : State) : Nat := s.mLen.toNat

/-- N, the impulse-response length (10_state.md R37). -/
def State.n (s : State) : Nat := s.nLen.toNat

/-- L, the transform size exponent (10_state.md R38). -/
def State.l (s : State) : Nat := s.log2k.toNat

/-- K = 2^L, the transform size (10_state.md R38). -/
def State.k (s : State) : Nat := 2 ^ s.l

/-- P, the output length (10_state.md R39). -/
def State.p (s : State) : Nat := s.pLen.toNat

/-! ### Checks, each with the error it reports (60_exceptions.md R222, R224) -/

/-- A check: the error it reports, unless the condition holds. -/
def require (ok : Bool) (e : Err) : Option Err := bif ok then none else some e

/-- R224 check 2: M_LEN = 0 is INVALID_INPUT. -/
def State.checkMNonzero (s : State) : Option Err :=
  require (decide (0 < s.m)) ⟨.invalidInput, .mLen, 0⟩

/-- R224 check 3: N_LEN = 0 is INVALID_INPUT. -/
def State.checkNNonzero (s : State) : Option Err :=
  require (decide (0 < s.n)) ⟨.invalidInput, .nLen, 0⟩

/-- R224 check 4: M_LEN > X_MAX is INVALID_SIZE. -/
def State.checkMCapacity (s : State) : Option Err :=
  require (decide (s.m ≤ s.build.xMax)) ⟨.invalidSize, .mLen, s.mLen⟩

/-- R224 check 5: N_LEN > H_MAX is INVALID_SIZE. -/
def State.checkNCapacity (s : State) : Option Err :=
  require (decide (s.n ≤ s.build.hMax)) ⟨.invalidSize, .nLen, s.nLen⟩

/-- R224 check 6: L > LOG2_KMAX is INVALID_SIZE, for the L read from LOG2K or the one computed. -/
def State.checkL (s : State) (l : Nat) : Option Err :=
  require (decide (l ≤ s.build.log2KMax)) ⟨.invalidSize, .log2k, BitVec.ofNat 32 l⟩

/-- R224 check 7: a STAGE number outside 1 … L is INVALID_SIZE (41_transform.md R152). -/
def State.checkStage (s : State) (n : Nat) : Option Err :=
  require (decide (1 ≤ n) && decide (n ≤ s.l)) ⟨.invalidSize, .stage, BitVec.ofNat 32 n⟩

/-- R224 check 8: P_LEN > Y_MAX is INVALID_SIZE. -/
def State.checkPCapacity (s : State) : Option Err :=
  require (decide (s.p ≤ s.build.yMax)) ⟨.invalidSize, .pLen, s.pLen⟩

/-! ### Sizing (40_datapath.md R133 to R136) -/

/-- The number of bits in the binary form of n (00_scope.md R11). -/
def bitlen (n : Nat) : Nat := if n = 0 then 0 else Nat.log2 n + 1

/-- P = M + N - 1 (40_datapath.md R136). -/
def validLength (m n : Nat) : Nat := m + n - 1

/-- L in a sizing mode (40_datapath.md R134, R135). -/
def sizeExponent (mode : SizeMode) (m n : Nat) : Nat :=
  match mode with
  | .reference => bitlen (2 * m - 1)
  | .linear => bitlen (validLength m n - 1)

/-- The P that SIZE and CONV compute. -/
def State.sizedP (s : State) : Nat := validLength s.m s.n

/-- The L that SIZE and CONV compute. -/
def State.sizedL (s : State) : Nat := sizeExponent s.sizeMode s.m s.n

end Sys2Proof.Machine
end

