-- ==== Sys2Proof/Machine/Bus.lean ====
section
/-! DEFINITION. The host's accesses: the address map, reads and writes, idle and busy (20_memory.md R60 to R71). -/

namespace Sys2Proof.Machine

/-- The registers of the register page (10_state.md R23). -/
inductive Reg where
  | id
  | config
  | ctrl
  | status
  | cmd
  | errCode
  | errInfo
  | mLen
  | nLen
  | log2k
  | pLen
  deriving DecidableEq, Repr

/-- What an aligned offset of the aperture selects: a register, a half of an implemented RAM word (by its
offset), or nothing, a RAZ/WI location (20_memory.md R61, R66). -/
inductive Target where
  | reg (r : Reg)
  | ram (off : Nat)
  | reserved
  deriving DecidableEq, Repr

/-- The register at an offset of the register page (10_state.md R23). -/
def regAt (off : Nat) : Option Reg :=
  match off with
  | 0x000 => some .id
  | 0x004 => some .config
  | 0x008 => some .ctrl
  | 0x00C => some .status
  | 0x010 => some .cmd
  | 0x014 => some .errCode
  | 0x018 => some .errInfo
  | 0x01C => some .mLen
  | 0x020 => some .nLen
  | 0x024 => some .log2k
  | 0x028 => some .pLen
  | _ => none

/-- An offset lies in an implemented word of a RAM (20_memory.md R61). -/
def Ram.holds (b : Build) (r : Ram) (off : Nat) : Bool :=
  decide (r.base ≤ off) && decide (off < r.base + 8 * r.words b)

/-- An offset lies in an implemented word of some RAM. -/
def ramImplemented (b : Build) (off : Nat) : Bool :=
  Ram.bufA.holds b off || Ram.bufB.holds b off || Ram.x.holds b off || Ram.h.holds b off || Ram.y.holds b off

/-- The address map of the aperture (20_memory.md R61, R66). -/
def targetAt (b : Build) (off : Nat) : Target :=
  match regAt off with
  | some r => .reg r
  | none => bif ramImplemented b off then .ram off else .reserved

/-- The offset of a platform address in the aperture, if it lies in it: the 128 MiB from BASE, which is a multiple
of 128 MiB, so that the address's quotient selects the block and its remainder is the offset (20_memory.md R60,
00_scope.md R7). -/
def Build.offset (b : Build) (addr : Nat) : Option Nat :=
  if addr / 0x8000000 = b.baseIndex then some (addr % 0x8000000) else none

/-- The form of access the bus accepts: 32 bits, all strobes, 4-byte aligned (20_memory.md R64, R65). -/
def Access.legal (a : Access) (off : Nat) : Bool :=
  decide (a.width = 32) && a.allStrobes && decide (off % 4 = 0)

/-! ### Reads (no side effect: 20_memory.md R67) -/

/-- What a register reads as (10_state.md R24 to R39). -/
def State.readReg (s : State) : Reg → Word32
  | .id => idWord
  | .config => s.build.configWord
  | .ctrl => s.ctrlWord
  | .status => statusWord s.busy s.done s.err s.aliased s.busyWr
  | .cmd => 0
  | .errCode => s.errCodeWord
  | .errInfo => s.errInfo
  | .mLen => s.mLen
  | .nLen => s.nLen
  | .log2k => s.log2k.setWidth 32
  | .pLen => s.pLen

/-- A read that returns the word v. -/
def State.respond (s : State) (v : Word32) : State := { s with bus := .data v }

/-- A read of an unspecified word: a fresh free value (93_implementation_defined.md U1, U2; log entry 6). -/
def State.respondFree (s : State) : State :=
  { s with bus := .data (Config.freeWord s.draws), draws := s.draws + 1 }

/-- A read of STATUS while busy: every bit as it stands but ALIASED, a fresh free bit (20_memory.md R71). -/
def State.respondBusyStatus (s : State) : State :=
  { s with
    bus := .data (statusWord s.busy s.done s.err (Config.freeBit s.draws) s.busyWr)
    draws := s.draws + 1 }

/-- A register whose value a running command may be changing (20_memory.md R71). -/
def Reg.changing : Reg → Bool
  | .log2k => true
  | .pLen => true
  | .errCode => true
  | .errInfo => true
  | _ => false

/-- A host read of a register (20_memory.md R71). -/
def State.busReadReg (s : State) (r : Reg) : State :=
  if s.busy then
    (if r = .status then s.respondBusyStatus
    else if r.changing then s.respondFree
    else s.respond (s.readReg r))
  else s.respond (s.readReg r)

/-- A host read of a RAM half: unspecified while busy or where the half is poison (20_memory.md R62, R71,
10_state.md R45). -/
def State.busReadRam (s : State) (off : Nat) : State :=
  if s.busy then s.respondFree
  else match s.mem.half off with
    | some v => s.respond v
    | none => s.respondFree

/-- A host read (20_memory.md R66, R71): a RAZ/WI location reads 0. -/
def State.busRead (s : State) : Target → State
  | .reg r => s.busReadReg r
  | .ram off => s.busReadRam off
  | .reserved => s.respond 0

/-! ### Writes -/

/-- A host write to a register while idle (10_state.md R24 to R39): read-only registers ignore it. -/
def State.writeReg (s : State) (r : Reg) (v : Word32) : State :=
  match r with
  | .id => s
  | .config => s
  | .ctrl => s.writeCtrl v
  | .status => s.writeStatus v
  | .cmd => s.issue v
  | .errCode => s
  | .errInfo => s
  | .mLen => { s with mLen := v }
  | .nLen => { s with nLen := v }
  | .log2k => { s with log2k := v.setWidth 5 }
  | .pLen => { s with pLen := v }

/-- The state change of a host write while idle (20_memory.md R62, R66, 10_state.md R33). -/
def State.writeIdle (s : State) (t : Target) (v : Word32) : State :=
  match t with
  | .reg r => s.writeReg r v
  | .ram off => { s with mem := s.mem.putHalf off (some v) }
  | .reserved => s

/-- The state change of a host write while busy: STATUS as ever; any other write is dropped, and sets BUSY_WR
unless its target is a RAZ/WI location (20_memory.md R71). -/
def State.writeBusy (s : State) (t : Target) (v : Word32) : State :=
  match t with
  | .reg .status => s.writeStatus v
  | .reserved => s
  | _ => { s with busyWr := true }

/-- A host write: its state change and the acknowledgement. A dropped write is acknowledged too: it is no
error (60_exceptions.md R228). -/
def State.busWrite (s : State) (t : Target) (v : Word32) : State :=
  { (if s.busy then s.writeBusy t v else s.writeIdle t v) with bus := .written }

/-- A legal access of an offset. -/
def State.busAccess (s : State) (off : Nat) (kind : AccessKind) : State :=
  match kind with
  | .read => s.busRead (targetAt s.build off)
  | .write v => s.busWrite (targetAt s.build off) v

/-- A host access (20_memory.md R60 to R71): one of another form gets the error response and changes no block
state (R64, R65, 60_exceptions.md R229). -/
def hostAccess (a : Access) (s : State) : Host.Outcome State Fault Refusal :=
  match s.build.offset a.addr with
  | none => .fault .outsideAperture
  | some off => if a.legal off then .next (s.busAccess off a.kind) else .next { s with bus := .error }

/-- The platform's reset (70_reset_and_hazards.md R260 to R262): the state of 10_state.md R49; a running command
is abandoned and every RAM word becomes poison. The build is constant; the pending events and the count of free
draws are the model's own and stay (log entry 10). -/
def State.afterReset (s : State) : State :=
  { State.reset with build := s.build, inputs := s.inputs, draws := s.draws }

end Sys2Proof.Machine
end

