-- ==== Sys2Proof/WellFormed.lean ====
section
/-! DEFINITION. Which instructions the encoding can hold. -/

namespace Sys2Proof

/-- An instruction has an encoding. The one check: the STAGE field is 5 bits wide, so its number is at
most 31 (30_encoding.md R91, R95, R104). -/
def Instr.wellFormed : Instr → Bool
  | .nop => true
  | .size => true
  | .padx => true
  | .padh => true
  | .clear _ => true
  | .bitrev _ => true
  | .stage _ _ n => decide (n ≤ 31)
  | .fft _ _ => true
  | .cmul => true
  | .scale _ => true
  | .extract => true
  | .conv => true

end Sys2Proof
end

