-- ==== Sys2Proof/Decode.lean ====
section
/-! DEFINITION. The command word: decoder, encoder, and the decoder as the opcode table numbers its bits. -/

namespace Sys2Proof

/-- Why a command word is illegal (30_encoding.md R99). Both are ILLEGAL_COMMAND. -/
inductive DecodeReject where
  /-- OP is 0x0C … 0xFF. -/
  | reservedOpcode
  /-- OP is assigned, but a reserved or unused bit is 1. -/
  | reservedBits
  deriving DecidableEq, Repr

/-- What a decoder answers. -/
inductive Decoded where
  | ok (i : Instr)
  | reject (r : DecodeReject)
  deriving DecidableEq, Repr

/-- MASK and MATCH of one opcode (30_encoding.md R97). -/
structure TableRow where
  mask : Word32
  pattern : Word32
  deriving DecidableEq, Repr

/-- The opcode map (30_encoding.md R97), by the value of OP; `none` for a reserved opcode (R92, R99). -/
def opcodeRow (op : Nat) : Option TableRow :=
  match op with
  | 0x00 => some ⟨0xFFFFFFFF, 0x00000000⟩
  | 0x01 => some ⟨0xFFFFFFFF, 0x00000001⟩
  | 0x02 => some ⟨0xFFFFFFFF, 0x00000002⟩
  | 0x03 => some ⟨0xFFFFFFFF, 0x00000003⟩
  | 0x04 => some ⟨0xFFFFFEFF, 0x00000004⟩
  | 0x05 => some ⟨0xFFFFFEFF, 0x00000005⟩
  | 0x06 => some ⟨0xFFE0FAFF, 0x00000006⟩
  | 0x07 => some ⟨0xFFFFFAFF, 0x00000007⟩
  | 0x08 => some ⟨0xFFFFFFFF, 0x00000008⟩
  | 0x09 => some ⟨0xFFFFFEFF, 0x00000009⟩
  | 0x0A => some ⟨0xFFFFFFFF, 0x0000000A⟩
  | 0x0B => some ⟨0xFFFFFFFF, 0x0000000B⟩
  | _ => none

/-- The OP field, bits 7:0 (30_encoding.md R92). -/
def opField (c : Word32) : Nat := (c.extractLsb' 0 8).toNat

/-- The BUF field, bit 8 (30_encoding.md R93). -/
def bufField (c : Word32) : Buf := bif c.getLsbD 8 then .B else .A

/-- The DIR field, bit 10 (30_encoding.md R94). -/
def dirField (c : Word32) : Dir := bif c.getLsbD 10 then .inv else .fwd

/-- The STAGE field, bits 20:16, unsigned (30_encoding.md R95). -/
def stageField (c : Word32) : Nat := (c.extractLsb' 16 5).toNat

/-- The command an assigned opcode selects, with the fields of the word (30_encoding.md R97, R98). -/
def instrOfOp (op : Nat) (c : Word32) : Option Instr :=
  match op with
  | 0x00 => some .nop
  | 0x01 => some .size
  | 0x02 => some .padx
  | 0x03 => some .padh
  | 0x04 => some (.clear (bufField c))
  | 0x05 => some (.bitrev (bufField c))
  | 0x06 => some (.stage (bufField c) (dirField c) (stageField c))
  | 0x07 => some (.fft (bufField c) (dirField c))
  | 0x08 => some .cmul
  | 0x09 => some (.scale (bufField c))
  | 0x0A => some .extract
  | 0x0B => some .conv
  | _ => none

/-- The decoder of 30_encoding.md R98: total, and every word it does not read as a command is rejected by
name (R99). -/
def decode (c : Word32) : Decoded :=
  match opcodeRow (opField c), instrOfOp (opField c) c with
  | some row, some i => if c &&& row.mask = row.pattern then .ok i else .reject .reservedBits
  | _, _ => .reject .reservedOpcode

/-- BUF as a bit in place (30_encoding.md R104: b << 8). -/
def bufBits : Buf → Word32
  | .A => 0
  | .B => 0x100

/-- DIR as a bit in place (30_encoding.md R104: d << 10). -/
def dirBits : Dir → Word32
  | .fwd => 0
  | .inv => 0x400

/-- The word of an instruction (30_encoding.md R104). -/
def encode : Instr → Word32
  | .nop => 0x00
  | .size => 0x01
  | .padx => 0x02
  | .padh => 0x03
  | .clear b => 0x04 ||| bufBits b
  | .bitrev b => 0x05 ||| bufBits b
  | .stage b d n => 0x06 ||| bufBits b ||| dirBits d ||| (BitVec.ofNat 32 n <<< 16)
  | .fft b d => 0x07 ||| bufBits b ||| dirBits d
  | .cmul => 0x08
  | .scale b => 0x09 ||| bufBits b
  | .extract => 0x0A
  | .conv => 0x0B

/-- The word whose low `nbits` bits are those of w and whose other bits are 0. -/
def tableWord (nbits w : Nat) : Word32 := BitVec.ofNat 32 (w % 2 ^ nbits)

/-- What the decoder reads from a table row's word. A command is one 32-bit word, so bit 0 of the table is
bit 0 of the word (30_encoding.md R90); no command is longer than 32 bits (R100). -/
def decodeTableWord (nbits w : Nat) : Option Instr :=
  if nbits ≤ 32 then
    match decode (tableWord nbits w) with
    | .ok i => some i
    | .reject _ => none
  else none

end Sys2Proof
end

