-- ==== Sys2Proof/Machine/Float.lean ====
section
/-! DEFINITION. Real arithmetic on binary64 (40_datapath.md R120 to R125). Every finite binary64 value is an
integer number of units of 2^-1074; an operation computes its exact result in units and rounds it once. -/

namespace Sys2Proof.Machine

/-- The sign, bit 63 (40_datapath.md R120). -/
def fsign (w : F64) : Bool := w.getLsbD 63

/-- The biased exponent, bits 62:52 (40_datapath.md R120). -/
def fexp (w : F64) : Nat := (w.extractLsb' 52 11).toNat

/-- The fraction, bits 51:0 (40_datapath.md R120). -/
def ffrac (w : F64) : Nat := (w.extractLsb' 0 52).toNat

/-- A NaN, quiet or signalling (40_datapath.md R120). -/
def fisNaN (w : F64) : Bool := fexp w == 2047 && !(ffrac w == 0)

/-- A signed infinity (40_datapath.md R120). -/
def fisInf (w : F64) : Bool := fexp w == 2047 && ffrac w == 0

/-- The canonical quiet NaN (40_datapath.md R122). -/
def qNaN : F64 := 0x7FF8000000000000

/-- The signed zero. -/
def fzero (sign : Bool) : F64 := bif sign then 0x8000000000000000 else 0

/-- The signed infinity. -/
def finf (sign : Bool) : F64 := bif sign then 0xFFF0000000000000 else 0x7FF0000000000000

/-- The magnitude of a finite word in units of 2^-1074 (40_datapath.md R120): the fraction for a subnormal or
zero, (2^52 + fraction) * 2^(e-1) for a normal number. -/
def fmag (w : F64) : Nat :=
  if fexp w = 0 then ffrac w else (2 ^ 52 + ffrac w) * 2 ^ (fexp w - 1)

/-- The value of a finite word in units of 2^-1074. -/
def fint (w : F64) : Int := if fsign w then -(fmag w : Int) else (fmag w : Int)

/-- Units a quantum of which the rounded mantissa counts, as a power of two: 0 below 2^53, so that subnormals
and the first normal binade share one quantum. -/
def quantumLog (q : Nat) : Nat := Nat.log2 q - 52

/-- The nearest integer to n/d, ties to even. -/
def roundQuotient (n d : Nat) : Nat :=
  let q := n / d
  let r := n % d
  if 2 * r < d then q
  else if d < 2 * r then q + 1
  else q + q % 2

/-- roundTiesToEven of the magnitude n/d units (40_datapath.md R121), as bits 62:0: quantum and mantissa add up
to the encoding, a mantissa that rounds up to 2^53 carries into the exponent, and every result past the largest
finite number is infinity. -/
def roundMag (n d : Nat) : Nat :=
  let e := quantumLog (n / d)
  min (e * 2 ^ 52 + roundQuotient n (d * 2 ^ e)) 0x7FF0000000000000

/-- The correctly rounded word of the given sign and the magnitude n/d units. -/
def roundF64 (sign : Bool) (n d : Nat) : F64 :=
  BitVec.ofNat 64 ((bif sign then 2 ^ 63 else 0) + roundMag n d)

/-- fneg inverts bit 63 (40_datapath.md R125). -/
def fneg (a : F64) : F64 := a ^^^ 0x8000000000000000

/-- fadd (40_datapath.md R121 to R123): an exact zero sum is -0.0 only if both operands are negative. -/
def fadd (a b : F64) : F64 :=
  if fisNaN a || fisNaN b then qNaN
  else if fisInf a then (if fisInf b && fsign a != fsign b then qNaN else a)
  else if fisInf b then b
  else
    let t := fint a + fint b
    if t = 0 then fzero (fsign a && fsign b)
    else roundF64 (decide (t < 0)) t.natAbs 1

/-- fsub: a - b is a + (-b) (40_datapath.md R121, R123); a NaN operand gives the canonical NaN either way (R122). -/
def fsub (a b : F64) : F64 := fadd a (fneg b)

/-- fmul (40_datapath.md R121 to R123). -/
def fmul (a b : F64) : F64 :=
  let sign := fsign a != fsign b
  if fisNaN a || fisNaN b then qNaN
  else if fisInf a || fisInf b then
    (if (!fisInf a && fmag a == 0) || (!fisInf b && fmag b == 0) then qNaN else finf sign)
  else roundF64 sign (fmag a * fmag b) (2 ^ 1074)

/-- fdiv (40_datapath.md R121 to R123). A zero divisor never occurs in a command (R122); here it gives IEEE 754's
results (log entry 15). -/
def fdiv (a b : F64) : F64 :=
  let sign := fsign a != fsign b
  if fisNaN a || fisNaN b then qNaN
  else if fisInf a then (if fisInf b then qNaN else finf sign)
  else if fisInf b then fzero sign
  else if fmag b = 0 then (if fmag a = 0 then qNaN else finf sign)
  else roundF64 sign (fmag a * 2 ^ 1074) (fmag b)

/-- f64(n), the binary64 word whose value is the natural n (40_datapath.md R125). -/
def f64 (n : Nat) : F64 := roundF64 false (n * 2 ^ 1074) 1

end Sys2Proof.Machine
end

