-- ==== Sys2Proof/Machine/Complex.lean ====
section
/-! DEFINITION. Arithmetic on data words that may be poison, and complex arithmetic on entries
(40_datapath.md R126 to R128, R132). -/

namespace Sys2Proof.Machine

/-- An operation of two data words: a result computed from poison is poison (10_state.md R45,
93_implementation_defined.md U1; log entry 5). -/
def RamWord.map₂ (f : F64 → F64 → F64) (a b : RamWord) : RamWord :=
  match a.val, b.val with
  | some x, some y => RamWord.ofF64 (f x y)
  | _, _ => RamWord.poison

/-- fadd on data words. -/
def RamWord.add (a b : RamWord) : RamWord := a.map₂ fadd b

/-- fsub on data words. -/
def RamWord.sub (a b : RamWord) : RamWord := a.map₂ fsub b

/-- fmul on data words. -/
def RamWord.mul (a b : RamWord) : RamWord := a.map₂ fmul b

/-- fdiv on data words. -/
def RamWord.div (a b : RamWord) : RamWord := a.map₂ fdiv b

/-- +0.0 as a data word (00_scope.md R12). -/
def RamWord.zero : RamWord := RamWord.ofF64 0

/-- The entry (+0.0, +0.0). -/
def Entry.zero : Entry := ⟨RamWord.zero, RamWord.zero⟩

/-- The entry of two binary64 words. -/
def Entry.ofF64 (re im : F64) : Entry := ⟨RamWord.ofF64 re, RamWord.ofF64 im⟩

/-- cadd (40_datapath.md R127). -/
def cadd (u t : Entry) : Entry := ⟨u.re.add t.re, u.im.add t.im⟩

/-- csub (40_datapath.md R127). -/
def csub (u t : Entry) : Entry := ⟨u.re.sub t.re, u.im.sub t.im⟩

/-- cmul: four products, each rounded, then one subtraction and one addition (40_datapath.md R128). -/
def cmul (a b : Entry) : Entry :=
  ⟨(a.re.mul b.re).sub (a.im.mul b.im), (a.re.mul b.im).add (a.im.mul b.re)⟩

/-- The butterfly of entries u and v with the twiddle w: t = w v is computed once (40_datapath.md R132). -/
def butterfly (w u v : Entry) : Entry × Entry :=
  let t := cmul w v
  (cadd u t, csub u t)

end Sys2Proof.Machine
end

