-- ==== Sys2Proof/Machine/Multiplier.lean ====
section
/-! DEFINITION. The spectral multiplier: CMUL (42_multiplier.md). -/

namespace Sys2Proof.Machine

/-- The body of CMUL: A.e[i] becomes cmul(A.e[i], B.e[i]) for every entry i of the active region; BUF_B is only
read (42_multiplier.md R170, R172). -/
def State.cmulBody (s : State) : State :=
  s.putEntries .A (List.zipWith cmul (s.entries .A s.k) (s.entries .B s.k))

/-- CMUL (42_multiplier.md R170). -/
def execCmul (s : State) : Host.Outcome State Fault Refusal :=
  .next (s.command [s.checkL s.l] State.cmulBody)

end Sys2Proof.Machine
end

