-- ==== Sys2Proof/Machine/Twiddle.lean ====
section
/-! DEFINITION. The twiddle ROM (10_state.md R46, 40_datapath.md R129) and twiddle selection (R130). The ROM
holds correctly rounded cosines and sines. The value to round is never approximated: a dyadic number c is
compared with cos θ by the doubling law cos 2θ = 2 cos² θ - 1, which ends at an angle whose cosine is 0 or 1
(log entry 13). -/

namespace Sys2Proof.Machine

/-- Compare the dyadic number p / 2^q with the cosine of (π/2)(a/Q), for 0 ≤ a ≤ 2Q, with at most `fuel`
doublings. At a = 0 the cosine is 1 and at a = Q it is 0. Below Q it is positive: a number that is not is less,
and for another both squares order as the numbers do. Above Q it is negative, and both squares order the other
way round; the doubled angle is then folded back below 2Q. -/
def cmpCos : Nat → Nat → Nat → Int → Nat → Ordering
  | 0, _, _, _, _ => .eq
  | fuel + 1, Q, a, p, q =>
    if a = 0 then compare p (2 ^ q : Nat)
    else if a = Q then compare p 0
    else if a < Q then
      (if p ≤ 0 then .lt else cmpCos fuel Q (2 * a) (2 * p * p - (2 ^ (2 * q) : Nat)) (2 * q))
    else
      (if 0 ≤ p then .gt
      else (cmpCos fuel Q (2 * (2 * Q - a)) (2 * p * p - (2 ^ (2 * q) : Nat)) (2 * q)).swap)

/-- The integer mantissa of the non-negative finite word with bits 62:0 = b: its value is this over
2^(`magShift` b) (40_datapath.md R120). -/
def magMantissa (b : Nat) : Nat := if b / 2 ^ 52 = 0 then b else 2 ^ 52 + b % 2 ^ 52

/-- The binary places of the mantissa of bits 62:0 = b, for values below 2. -/
def magShift (b : Nat) : Nat := 1075 - max 1 (b / 2 ^ 52)

/-- The largest encoding below 2^bits + b, reached from b by setting lower bits, whose value does not exceed the
cosine of (π/2)(a/Q). -/
def floorCos (fuel Q a : Nat) : Nat → Nat → Nat
  | 0, b => b
  | bits + 1, b =>
    let b' := b + 2 ^ bits
    floorCos fuel Q a bits
      (if cmpCos fuel Q a (magMantissa b') (magShift b') = .gt then b else b')

/-- The encoding nearest to the cosine of (π/2)(a/Q), for 0 ≤ a ≤ Q: the floor, or its successor if the cosine
lies above the midpoint of the two (ties to even; no tie occurs). -/
def nearestCos (fuel Q a : Nat) : Nat :=
  let b := floorCos fuel Q a 62 0
  match cmpCos fuel Q a (2 * magMantissa b + 1 : Nat) (magShift b + 1) with
  | .lt => b + 1
  | .gt => b
  | .eq => b + b % 2

/-- The binary64 word nearest to the cosine of (π/2)(a/Q), for 0 ≤ a ≤ 2Q; an exact zero is +0.0
(40_datapath.md R129). -/
def cosF64 (fuel Q a : Nat) : F64 :=
  if a ≤ Q then BitVec.ofNat 64 (nearestCos fuel Q a)
  else BitVec.ofNat 64 (2 ^ 63 + nearestCos fuel Q (2 * Q - a))

/-- ROM_C[k] of a build with LOG2_KMAX = n: cos(2πk / 2^n), correctly rounded (40_datapath.md R129). -/
def romC (n k : Nat) : F64 := cosF64 (n + 2) (2 ^ n) (4 * k)

/-- ROM_S[k] of a build with LOG2_KMAX = n: sin(2πk / 2^n), correctly rounded (40_datapath.md R129), as the cosine
of the angle's distance from π/2. -/
def romS (n k : Nat) : F64 :=
  cosF64 (n + 2) (2 ^ n) (if 2 ^ n ≤ 4 * k then 4 * k - 2 ^ n else 2 ^ n - 4 * k)

/-- The ROM index of butterfly j of stage n (40_datapath.md R130). -/
def romIndex (log2KMax n j : Nat) : Nat := j * 2 ^ (log2KMax - n)

/-- The twiddle w(n, j, d): the sine is negated for FORWARD (40_datapath.md R130; 90_conflicts.md C1). -/
def twiddle (log2KMax n j : Nat) (d : Dir) : Entry :=
  let c := romC log2KMax (romIndex log2KMax n j)
  let s := romS log2KMax (romIndex log2KMax n j)
  match d with
  | .fwd => Entry.ofF64 c (fneg s)
  | .inv => Entry.ofF64 c s

end Sys2Proof.Machine
end

