-- ==== Sys2Proof/Machine/Transform.lean ====
section
/-! DEFINITION. The transform engine: BITREV, STAGE and FFT (41_transform.md). -/

namespace Sys2Proof.Machine

/-- Entry i of a list of entries; past its end, an entry that is all poison. -/
def entryAt (es : List Entry) (i : Nat) : Entry := es.getD i ⟨RamWord.poison, RamWord.poison⟩

/-- rev_L(i), the reversal of the L low bits of i (40_datapath.md R131). -/
def bitrev (l i : Nat) : Nat :=
  ((List.range l).map fun t => i / 2 ^ t % 2 * 2 ^ (l - 1 - t)).sum

/-- The body of BITREV on the entries of the active region: from a snapshot t, entry i goes to entry rev_L(i),
both words together (41_transform.md R151). -/
def bitrevEntries (l : Nat) (t : List Entry) : List Entry :=
  (List.range (2 ^ l)).foldl (fun out i => out.set (bitrev l i) (entryAt t i)) t

/-- One butterfly in place, on the entries i (lower) and i' (upper) (40_datapath.md R132). -/
def butterflyAt (w : Entry) (i i' : Nat) (es : List Entry) : List Entry :=
  (es.set i (butterfly w (entryAt es i) (entryAt es i')).1).set i'
    (butterfly w (entryAt es i) (entryAt es i')).2

/-- The butterflies of the group that starts at entry `base`, in stage n (41_transform.md R152). -/
def stageGroup (log2KMax n : Nat) (d : Dir) (base : Nat) (es : List Entry) : List Entry :=
  (List.range (2 ^ (n - 1))).foldl
    (fun es j => butterflyAt (twiddle log2KMax n j d) (base + j) (base + j + 2 ^ (n - 1)) es) es

/-- The body of STAGE n on the entries of the active region of size 2^l (41_transform.md R152). -/
def stageEntries (log2KMax l n : Nat) (d : Dir) (es : List Entry) : List Entry :=
  (List.range (2 ^ l / 2 ^ n)).foldl (fun es g => stageGroup log2KMax n d (g * 2 ^ n) es) es

/-- The body of FFT on the entries of the active region: the bit reversal, then stages 1 … l in increasing order,
with no normalization (41_transform.md R153, R154). -/
def fftEntries (log2KMax l : Nat) (d : Dir) (es : List Entry) : List Entry :=
  (List.range l).foldl (fun es n => stageEntries log2KMax l (n + 1) d es) (bitrevEntries l es)

/-- Rewrite the active region of a buffer in place (41_transform.md R150). -/
def State.mapActive (s : State) (b : Buf) (f : List Entry → List Entry) : State :=
  s.putEntries b (f (s.entries b s.k))

/-- The body of FFT b, d (41_transform.md R153). -/
def State.fftBody (s : State) (b : Buf) (d : Dir) : State :=
  s.mapActive b (fftEntries s.build.log2KMax s.l d)

/-- BITREV b (41_transform.md R151). -/
def execBitrev (b : Buf) (s : State) : Host.Outcome State Fault Refusal :=
  .next (s.command [s.checkL s.l] fun s => s.mapActive b (bitrevEntries s.l))

/-- STAGE b, d, n (41_transform.md R152): the LOG2K check comes before the STAGE check. -/
def execStage (b : Buf) (d : Dir) (n : Nat) (s : State) : Host.Outcome State Fault Refusal :=
  .next (s.command [s.checkL s.l, s.checkStage n]
    fun s => s.mapActive b (stageEntries s.build.log2KMax s.l n d))

/-- FFT b, d (41_transform.md R153). -/
def execFft (b : Buf) (d : Dir) (s : State) : Host.Outcome State Fault Refusal :=
  .next (s.command [s.checkL s.l] fun s => s.fftBody b d)

end Sys2Proof.Machine
end

