-- ==== Sys2Proof/Machine/Orchestrator.lean ====
section
/-! DEFINITION. The orchestrator: NOP, SIZE, CLEAR, PADX, PADH, SCALE, EXTRACT and CONV (43_orchestrator.md). -/

namespace Sys2Proof.Machine

/-- NOP (43_orchestrator.md R180): only the successful completion. -/
def execNop (s : State) : Host.Outcome State Fault Refusal :=
  .next (s.command [] id)

/-! ### SIZE -/

/-- The checks of SIZE and CONV, in their order (43_orchestrator.md R181, R188). -/
def State.sizeChecks (s : State) : List (Option Err) :=
  [s.checkMNonzero, s.checkNNonzero, s.checkMCapacity, s.checkNCapacity, s.checkL s.sizedL]

/-- The writes of SIZE: LOG2K, P_LEN and STATUS.ALIASED (43_orchestrator.md R181, R182). -/
def State.sizeBody (s : State) : State :=
  { s with
    log2k := BitVec.ofNat 5 s.sizedL
    pLen := BitVec.ofNat 32 s.sizedP
    aliased := aliasedFlag s.sizedP (2 ^ s.sizedL) }

/-- SIZE (43_orchestrator.md R181). -/
def execSize (s : State) : Host.Outcome State Fault Refusal :=
  .next (s.command s.sizeChecks State.sizeBody)

/-! ### Zero-padding -/

/-- Sample i goes into the real slot of entry i mod k: copied if i < k, else added to what the slot holds
(43_orchestrator.md R184, R185). -/
def padSample (k : Nat) (sample : Nat → RamWord) (es : List Entry) (i : Nat) : List Entry :=
  let r := i % k
  let e := entryAt es r
  es.set r { e with re := if i < k then sample i else e.re.add (sample i) }

/-- The zero-padded entries of `len` samples, taken in increasing index (43_orchestrator.md R184, R185). -/
def padEntries (k len : Nat) (sample : Nat → RamWord) : List Entry :=
  (List.range len).foldl (padSample k sample) (List.replicate k Entry.zero)

/-- The body of PADX: BUF_A becomes the zero-padded x (43_orchestrator.md R184). -/
def State.padxBody (s : State) : State := s.putEntries .A (padEntries s.k s.m (s.loadWord .x))

/-- The body of PADH: BUF_B becomes the zero-padded h (43_orchestrator.md R185). -/
def State.padhBody (s : State) : State := s.putEntries .B (padEntries s.k s.n (s.loadWord .h))

/-- PADX (43_orchestrator.md R184). -/
def execPadx (s : State) : Host.Outcome State Fault Refusal :=
  .next (s.command [s.checkMNonzero, s.checkMCapacity, s.checkL s.l] State.padxBody)

/-- PADH (43_orchestrator.md R185). -/
def execPadh (s : State) : Host.Outcome State Fault Refusal :=
  .next (s.command [s.checkNNonzero, s.checkNCapacity, s.checkL s.l] State.padhBody)

/-- CLEAR b: every word of the active region becomes +0.0 (43_orchestrator.md R183). -/
def execClear (b : Buf) (s : State) : Host.Outcome State Fault Refusal :=
  .next (s.command [s.checkL s.l] fun s => s.putEntries b (List.replicate s.k Entry.zero))

/-! ### SCALE and EXTRACT -/

/-- Both words of an entry divided by k (43_orchestrator.md R186). -/
def scaleEntry (k : Nat) (e : Entry) : Entry :=
  ⟨e.re.div (RamWord.ofF64 (f64 k)), e.im.div (RamWord.ofF64 (f64 k))⟩

/-- The body of SCALE b (43_orchestrator.md R186). -/
def State.scaleBody (s : State) (b : Buf) : State := s.mapActive b (List.map (scaleEntry s.k))

/-- SCALE b (43_orchestrator.md R186). -/
def execScale (b : Buf) (s : State) : Host.Outcome State Fault Refusal :=
  .next (s.command [s.checkL s.l] fun s => s.scaleBody b)

/-- The body of EXTRACT: Y[n] becomes A.w[2 (n mod K)] for n < P, bits preserved (43_orchestrator.md R187), poison if
the word read has a poison half (70_reset_and_hazards.md R268). -/
def State.extractBody (s : State) : State :=
  s.putWords .y ((List.range s.p).map fun n => s.loadWord .bufA (2 * (n % s.k)))

/-- EXTRACT (43_orchestrator.md R187): the LOG2K check comes before the P_LEN check. -/
def execExtract (s : State) : Host.Outcome State Fault Refusal :=
  .next (s.command [s.checkL s.l, s.checkPCapacity] State.extractBody)

/-! ### CONV -/

/-- The seven steps of CONV after its checks (43_orchestrator.md R188). -/
def State.convBody (s : State) : State :=
  (((((((s.sizeBody.padxBody).padhBody).fftBody .A .fwd).fftBody .B .fwd).cmulBody).fftBody .A .inv).scaleBody
    .A).extractBody

/-- CONV (43_orchestrator.md R188): all of SIZE's checks come first. -/
def execConv (s : State) : Host.Outcome State Fault Refusal :=
  .next (s.command s.sizeChecks State.convBody)

end Sys2Proof.Machine
end

