-- ==== Sys2Proof/Machine/Dispatch.lean ====
section
/-! DEFINITION. The meaning of every command, one arm per constructor. -/

namespace Sys2Proof.Machine

def exec (i : Instr) (s : State) : Host.Outcome State Fault Refusal :=
  match i with
  | .nop => Sys2Proof.Machine.execNop s
  | .size => Sys2Proof.Machine.execSize s
  | .padx => Sys2Proof.Machine.execPadx s
  | .padh => Sys2Proof.Machine.execPadh s
  | .clear b => Sys2Proof.Machine.execClear b s
  | .bitrev b => Sys2Proof.Machine.execBitrev b s
  | .stage b d n => Sys2Proof.Machine.execStage b d n s
  | .fft b d => Sys2Proof.Machine.execFft b d s
  | .cmul => Sys2Proof.Machine.execCmul s
  | .scale b => Sys2Proof.Machine.execScale b s
  | .extract => Sys2Proof.Machine.execExtract s
  | .conv => Sys2Proof.Machine.execConv s

end Sys2Proof.Machine
end

