-- ==== Sys2Proof/Machine/Engine.lean ====
section
/-! DEFINITION. The engine's turn: the completion of the running command (30_encoding.md R102, R103). -/

namespace Sys2Proof.Machine

/-- The error of a command word that does not decode: ILLEGAL_COMMAND, source CMD, info the word
(30_encoding.md R98, R99). -/
def illegalCommand (c : Word32) : Err := ⟨.illegalCommand, .cmd, c⟩

/-- The engine step of a command word: decoding comes before every other check (30_encoding.md R98). -/
def runWord (c : Word32) (s : State) : Host.Outcome State Fault Refusal :=
  match decode c with
  | .ok i => exec i s
  | .reject _ => .next (s.raise (illegalCommand c))

/-- The engine's turn: a running command completes, in one atomic step (70_reset_and_hazards.md R272); an idle
engine does nothing and keeps all state (60_exceptions.md R239). -/
def engineTurn (s : State) : Host.Outcome State Fault Refusal :=
  match s.eng with
  | .idle => .next s
  | .running c => runWord c s

end Sys2Proof.Machine
end

