-- ==== Sys2Proof/Machine/Step.lean ====
section
/-! DEFINITION. One step of the machine: the next event of the schedule, or, when none is pending, the engine's
turn (00_scope.md R10; log entries 1, 19). -/

namespace Sys2Proof.Machine

/-- An event of either agent, or reset. -/
def runEvent (e : Event) (s : State) : Host.Outcome State Fault Refusal :=
  match e with
  | .access a => hostAccess a s
  | .engine => engineTurn s
  | .reset => .next s.afterReset

/-- One step. With no event pending the engine has the turn, so that every accepted command completes
(70_reset_and_hazards.md R273). -/
def step (s : State) : Host.Outcome State Fault Refusal :=
  match s.inputs with
  | [] => engineTurn s
  | e :: es => runEvent e { s with inputs := es }

/-- The state in which the engine has accepted the table row's word and has the next turn (30_encoding.md R101;
log entry 18). -/
def State.withFetchWord (s : State) (nbits w : Nat) : State :=
  { s.issue (tableWord nbits w) with inputs := .engine :: s.inputs }

end Sys2Proof.Machine
end

