-- ==== Sys2Proof/Safety.lean ====
section
/-! DEFINITION. The invariant of the machine and the notions its statements are written in. -/

namespace Sys2Proof.Machine

/-- Every listed byte belongs to an implemented RAM word (20_memory.md R61). -/
def State.memImplemented (s : State) : Bool := s.mem.all fun c => ramImplemented s.build c.1

/-- The half an offset lies in is specified as a whole or not at all: a listed byte's four neighbours are listed
(20_memory.md R62: every write writes a whole half). -/
def Memory.halvesWhole (m : Memory) : Bool :=
  m.all fun c => (m.half (c.1 - c.1 % 4)).isSome

/-- The memory is in canonical form, lists implemented bytes only, and halves are whole. -/
def State.memOk (s : State) : Bool :=
  s.mem.wf && s.memImplemented && Memory.halvesWhole s.mem

/-- DONE and ERR never hold together (60_exceptions.md R233); while a command runs neither does, and no error
is recorded (30_encoding.md R101); ERR says that an error is recorded (10_state.md R29), DONE that none is
(R34); and CODE and SOURCE are zero together (60_exceptions.md R220, R221). -/
def State.statusOk (s : State) : Bool :=
  !(s.done && s.err) && (!s.busy || (!s.done && !s.err && decide (s.errCode = .none))) &&
    (!s.err || !decide (s.errCode = .none)) && (!s.done || decide (s.errCode = .none)) &&
    (decide (s.errCode = .none) == decide (s.errSource = .none))

/-- The invariant every step keeps. -/
def State.Inv (s : State) : Prop := s.memOk = true ∧ s.statusOk = true

/-! ### The architectural part of a state, and the host's events -/

/-- A state without the model's own fields: what is left is the architectural state of 10_state.md R20. -/
def State.arch (s : State) : State := { s with inputs := [], bus := .none, draws := 0 }

/-- The host's aligned 32-bit write to an offset of the aperture (20_memory.md R60). -/
def hostWrite (b : Build) (off : Nat) (v : Word32) : Event := .access ⟨b.base + off, 32, true, .write v⟩

/-- The host's aligned 32-bit read of an offset of the aperture (20_memory.md R60). -/
def hostRead (b : Build) (off : Nat) : Event := .access ⟨b.base + off, 32, true, .read⟩

/-- The step of one event in a state. -/
def stepEvent (e : Event) (s : State) : Host.Outcome State Fault Refusal := step { s with inputs := e :: s.inputs }

/-- Issue a command and let the engine complete it (30_encoding.md R106, RUN); none if it ends in an error. -/
def runCommand (i : Instr) (s : State) : Option State :=
  match engineTurn (s.issue (encode i)) with
  | .next t => if t.err then none else some t
  | _ => none

/-- Issue commands one after another, each after the previous one has completed (30_encoding.md R105). -/
def runCommands : List Instr → State → Option State
  | [], s => some s
  | i :: is, s => (runCommand i s).bind (runCommands is)

/-! ### The value of a binary64 word -/

/-- A finite word: neither an infinity nor a NaN (40_datapath.md R120). -/
def fisFinite (w : F64) : Bool := !(fexp w == 2047)

/-- The value of a finite word (40_datapath.md R120). -/
def fval (w : F64) : ℚ := (fint w : ℚ) / 2 ^ 1074

/-- w is x rounded to nearest, ties to even, by the definition of IEEE 754 (40_datapath.md R121): from the midpoint
above the largest finite number on it is the signed infinity; below, no finite word lies nearer to x, and if one of
another value lies as near, the last bit of w is 0. -/
def CorrectlyRounded (x : ℚ) (w : F64) : Prop :=
  if (2 ^ 54 - 1) * 2 ^ 970 ≤ |x| then w = finf (decide (x < 0))
  else fisFinite w = true ∧ ∀ c, fisFinite c = true →
    |fval w - x| ≤ |fval c - x| ∧ (fval c ≠ fval w → |fval c - x| = |fval w - x| → w.getLsbD 0 = false)

/-- A data word whose two halves both hold a value. -/
def RamWord.defined (w : RamWord) : Bool := w.val.isSome

end Sys2Proof.Machine
end

