-- ==== Sys2Proof/Certificates/Slice0/Obligations.lean ====
section
/-! DEFINITION. The statements for the provers, in terms of exec, step and the decoder. Where a statement speaks of
`inputs`, `bus` or `draws`, these are the model's own fields (log entries 1, 4, 6): the pending events, the response
of the last host access, and the count of free draws. -/

open Sys2Proof Sys2Proof.Machine

/-! ### Encoding -/

/-- 30_encoding.md R97, R98, R104: decoding the word of a well-formed command gives the command back. -/
def Obligations.DecodeOfEncode : Prop :=
  ∀ i : Instr, i.wellFormed = true → decode (encode i) = .ok i

/-- 30_encoding.md R96 to R99: a word that decodes is the word of what it decodes to, so no bit of it is ignored. -/
def Obligations.EncodeOfDecode : Prop :=
  ∀ (c : Word32) (i : Instr), decode c = .ok i → encode i = c ∧ i.wellFormed = true

/-- 30_encoding.md R97, R98, R99, R104: a word decodes exactly if it matches a row of the opcode map, written out here,
and the words of the encoding table, with every operand, decode to their commands. -/
def Obligations.WordsOfTheTableDecode : Prop :=
  (∀ c : Word32, (∃ i, decode c = .ok i) ↔
    ∃ row ∈ ([(0xFFFFFFFF, 0x00000000), (0xFFFFFFFF, 0x00000001), (0xFFFFFFFF, 0x00000002), (0xFFFFFFFF, 0x00000003),
      (0xFFFFFEFF, 0x00000004), (0xFFFFFEFF, 0x00000005), (0xFFE0FAFF, 0x00000006), (0xFFFFFAFF, 0x00000007),
      (0xFFFFFFFF, 0x00000008), (0xFFFFFEFF, 0x00000009), (0xFFFFFFFF, 0x0000000A),
      (0xFFFFFFFF, 0x0000000B)] : List (Word32 × Word32)), c &&& row.1 = row.2) ∧
  decode 0x00000000 = .ok .nop ∧ decode 0x00000001 = .ok .size ∧ decode 0x00000002 = .ok .padx ∧
  decode 0x00000003 = .ok .padh ∧ decode 0x00000008 = .ok .cmul ∧ decode 0x0000000A = .ok .extract ∧
  decode 0x0000000B = .ok .conv ∧
  ∀ (b : Buf) (d : Dir) (n : Nat), n < 32 →
    let bn := match b with | .A => 0 | .B => 1
    let dn := match d with | .fwd => 0 | .inv => 1
    decode (BitVec.ofNat 32 (4 + bn * 2 ^ 8)) = .ok (.clear b) ∧
    decode (BitVec.ofNat 32 (5 + bn * 2 ^ 8)) = .ok (.bitrev b) ∧
    decode (BitVec.ofNat 32 (6 + bn * 2 ^ 8 + dn * 2 ^ 10 + n * 2 ^ 16)) = .ok (.stage b d n) ∧
    decode (BitVec.ofNat 32 (7 + bn * 2 ^ 8 + dn * 2 ^ 10)) = .ok (.fft b d) ∧
    decode (BitVec.ofNat 32 (9 + bn * 2 ^ 8)) = .ok (.scale b)

/-- 30_encoding.md R97, R104: a word of each row and R104's examples decode to their commands; 95_test_vectors.md EN-6 to
EN-13 and EN-16: words with a reserved opcode, or with a reserved or unused bit set, are rejected; EN-14 and EN-15: STAGE
numbers 0 and 31 are legal encodings. -/
def Obligations.SampleWordsDecode : Prop :=
  decode 0x00000000 = .ok .nop ∧ decode 0x00000001 = .ok .size ∧ decode 0x00000002 = .ok .padx ∧
    decode 0x00000003 = .ok .padh ∧ decode 0x00000104 = .ok (.clear .B) ∧ decode 0x00000105 = .ok (.bitrev .B) ∧
    decode 0x00010006 = .ok (.stage .A .fwd 1) ∧ decode 0x00030506 = .ok (.stage .B .inv 3) ∧
    decode 0x00000407 = .ok (.fft .A .inv) ∧ decode 0x00000107 = .ok (.fft .B .fwd) ∧
    decode 0x00000008 = .ok .cmul ∧ decode 0x00000009 = .ok (.scale .A) ∧ decode 0x0000000A = .ok .extract ∧
    decode 0x0000000B = .ok .conv ∧
    decode 0x00000406 = .ok (.stage .A .inv 0) ∧ decode 0x001F0006 = .ok (.stage .A .fwd 31) ∧
    decode 0x0000000C = .reject .reservedOpcode ∧ decode 0x000000FF = .reject .reservedOpcode ∧
    decode 0x00000201 = .reject .reservedBits ∧ decode 0x00000205 = .reject .reservedBits ∧
    decode 0x00000108 = .reject .reservedBits ∧ decode 0x00000806 = .reject .reservedBits ∧
    decode 0x00200006 = .reject .reservedBits ∧ decode 0x00010007 = .reject .reservedBits ∧
    decode 0x80000000 = .reject .reservedBits

/-! ### Steps -/

/-- 30_encoding.md R101, R102, log entries 1 and 19: when the engine has the turn (no event is pending, or the next
one is its turn) and the running word decodes, the step is exec of the decoded command, and only the event is used up;
and (60_exceptions.md R239, 10_state.md R47) when the engine is idle, its turn keeps the state but for the event. -/
def Obligations.StepRunsTheDecodedCommand : Prop :=
  (∀ (s : State) (c : Word32) (i : Instr), s.eng = .running c → decode c = .ok i →
    (s.inputs = [] → step s = exec i s) ∧
      ∀ es, s.inputs = .engine :: es → step s = exec i { s with inputs := es }) ∧
  ∀ s : State, s.eng = .idle →
    (s.inputs = [] → step s = .next s) ∧
      ∀ es, s.inputs = .engine :: es → step s = .next { s with inputs := es }

/-- 30_encoding.md R98, R99, 60_exceptions.md R222, R225, log entries 1 and 19: when the engine has the turn (no event is
pending, or the next one is its turn), a running word that does not decode ends in the error completion
ILLEGAL_COMMAND, source CMD, with the word recorded, and nothing else changes but the event used up. -/
def Obligations.IllegalWordIsReported : Prop :=
  ∀ (s : State) (c : Word32) (r : DecodeReject), s.eng = .running c → decode c = .reject r →
    (s.inputs = [] → step s = .next { s with
      errCode := .illegalCommand, errSource := .cmd, errInfo := c, err := true, eng := .idle }) ∧
    ∀ es, s.inputs = .engine :: es → step s = .next { s with
      inputs := es, errCode := .illegalCommand, errSource := .cmd, errInfo := c, err := true, eng := .idle }

/-- 30_encoding.md R102, R103, 60_exceptions.md R233, 70_reset_and_hazards.md R273, log entries 1 and 19: from a state in which a command
has been issued (DONE and ERR are 0), the engine's turn (no event is pending, or the next one is its turn) completes
it: the engine is idle, and exactly one of DONE and ERR is set. -/
def Obligations.RunningCommandCompletes : Prop :=
  ∀ (s : State) (c : Word32), s.eng = .running c → s.done = false → s.err = false →
    (s.inputs = [] → ∃ t, step s = .next t ∧ t.inputs = [] ∧ t.eng = .idle ∧ (t.done = !t.err)) ∧
    ∀ es, s.inputs = .engine :: es →
      ∃ t, step s = .next t ∧ t.inputs = es ∧ t.eng = .idle ∧ (t.done = !t.err)

/-- 30_encoding.md R101: a CMD write while idle is accepted, in one step, whatever its word, with no bus error; one while running is not
(the running word and the rest of the state stay, but for BUSY_WR). -/
def Obligations.CommandIssue : Prop :=
  ∀ (s : State) (c : Word32),
    (s.eng = .idle → ∃ t, stepEvent (hostWrite s.build 0x010 c) s = .next t ∧ t.bus = .written ∧
      t.arch = { s.arch with
        done := false, err := false, errCode := .none, errSource := .none, errInfo := 0, eng := .running c }) ∧
    (∀ c', s.eng = .running c' → ∃ t, stepEvent (hostWrite s.build 0x010 c) s = .next t ∧
      t.arch = { s.arch with busyWr := true })

/-! ### The orchestrator's registers: NOP and SIZE -/

/-- 43_orchestrator.md R180, 30_encoding.md R102: NOP completes in every state and changes nothing else. -/
def Obligations.NopCompletes : Prop :=
  ∀ s : State, exec .nop s = .next { s with done := true, eng := .idle }

/-- 43_orchestrator.md R181, R182: SIZE with lengths in range and a K that fits completes; it writes LOG2K, P_LEN and
ALIASED and nothing else: P = M + N - 1; in REFERENCE mode K is the power of two with 2M ≤ K < 4M; in LINEAR mode K
is the smallest power of two not below P; ALIASED says P > K. M, N, P and L are the values of M_LEN, N_LEN, P_LEN and
LOG2K, and K = 2^L (10_state.md R36 to R39). -/
def Obligations.SizeComputesTheSizes : Prop :=
  (∀ s : State, s.m = s.mLen.toNat ∧ s.n = s.nLen.toNat ∧ s.p = s.pLen.toNat ∧ s.l = s.log2k.toNat ∧ s.k = 2 ^ s.l) ∧
  ∀ s : State, 0 < s.m → 0 < s.n → s.m ≤ s.build.kMax → s.n ≤ s.build.kMax →
    (s.sizeMode = .reference → 2 * s.m ≤ s.build.kMax) →
    (s.sizeMode = .linear → s.m + s.n - 1 ≤ s.build.kMax) →
    ∃ t, exec .size s = .next t ∧
      t = { s with log2k := t.log2k, pLen := t.pLen, aliased := t.aliased, done := true, eng := .idle } ∧
      t.p = s.m + s.n - 1 ∧
      (s.sizeMode = .reference → 2 * s.m ≤ t.k ∧ t.k < 4 * s.m) ∧
      (s.sizeMode = .linear → t.p ≤ t.k ∧ ∀ j, t.p ≤ 2 ^ j → t.l ≤ j) ∧
      (t.aliased = true ↔ t.k < t.p)

/-- 43_orchestrator.md R181 (exception 4), 60_exceptions.md R222: when the lengths are in range and the computed K
exceeds K_MAX (in REFERENCE mode whenever M > K_MAX/2), SIZE and CONV report INVALID_SIZE, source LOG2K, with the
computed L, and change nothing else. -/
def Obligations.SizeReportsAnOversizedTransform : Prop :=
  ∀ (s : State) (i : Instr), i = .size ∨ i = .conv → 0 < s.m → 0 < s.n → s.m ≤ s.build.kMax → s.n ≤ s.build.kMax →
    (s.sizeMode = .reference → s.build.kMax < 2 * s.m) →
    (s.sizeMode = .linear → s.build.kMax < s.m + s.n - 1) →
    ∃ t, exec i s = .next t ∧
      t = { s with
        errCode := .invalidSize, errSource := .log2k, errInfo := t.errInfo, err := true, eng := .idle } ∧
      (s.sizeMode = .reference → 2 * s.m ≤ 2 ^ t.errInfo.toNat ∧ 2 ^ t.errInfo.toNat < 4 * s.m) ∧
      (s.sizeMode = .linear → s.m + s.n - 1 ≤ 2 ^ t.errInfo.toNat ∧
        ∀ j, s.m + s.n - 1 ≤ 2 ^ j → t.errInfo.toNat ≤ j)

/-- 40_datapath.md R134: REFERENCE sizing for M ≥ 1: L = floor(log2 (2M - 1)) + 1 whatever N is, K is the smallest
power of two not below 2M, so K ≥ 2 and K > M; with the rule's examples. -/
def Obligations.ReferenceSizingLaw : Prop :=
  (∀ m n : Nat, 1 ≤ m →
    sizeExponent .reference m n = Nat.log 2 (2 * m - 1) + 1 ∧
    2 * m ≤ 2 ^ sizeExponent .reference m n ∧ (∀ j, 2 * m ≤ 2 ^ j → sizeExponent .reference m n ≤ j) ∧
    2 ≤ 2 ^ sizeExponent .reference m n ∧ m < 2 ^ sizeExponent .reference m n) ∧
  [1, 2, 3, 4, 5, 8].map (fun m => sizeExponent .reference m 1) = [1, 2, 3, 3, 4, 4]

/-- 40_datapath.md R135: LINEAR sizing for P = M + N - 1 ≥ 1: K = 2^L is the smallest power of two not below P; with
the rule's examples (P = 1, 2, 3, 4, 9). A SIZE or CONV in LINEAR mode that completes never aliases. -/
def Obligations.LinearSizingLaw : Prop :=
  (∀ m n : Nat, 1 ≤ m → 1 ≤ n →
    m + n - 1 ≤ 2 ^ sizeExponent .linear m n ∧ (∀ j, m + n - 1 ≤ 2 ^ j → sizeExponent .linear m n ≤ j)) ∧
  [1, 2, 3, 4, 9].map (fun p => sizeExponent .linear 1 p) = [0, 1, 2, 2, 4] ∧
  (∀ (s t : State) (i : Instr), i = .size ∨ i = .conv → s.sizeMode = .linear → s.done = false →
    exec i s = .next t → t.done = true → t.aliased = false ∧ t.p ≤ t.k)

/-! ### Commands that write a buffer or Y -/

/-- 43_orchestrator.md R183: CLEAR sets every entry of the active region to +0.0, and leaves every byte outside it
and every register but the completion's as it was. -/
def Obligations.ClearZeroesTheActiveRegion : Prop :=
  ∀ (s : State) (b : Buf), s.l ≤ s.build.log2KMax →
    ∃ t, exec (.clear b) s = .next t ∧ t = { s with mem := t.mem, done := true, eng := .idle } ∧
      (∀ i < s.k, t.entry b i = Entry.ofF64 0 0) ∧
      ∀ a, a < (ramOf b).addr 0 ∨ (ramOf b).addr 0 + 16 * s.k ≤ a → t.mem.read a = s.mem.read a

/-- 43_orchestrator.md R184, R185: PADX puts into real slot r of BUF_A the sample X[r] (its bits, or +0.0 if r ≥ M), to
which the samples X[r + K], X[r + 2K], … below M are added in that order; imaginary words are +0.0; every byte
outside the active region and every register but the completion's is as it was. PADH does with N, H and BUF_B what
PADX does with M, X and BUF_A. A sample with a poison half is read, and so copied, as poison (70_reset_and_hazards.md
R268; log entry 16). -/
def Obligations.PaddingPlacesAndFolds : Prop :=
  (∀ s : State, 0 < s.m → s.m ≤ s.build.kMax → s.l ≤ s.build.log2KMax →
    ∃ t, exec .padx s = .next t ∧ t = { s with mem := t.mem, done := true, eng := .idle } ∧
      (∀ r < s.k, t.entry .A r =
        ⟨if r < s.m then
          (List.range ((s.m - 1 - r) / s.k)).foldl (fun acc j => acc.add (s.loadWord .x (r + (j + 1) * s.k)))
            (s.loadWord .x r)
        else RamWord.ofF64 0, RamWord.ofF64 0⟩) ∧
      ∀ a, a < Ram.bufA.addr 0 ∨ Ram.bufA.addr 0 + 16 * s.k ≤ a → t.mem.read a = s.mem.read a) ∧
  ∀ s : State, 0 < s.n → s.n ≤ s.build.kMax → s.l ≤ s.build.log2KMax →
    ∃ t, exec .padh s = .next t ∧ t = { s with mem := t.mem, done := true, eng := .idle } ∧
      (∀ r < s.k, t.entry .B r =
        ⟨if r < s.n then
          (List.range ((s.n - 1 - r) / s.k)).foldl (fun acc j => acc.add (s.loadWord .h (r + (j + 1) * s.k)))
            (s.loadWord .h r)
        else RamWord.ofF64 0, RamWord.ofF64 0⟩) ∧
      ∀ a, a < Ram.bufB.addr 0 ∨ Ram.bufB.addr 0 + 16 * s.k ≤ a → t.mem.read a = s.mem.read a

/-- 41_transform.md R151: BITREV moves entry i to entry rev_L(i), both words with their bits, a word with a poison half as
poison, one that stays in its place too (70_reset_and_hazards.md R268; log entry 16); every byte outside the active
region and every register but the completion's is as it was. -/
def Obligations.BitrevPermutesEntries : Prop :=
  ∀ (s : State) (b : Buf), s.l ≤ s.build.log2KMax →
    ∃ t, exec (.bitrev b) s = .next t ∧ t = { s with mem := t.mem, done := true, eng := .idle } ∧
      (∀ i < s.k, t.entry b (bitrev s.l i) = (s.entry b i).loaded) ∧
      ∀ a, a < (ramOf b).addr 0 ∨ (ramOf b).addr 0 + 16 * s.k ≤ a → t.mem.read a = s.mem.read a

/-- 40_datapath.md R131: rev_L reverses the L low bits, stays below 2^L and is its own inverse; with the rule's
example. -/
def Obligations.BitReversalLaw : Prop :=
  (∀ l i : Nat, i < 2 ^ l → bitrev l i < 2 ^ l ∧ bitrev l (bitrev l i) = i ∧
    ∀ t < l, (bitrev l i).testBit (l - 1 - t) = i.testBit t) ∧
  bitrev 0 0 = 0 ∧ (List.range 8).map (bitrev 3) = [0, 4, 2, 6, 1, 5, 3, 7]

/-- 41_transform.md R152, 40_datapath.md R127, R128, R132, R137: STAGE replaces each pair of entries u, v half a span
apart by u + w v and u - w v of their values before the command, with the twiddle of their place in the group; every
byte outside the active region and every register but the completion's is as it was. -/
def Obligations.StageAppliesButterflies : Prop :=
  ∀ (s : State) (b : Buf) (d : Dir) (n : Nat), s.l ≤ s.build.log2KMax → 1 ≤ n → n ≤ s.l →
    ∃ t, exec (.stage b d n) s = .next t ∧ t = { s with mem := t.mem, done := true, eng := .idle } ∧
      (∀ g j, g < s.k / 2 ^ n → j < 2 ^ (n - 1) →
        t.entry b (g * 2 ^ n + j) = cadd (s.entry b (g * 2 ^ n + j))
          (cmul (twiddle s.build.log2KMax n j d) (s.entry b (g * 2 ^ n + j + 2 ^ (n - 1)))) ∧
        t.entry b (g * 2 ^ n + j + 2 ^ (n - 1)) = csub (s.entry b (g * 2 ^ n + j))
          (cmul (twiddle s.build.log2KMax n j d) (s.entry b (g * 2 ^ n + j + 2 ^ (n - 1))))) ∧
      ∀ a, a < (ramOf b).addr 0 ∨ (ramOf b).addr 0 + 16 * s.k ≤ a → t.mem.read a = s.mem.read a

/-- 41_transform.md R153: FFT completes whenever L ≤ LOG2_KMAX; every byte outside the active region and every
register but the completion's is as it was, and at K = 1 the one entry keeps its bits, a word with a poison half
becoming poison (70_reset_and_hazards.md R268; log entry 16). -/
def Obligations.FftCompletesInPlace : Prop :=
  ∀ (s : State) (b : Buf) (d : Dir), s.l ≤ s.build.log2KMax →
    ∃ t, exec (.fft b d) s = .next t ∧ t = { s with mem := t.mem, done := true, eng := .idle } ∧
      (s.l = 0 → t.entry b 0 = (s.entry b 0).loaded) ∧
      ∀ a, a < (ramOf b).addr 0 ∨ (ramOf b).addr 0 + 16 * s.k ≤ a → t.mem.read a = s.mem.read a

/-- 41_transform.md R153, R156: issuing BITREV b and then STAGE b, d, 1 … L, each after the previous one completed,
ends in the same state as one FFT b, d. -/
def Obligations.FftIsBitrevThenStages : Prop :=
  ∀ (s : State) (b : Buf) (d : Dir), s.l ≤ s.build.log2KMax →
    ∃ t, runCommand (.fft b d) s = some t ∧
      runCommands (.bitrev b :: (List.range s.l).map fun n => .stage b d (n + 1)) s = some t

/-- 42_multiplier.md R170, R172: CMUL replaces each entry of BUF_A's active region by its product with BUF_B's; every
byte outside BUF_A's active region (so all of BUF_B) and every register but the completion's is as it was. -/
def Obligations.CmulMultipliesEntries : Prop :=
  ∀ s : State, s.l ≤ s.build.log2KMax →
    ∃ t, exec .cmul s = .next t ∧ t = { s with mem := t.mem, done := true, eng := .idle } ∧
      (∀ i < s.k, t.entry .A i = cmul (s.entry .A i) (s.entry .B i)) ∧
      ∀ a, a < Ram.bufA.addr 0 ∨ Ram.bufA.addr 0 + 16 * s.k ≤ a → t.mem.read a = s.mem.read a

/-- 43_orchestrator.md R186: SCALE divides both words of every entry of the active region by K; every byte outside it
and every register but the completion's is as it was. -/
def Obligations.ScaleDividesByK : Prop :=
  ∀ (s : State) (b : Buf), s.l ≤ s.build.log2KMax →
    ∃ t, exec (.scale b) s = .next t ∧ t = { s with mem := t.mem, done := true, eng := .idle } ∧
      (∀ i < s.k, t.entry b i =
        ⟨(s.entry b i).re.div (RamWord.ofF64 (f64 s.k)), (s.entry b i).im.div (RamWord.ofF64 (f64 s.k))⟩) ∧
      ∀ a, a < (ramOf b).addr 0 ∨ (ramOf b).addr 0 + 16 * s.k ≤ a → t.mem.read a = s.mem.read a

/-- 43_orchestrator.md R187: EXTRACT copies the real word of entry n mod K to Y[n] for n < P, bits preserved, a word with
a poison half as poison (70_reset_and_hazards.md R268; log entry 16); every byte outside Y[0 … P-1] and every register but the completion's is as it was. -/
def Obligations.ExtractCopiesRealParts : Prop :=
  ∀ s : State, s.l ≤ s.build.log2KMax → s.p ≤ 2 * s.build.kMax - 1 →
    ∃ t, exec .extract s = .next t ∧ t = { s with mem := t.mem, done := true, eng := .idle } ∧
      (∀ n < s.p, t.ramWord .y n = (s.entry .A (n % s.k)).re.loaded) ∧
      ∀ a, a < Ram.y.addr 0 ∨ Ram.y.addr 0 + 8 * s.p ≤ a → t.mem.read a = s.mem.read a

/-- 43_orchestrator.md R188: CONV with lengths in range and a K that fits completes; LOG2K, P_LEN and ALIASED are
SIZE's; every byte outside the active regions of BUF_A and BUF_B (for the computed K) and outside Y[0 … P-1], and
every other register but the completion's, is as it was. -/
def Obligations.ConvCompletes : Prop :=
  ∀ s : State, 0 < s.m → 0 < s.n → s.m ≤ s.build.kMax → s.n ≤ s.build.kMax →
    (s.sizeMode = .reference → 2 * s.m ≤ s.build.kMax) →
    (s.sizeMode = .linear → s.m + s.n - 1 ≤ s.build.kMax) →
    ∃ t u, exec .conv s = .next t ∧ exec .size s = .next u ∧ t = { u with mem := t.mem } ∧
      ∀ a, (a < Ram.bufA.addr 0 ∨ Ram.bufA.addr 0 + 16 * t.k ≤ a) →
        (a < Ram.bufB.addr 0 ∨ Ram.bufB.addr 0 + 16 * t.k ≤ a) →
        (a < Ram.y.addr 0 ∨ Ram.y.addr 0 + 8 * t.p ≤ a) → t.mem.read a = s.mem.read a

/-- 43_orchestrator.md R188, R189: the nine commands of DFTCONV, each issued after the previous one completed, end in
the same state as one CONV. -/
def Obligations.ConvIsNineCommands : Prop :=
  ∀ s : State, 0 < s.m → 0 < s.n → s.m ≤ s.build.kMax → s.n ≤ s.build.kMax →
    (s.sizeMode = .reference → 2 * s.m ≤ s.build.kMax) →
    (s.sizeMode = .linear → s.m + s.n - 1 ≤ s.build.kMax) →
    ∃ t, runCommand .conv s = some t ∧
      runCommands [.size, .padx, .padh, .fft .A .fwd, .fft .B .fwd, .cmul, .fft .A .inv, .scale .A, .extract] s =
        some t

/-- 70_reset_and_hazards.md R269: CONV reads only X[0 … M-1] and H[0 … N-1] from outside its own writes: two states
that differ in memory only and agree on those words end with the same active regions and the same Y[0 … P-1]. -/
def Obligations.ConvDependsOnItsInputsOnly : Prop :=
  ∀ (s : State) (mem' : Memory), 0 < s.m → 0 < s.n → s.m ≤ s.build.kMax → s.n ≤ s.build.kMax →
    (s.sizeMode = .reference → 2 * s.m ≤ s.build.kMax) →
    (s.sizeMode = .linear → s.m + s.n - 1 ≤ s.build.kMax) →
    (∀ i < s.m, mem'.word (Ram.x.addr i) = s.mem.word (Ram.x.addr i)) →
    (∀ i < s.n, mem'.word (Ram.h.addr i) = s.mem.word (Ram.h.addr i)) →
    ∃ t t', exec .conv s = .next t ∧ exec .conv { s with mem := mem' } = .next t' ∧
      (∀ i < t.k, t'.entry .A i = t.entry .A i ∧ t'.entry .B i = t.entry .B i) ∧
      ∀ n < t.p, t'.ramWord .y n = t.ramWord .y n

/-- 10_state.md R45, 70_reset_and_hazards.md R269: a CONV whose input words all hold values leaves no poison in the
words it writes, whatever the rest of the memory holds. -/
def Obligations.ConvOfWrittenInputsIsDefined : Prop :=
  ∀ s : State, 0 < s.m → 0 < s.n → s.m ≤ s.build.kMax → s.n ≤ s.build.kMax →
    (s.sizeMode = .reference → 2 * s.m ≤ s.build.kMax) →
    (s.sizeMode = .linear → s.m + s.n - 1 ≤ s.build.kMax) →
    (∀ i < s.m, (s.ramWord .x i).defined = true) → (∀ i < s.n, (s.ramWord .h i).defined = true) →
    ∃ t, exec .conv s = .next t ∧
      (∀ w < 2 * t.k, (t.ramWord .bufA w).defined = true ∧ (t.ramWord .bufB w).defined = true) ∧
      ∀ n < t.p, (t.ramWord .y n).defined = true

/-- 90_conflicts.md C4 (in LINEAR mode), 40_datapath.md R128: CONV of x and h and CONV of h and x, in LINEAR mode, end
with the same K, the same P and, bit for bit, the same Y[0 … P-1]. -/
def Obligations.LinearConvIsCommutative : Prop :=
  ∀ s s' : State, s.sizeMode = .linear → s'.sizeMode = .linear → s'.build = s.build →
    0 < s.m → 0 < s.n → s.m ≤ s.build.kMax → s.n ≤ s.build.kMax → s.m + s.n - 1 ≤ s.build.kMax →
    s'.m = s.n → s'.n = s.m →
    (∀ i < s.m, s'.ramWord .h i = s.ramWord .x i) → (∀ i < s.n, s'.ramWord .x i = s.ramWord .h i) →
    ∃ t t', exec .conv s = .next t ∧ exec .conv s' = .next t' ∧ t'.l = t.l ∧ t'.p = t.p ∧
      ∀ n < t.p, t'.ramWord .y n = t.ramWord .y n

/-! ### Errors -/

/-- 60_exceptions.md R220 to R225 (checks 2 to 5), 43_orchestrator.md R181, R188: SIZE and CONV report the first of
M = 0, N = 0, M > X_MAX and N > H_MAX, and change nothing else. -/
def Obligations.SizeAndConvReportBadLengths : Prop :=
  ∀ (s : State) (i : Instr), i = .size ∨ i = .conv →
    (s.m = 0 → exec i s = .next { s with
      errCode := .invalidInput, errSource := .mLen, errInfo := 0, err := true, eng := .idle }) ∧
    (0 < s.m → s.n = 0 → exec i s = .next { s with
      errCode := .invalidInput, errSource := .nLen, errInfo := 0, err := true, eng := .idle }) ∧
    (0 < s.n → s.build.kMax < s.m → exec i s = .next { s with
      errCode := .invalidSize, errSource := .mLen, errInfo := s.mLen, err := true, eng := .idle }) ∧
    (0 < s.m → s.m ≤ s.build.kMax → s.build.kMax < s.n → exec i s = .next { s with
      errCode := .invalidSize, errSource := .nLen, errInfo := s.nLen, err := true, eng := .idle })

/-- 60_exceptions.md R220 to R225, 43_orchestrator.md R184, R185: PADX reports the first of M = 0, M > X_MAX and
L > LOG2_KMAX, PADH the same of N, and neither changes anything else. -/
def Obligations.PadCommandsReportErrors : Prop :=
  ∀ s : State,
    (s.m = 0 → exec .padx s = .next { s with
      errCode := .invalidInput, errSource := .mLen, errInfo := 0, err := true, eng := .idle }) ∧
    (s.build.kMax < s.m → exec .padx s = .next { s with
      errCode := .invalidSize, errSource := .mLen, errInfo := s.mLen, err := true, eng := .idle }) ∧
    (0 < s.m → s.m ≤ s.build.kMax → s.build.log2KMax < s.l → exec .padx s = .next { s with
      errCode := .invalidSize, errSource := .log2k, errInfo := s.log2k.setWidth 32, err := true, eng := .idle }) ∧
    (s.n = 0 → exec .padh s = .next { s with
      errCode := .invalidInput, errSource := .nLen, errInfo := 0, err := true, eng := .idle }) ∧
    (s.build.kMax < s.n → exec .padh s = .next { s with
      errCode := .invalidSize, errSource := .nLen, errInfo := s.nLen, err := true, eng := .idle }) ∧
    (0 < s.n → s.n ≤ s.build.kMax → s.build.log2KMax < s.l → exec .padh s = .next { s with
      errCode := .invalidSize, errSource := .log2k, errInfo := s.log2k.setWidth 32, err := true, eng := .idle })

/-- 60_exceptions.md R220 to R225 (check 6), 41_transform.md R151 to R153, 42_multiplier.md R170, 43_orchestrator.md
R183, R186, R187: with L > LOG2_KMAX, CLEAR, BITREV, STAGE, FFT, CMUL, SCALE and EXTRACT report INVALID_SIZE, source
LOG2K, with L, whatever else is wrong, and change nothing else. -/
def Obligations.OversizedLog2kIsReported : Prop :=
  ∀ (s : State) (b : Buf) (d : Dir) (n : Nat) (i : Instr),
    i ∈ [.clear b, .bitrev b, .stage b d n, .fft b d, .cmul, .scale b, .extract] → s.build.log2KMax < s.l →
    exec i s = .next { s with
      errCode := .invalidSize, errSource := .log2k, errInfo := s.log2k.setWidth 32, err := true, eng := .idle }

/-- 41_transform.md R152, 43_orchestrator.md R187, 60_exceptions.md R224 (checks 7 and 8): with L ≤ LOG2_KMAX, a STAGE
number outside 1 … L is INVALID_SIZE, source STAGE, with the number, and an EXTRACT of P > Y_MAX = 2 K_MAX - 1 words
is INVALID_SIZE, source P_LEN, with P; nothing else changes. -/
def Obligations.StageNumberAndExtractLengthAreChecked : Prop :=
  ∀ s : State, s.l ≤ s.build.log2KMax →
    (∀ (b : Buf) (d : Dir) (n : Nat), n = 0 ∨ s.l < n → exec (.stage b d n) s = .next { s with
      errCode := .invalidSize, errSource := .stage, errInfo := BitVec.ofNat 32 n, err := true, eng := .idle }) ∧
    (2 * s.build.kMax - 1 < s.p → exec .extract s = .next { s with
      errCode := .invalidSize, errSource := .pLen, errInfo := s.pLen, err := true, eng := .idle })

/-- 43_orchestrator.md R190: a command that fails changes only STATUS, ERR_CODE and ERR_INFO (and so ends with the
engine idle): no RAM byte, LOG2K, P_LEN or ALIASED. -/
def Obligations.FailedCommandLeavesNoPartialResult : Prop :=
  ∀ (i : Instr) (s t : State), s.err = false → exec i s = .next t → t.err = true →
    t = { s with
      errCode := t.errCode, errSource := t.errSource, errInfo := t.errInfo, err := true, eng := .idle }

/-- 60_exceptions.md R226: the two ways an error state ends: a STATUS write with bit 2 = 1 clears ERR (and its other
W1C bits do their own), keeps ERR_CODE and ERR_INFO and, if DONE is 0, lowers irq; an accepted CMD write clears ERR, ERR_CODE and ERR_INFO, and is accepted
while ERR is 1; neither restores any other state. -/
def Obligations.ErrorStateEnds : Prop :=
  ∀ s : State, s.err = true →
    (∀ v : Word32, v.getLsbD 2 = true → ∃ t, stepEvent (hostWrite s.build 0x00C v) s = .next t ∧
      t.arch = { s.arch with
        err := false, done := s.done && !v.getLsbD 1, busyWr := s.busyWr && !v.getLsbD 4 } ∧
      (t.done = false → t.irq = false)) ∧
    ∀ c, s.eng = .idle → ∃ t, stepEvent (hostWrite s.build 0x010 c) s = .next t ∧
      t.arch = { s.arch with
        done := false, err := false, errCode := .none, errSource := .none, errInfo := 0, eng := .running c }

/-! ### The host's accesses -/

/-- 20_memory.md R64, R65: an access that is not 32 bits wide, lacks a strobe or is misaligned gets the error response
and reads or writes no state, sets no STATUS bit and starts no command. -/
def Obligations.BadAccessHasNoEffect : Prop :=
  ∀ (s : State) (a : Access) (off : Nat), a.addr = s.build.base + off → off < 0x8000000 →
    a.width ≠ 32 ∨ a.allStrobes = false ∨ off % 4 ≠ 0 →
    ∃ t, stepEvent (.access a) s = .next t ∧ t.bus = .error ∧ t.arch = s.arch

/-- 20_memory.md R66: an aligned 32-bit access in the aperture that hits no implemented word (a register offset past
0x028, an offset beyond a RAM's word count, or the reserved range) reads 0, its write has no effect, and it gets a
normal response and sets no flag, busy or idle. -/
def Obligations.ReservedOffsetsReadZero : Prop :=
  ∀ (s : State) (off : Nat), off < 0x8000000 → off % 4 = 0 → 0x028 < off →
    (∀ (r : Ram) (w : Nat), w < r.words s.build → off ≠ r.addr w ∧ off ≠ r.addr w + 4) →
    (∃ t, stepEvent (hostRead s.build off) s = .next t ∧ t.bus = .data 0 ∧ t.arch = s.arch) ∧
    ∀ v, ∃ t, stepEvent (hostWrite s.build off v) s = .next t ∧ t.bus = .written ∧ t.arch = s.arch

/-- 20_memory.md R62: the two halves of a data word, at +0 (bits 31:0) and +4 (bits 63:32): while idle a write of one replaces those 32 bits,
leaves the other half and every other byte alone, and a read of one that holds a value returns it.
The words lie where the address map of 20_memory.md R61 puts them, with the counts of 00_scope.md R8, and an entry is
its pair of words (00_scope.md R13). -/
def Obligations.HalvesOfADataWord : Prop :=
  (∀ w : Nat, Ram.bufA.addr w = 0x1000000 + 8 * w ∧ Ram.bufB.addr w = 0x2000000 + 8 * w ∧
    Ram.x.addr w = 0x3000000 + 8 * w ∧ Ram.h.addr w = 0x4000000 + 8 * w ∧ Ram.y.addr w = 0x5000000 + 8 * w) ∧
  (∀ b : Build, Ram.bufA.words b = 2 * b.kMax ∧ Ram.bufB.words b = 2 * b.kMax ∧ Ram.x.words b = b.kMax ∧
    Ram.h.words b = b.kMax ∧ Ram.y.words b = 2 * b.kMax - 1 ∧ b.kMax = 2 ^ b.log2KMax ∧ 1 ≤ b.log2KMax ∧
    b.log2KMax ≤ 20 ∧ b.base % 0x8000000 = 0) ∧
  (∀ (s : State) (i : Nat), s.entry .A i = ⟨s.ramWord .bufA (2 * i), s.ramWord .bufA (2 * i + 1)⟩ ∧
    s.entry .B i = ⟨s.ramWord .bufB (2 * i), s.ramWord .bufB (2 * i + 1)⟩) ∧
  (∀ v : F64, RamWord.ofF64 v = ⟨some (v.extractLsb' 0 32), some (v.extractLsb' 32 32)⟩) ∧
  (∀ w : RamWord, ∀ v : F64, w.val = some v ↔ w.lo = some (v.extractLsb' 0 32) ∧ w.hi = some (v.extractLsb' 32 32)) ∧
  ∀ (s : State) (r : Ram) (w : Nat), s.eng = .idle → w < r.words s.build →
    (∀ v, ∃ t, stepEvent (hostWrite s.build (r.addr w) v) s = .next t ∧ t.arch = { s.arch with mem := t.mem } ∧
      t.ramWord r w = ⟨some v, (s.ramWord r w).hi⟩ ∧
      ∀ a, a < r.addr w ∨ r.addr w + 4 ≤ a → t.mem.read a = s.mem.read a) ∧
    (∀ v, ∃ t, stepEvent (hostWrite s.build (r.addr w + 4) v) s = .next t ∧ t.arch = { s.arch with mem := t.mem } ∧
      t.ramWord r w = ⟨(s.ramWord r w).lo, some v⟩ ∧
      ∀ a, a < r.addr w + 4 ∨ r.addr w + 8 ≤ a → t.mem.read a = s.mem.read a) ∧
    (∀ v, (s.ramWord r w).lo = some v →
      ∃ t, stepEvent (hostRead s.build (r.addr w)) s = .next t ∧ t.bus = .data v ∧ t.arch = s.arch) ∧
    ∀ v, (s.ramWord r w).hi = some v →
      ∃ t, stepEvent (hostRead s.build (r.addr w + 4)) s = .next t ∧ t.bus = .data v ∧ t.arch = s.arch

/-- 10_state.md R45, 93_implementation_defined.md U1, U3, log entry 6: while idle a read of a half that holds no value
returns the free value of a fresh draw, and changes no architectural state. -/
def Obligations.PoisonReadsAsAFreeValue : Prop :=
  ∀ (s : State) (r : Ram) (w : Nat), s.eng = .idle → w < r.words s.build →
    ((s.ramWord r w).lo = none → ∃ t, stepEvent (hostRead s.build (r.addr w)) s = .next t ∧
      t.bus = .data (Config.freeWord s.draws) ∧ t.draws = s.draws + 1 ∧ t.arch = s.arch) ∧
    ((s.ramWord r w).hi = none → ∃ t, stepEvent (hostRead s.build (r.addr w + 4)) s = .next t ∧
      t.bus = .data (Config.freeWord s.draws) ∧ t.draws = s.draws + 1 ∧ t.arch = s.arch)

/-- 10_state.md R24 to R27, R33 to R39, 20_memory.md R67: what each register reads as while idle, ERR_CODE with the
numbers of 60_exceptions.md R220 and R221; a read changes no architectural state. -/
def Obligations.IdleRegisterReads : Prop :=
  let codeNo : ErrCode → Nat := fun
    | .none => 0 | .invalidInput => 1 | .invalidSize => 2 | .illegalCommand => 3
  let sourceNo : ErrSource → Nat := fun
    | .none => 0 | .cmd => 1 | .mLen => 2 | .nLen => 3 | .log2k => 4 | .stage => 5 | .pLen => 6
  ∀ s : State, s.eng = .idle →
    ∀ p ∈ ([(0x000, 0x43544646), (0x004, BitVec.ofNat 32 (s.build.log2KMax + 256)),
      (0x008, BitVec.ofNat 32 ((if s.sizeMode = .linear then 1 else 0) + (if s.irqEn then 2 else 0))),
      (0x00C, BitVec.ofNat 32 ((if s.done then 2 else 0) + (if s.err then 4 else 0) + (if s.aliased then 8 else 0) +
        (if s.busyWr then 16 else 0))),
      (0x010, 0), (0x014, BitVec.ofNat 32 (256 * sourceNo s.errSource + codeNo s.errCode)), (0x018, s.errInfo),
      (0x01C, s.mLen), (0x020, s.nLen), (0x024, s.log2k.setWidth 32), (0x028, s.pLen)] : List (Nat × Word32)),
      ∃ t, stepEvent (hostRead s.build p.1) s = .next t ∧ t.bus = .data p.2 ∧ t.arch = s.arch

/-- 10_state.md R24 to R26, R34 to R39: what a write of each register but CMD and STATUS does while idle: CTRL takes
bits 1:0, LOG2K bits 4:0, the lengths all 32 bits; ID, CONFIG, ERR_CODE and ERR_INFO ignore it. -/
def Obligations.IdleRegisterWrites : Prop :=
  ∀ (s : State) (v : Word32), s.eng = .idle →
    ∀ p ∈ ([(0x000, s.arch), (0x004, s.arch), (0x014, s.arch), (0x018, s.arch),
      (0x008, { s.arch with sizeMode := if v.getLsbD 0 then .linear else .reference, irqEn := v.getLsbD 1 }),
      (0x01C, { s.arch with mLen := v }), (0x020, { s.arch with nLen := v }),
      (0x024, { s.arch with log2k := v.setWidth 5 }), (0x028, { s.arch with pLen := v })] : List (Nat × State)),
      ∃ t, stepEvent (hostWrite s.build p.1 v) s = .next t ∧ t.bus = .written ∧ t.arch = p.2

/-- 10_state.md R32: a STATUS write, idle or busy, applies its W1C bits 1, 2 and 4 together and ignores every other
bit; STATUS bits 31:5 read 0 (idle or busy). -/
def Obligations.StatusWritesClearBits : Prop :=
  ∀ s : State,
    (∀ v : Word32, ∃ t, stepEvent (hostWrite s.build 0x00C v) s = .next t ∧
      t.arch = { s.arch with
        done := s.done && !v.getLsbD 1, err := s.err && !v.getLsbD 2, busyWr := s.busyWr && !v.getLsbD 4 }) ∧
    ∃ t v, stepEvent (hostRead s.build 0x00C) s = .next t ∧ t.bus = .data v ∧ ∀ j, 5 ≤ j → v.getLsbD j = false

/-- 20_memory.md R71, 60_exceptions.md R228: while a command runs, a write to any aligned offset but STATUS is dropped;
it sets BUSY_WR if its target is an implemented register or RAM word, and nothing else changes. -/
def Obligations.WritesWhileBusyAreDropped : Prop :=
  ∀ (s : State) (c v : Word32) (off : Nat), s.eng = .running c → off < 0x8000000 → off % 4 = 0 → off ≠ 0x00C →
    ∃ t, stepEvent (hostWrite s.build off v) s = .next t ∧
      ((off ≤ 0x028 ∨ ∃ r w, w < Ram.words s.build r ∧ (off = r.addr w ∨ off = r.addr w + 4)) →
        t.arch = { s.arch with busyWr := true }) ∧
      (¬(off ≤ 0x028 ∨ ∃ r w, w < Ram.words s.build r ∧ (off = r.addr w ∨ off = r.addr w + 4)) → t.arch = s.arch)

/-- 20_memory.md R71, 93_implementation_defined.md U2, log entry 6: while a command runs, ID, CONFIG, CTRL, CMD, M_LEN
and N_LEN read as ever; STATUS reads BUSY = 1, BUSY_WR as it stands, ALIASED a free bit, and DONE = ERR = 0 where the
invariant's statusOk holds (elsewhere, in states no run reaches, the stored bits: log entry 11, the model's); ERR_CODE, ERR_INFO, LOG2K, P_LEN and every RAM half read a fresh free value;
no read changes architectural state. -/
def Obligations.ReadsWhileBusy : Prop :=
  ∀ (s : State) (c : Word32), s.eng = .running c →
    (∀ p ∈ ([(0x000, 0x43544646), (0x004, BitVec.ofNat 32 (s.build.log2KMax + 256)), (0x008, s.ctrlWord), (0x010, 0),
      (0x01C, s.mLen), (0x020, s.nLen)] : List (Nat × Word32)),
      ∃ t, stepEvent (hostRead s.build p.1) s = .next t ∧ t.bus = .data p.2 ∧ t.arch = s.arch) ∧
    (∃ t v, stepEvent (hostRead s.build 0x00C) s = .next t ∧ t.bus = .data v ∧ t.arch = s.arch ∧
      v.getLsbD 0 = true ∧ v.getLsbD 1 = s.done ∧ v.getLsbD 2 = s.err ∧ v.getLsbD 3 = Config.freeBit s.draws ∧
      v.getLsbD 4 = s.busyWr ∧ t.draws = s.draws + 1 ∧
      (s.statusOk = true → v.getLsbD 1 = false ∧ v.getLsbD 2 = false)) ∧
    ∀ off, (off ∈ [0x014, 0x018, 0x024, 0x028] ∨
        ∃ r w, w < Ram.words s.build r ∧ (off = r.addr w ∨ off = r.addr w + 4)) →
      ∃ t, stepEvent (hostRead s.build off) s = .next t ∧ t.bus = .data (Config.freeWord s.draws) ∧
        t.arch = s.arch ∧ t.draws = s.draws + 1

/-! ### Flags and registers over every step -/

/-- 10_state.md R25, R30, R36 to R39, R46: over every command, M_LEN, N_LEN, CTRL and BUSY_WR are kept, and LOG2K, P_LEN
and ALIASED are kept but by SIZE and CONV; and no step of any kind changes the parameters of the build, so CONFIG and
the twiddle ROM are constant. -/
def Obligations.CommandsKeepOtherRegisters : Prop :=
  (∀ (i : Instr) (s t : State), exec i s = .next t →
    t.mLen = s.mLen ∧ t.nLen = s.nLen ∧ t.sizeMode = s.sizeMode ∧ t.irqEn = s.irqEn ∧ t.busyWr = s.busyWr ∧
      (i ≠ .size → i ≠ .conv → t.log2k = s.log2k ∧ t.pLen = s.pLen ∧ t.aliased = s.aliased)) ∧
  ∀ s t : State, step s = .next t → t.build = s.build

/-- 10_state.md R42, R43: no command changes a byte of the X or H region, in any state. -/
def Obligations.CommandsNeverWriteXOrH : Prop :=
  ∀ (i : Instr) (s t : State), exec i s = .next t →
    ∀ a, 0x3000000 ≤ a → a < 0x5000000 → t.mem.read a = s.mem.read a

/-- 10_state.md R30: STATUS.ALIASED changes only in the engine's turn of a running SIZE or CONV that completes
successfully (or by reset); a SIZE or CONV that does leaves it 1 exactly if the computed P exceeds the computed K; host accesses never
change it. -/
def Obligations.AliasedIsWrittenBySizeAndConvOnly : Prop :=
  (∀ s t : State, step s = .next t → t.aliased ≠ s.aliased →
    (∃ es, s.inputs = .reset :: es) ∨
      ((s.inputs = [] ∨ ∃ es, s.inputs = .engine :: es) ∧
        (s.eng = .running 0x00000001 ∨ s.eng = .running 0x0000000B) ∧ t.done = true)) ∧
  ∀ (i : Instr) (s t : State), i = .size ∨ i = .conv → s.done = false → exec i s = .next t → t.done = true →
    (t.aliased = true ↔ t.k < t.p)

/-- 10_state.md R31 (with 20_memory.md R71 for the targets): BUSY_WR is set when a host write to an implemented register
but STATUS, or to a RAM word, is dropped because the engine is busy; it rises only by a host write while busy, falls
only by a STATUS write with bit 4 = 1 (which clears it) or by reset, and does not drive irq. -/
def Obligations.BusyWrIsSticky : Prop :=
  (∀ (s : State) (c v : Word32) (off : Nat), s.eng = .running c → off % 4 = 0 → off ≠ 0x00C →
    (off ≤ 0x028 ∨ ∃ r w, w < Ram.words s.build r ∧ (off = r.addr w ∨ off = r.addr w + 4)) →
    ∃ t, stepEvent (hostWrite s.build off v) s = .next t ∧ t.busyWr = true) ∧
  (∀ (s : State) (v : Word32), v.getLsbD 4 = true →
    ∃ t, stepEvent (hostWrite s.build 0x00C v) s = .next t ∧ t.busyWr = false) ∧
  (∀ s t : State, step s = .next t → s.busyWr = false → t.busyWr = true →
    ∃ c a v es, s.eng = .running c ∧ s.inputs = .access a :: es ∧ a.kind = .write v) ∧
  (∀ s t : State, step s = .next t → s.busyWr = true → t.busyWr = false →
    (∃ es, s.inputs = .reset :: es) ∨
      ∃ a v es, s.inputs = .access a :: es ∧ a.addr = s.build.base + 0x00C ∧ a.kind = .write v ∧
        v.getLsbD 4 = true) ∧
  ∀ (s : State) (x : Bool), ({ s with busyWr := x } : State).irq = s.irq

/-- 10_state.md R48, 60_exceptions.md R231, R232: irq is IRQ_EN AND (DONE OR ERR) in every state; from a state in which a
command has been issued (DONE and ERR are 0, so irq is low), its completion makes irq the value of IRQ_EN; a STATUS
write of bits 1 and 2 lowers it, and so does the next accepted CMD write; a CTRL write while idle raises it (IRQ_EN set
while DONE or ERR is 1) or masks it, and keeps the pending bits. -/
def Obligations.CompletionRaisesIrq : Prop :=
  (∀ s : State, s.irq = (s.irqEn && (s.done || s.err))) ∧
  (∀ (s t : State) (c : Word32), s.eng = .running c → s.done = false → s.err = false →
    stepEvent .engine s = .next t → s.irq = false ∧ t.irq = s.irqEn) ∧
  (∀ s : State, ∃ t, stepEvent (hostWrite s.build 0x00C 0x00000006) s = .next t ∧ t.irq = false) ∧
  (∀ (s : State) (c : Word32), s.eng = .idle →
    ∃ t, stepEvent (hostWrite s.build 0x010 c) s = .next t ∧ t.irq = false) ∧
  ∀ (s : State) (v : Word32), s.eng = .idle → ∃ t, stepEvent (hostWrite s.build 0x008 v) s = .next t ∧
    t.irq = (v.getLsbD 1 && (s.done || s.err)) ∧ t.done = s.done ∧ t.err = s.err

/-! ### Reset -/

/-- 70_reset_and_hazards.md R261, 10_state.md R49: the state after reset: CTRL, STATUS, ERR_CODE, ERR_INFO, M_LEN,
N_LEN, LOG2K and P_LEN read 0, ID and CONFIG their constants, ENG is idle, irq low, and every RAM byte is poison. -/
def Obligations.ResetValues : Prop :=
  (∀ r ∈ [Reg.ctrl, .status, .cmd, .errCode, .errInfo, .mLen, .nLen, .log2k, .pLen], State.reset.readReg r = 0) ∧
    State.reset.readReg .id = 0x43544646 ∧
    State.reset.readReg .config = BitVec.ofNat 32 (State.reset.build.log2KMax + 256) ∧
    State.reset.eng = .idle ∧ State.reset.irq = false ∧ ∀ a, State.reset.mem.read a = none

/-- 70_reset_and_hazards.md R260, R262: a reset takes every architectural register to its reset value and
every RAM byte to poison from any state; a running command is abandoned, with neither DONE nor ERR. -/
def Obligations.ResetAbandonsTheCommand : Prop :=
  ∀ s : State, ∃ t, stepEvent .reset s = .next t ∧ t.arch = { State.reset with build := s.build } ∧
    t.eng = .idle ∧ t.done = false ∧ t.err = false ∧ ∀ a, t.mem.read a = none

/-! ### Arithmetic -/

/-- 40_datapath.md R121: fadd, fsub, fmul and fdiv of finite words are the exact results, correctly rounded once. The
definition of that rounding, with the bound from which a result is an infinity, is IEEE 754's as the model takes it from
general knowledge (log entry 14, PRESUMED).
The value of a word is that of its sign, exponent and fraction (40_datapath.md R120). -/
def Obligations.RealOperationsAreCorrectlyRounded : Prop :=
  (∀ w : F64, (fisFinite w = true ↔ w.extractLsb' 52 11 ≠ 2047) ∧
    fval w = (if w.getLsbD 63 then -1 else 1) *
      (if w.extractLsb' 52 11 = 0 then ((w.extractLsb' 0 52).toNat : ℚ) / 2 ^ 1074
      else (2 ^ 52 + ((w.extractLsb' 0 52).toNat : ℚ)) * 2 ^ (w.extractLsb' 52 11).toNat / 2 ^ 1075)) ∧
  ∀ a b : F64, fisFinite a = true → fisFinite b = true →
    CorrectlyRounded (fval a + fval b) (fadd a b) ∧ CorrectlyRounded (fval a - fval b) (fsub a b) ∧
      CorrectlyRounded (fval a * fval b) (fmul a b) ∧
      (fval b ≠ 0 → CorrectlyRounded (fval a / fval b) (fdiv a b))

/-- 40_datapath.md R122: every NaN an operation returns is the canonical one; a NaN operand gives it; so do
∞ - ∞, ∞ + (-∞), 0 · ∞ and ∞ · 0; and nothing else gives it to fadd, fsub and fmul. An infinite operand gives the other
results of IEEE 754 (40_datapath.md R121, 43_orchestrator.md R186; log entry 14): a sum or difference of an infinity and
a finite word, or of agreeing infinities, is that infinity; a product with an infinity, and a quotient of an infinity by
a finite word that is not zero, is the infinity of the operands' signs. NaNs and infinities are the words of R120. -/
def Obligations.NaNResultsAreCanonical : Prop :=
  (∀ w : F64, (fisNaN w = true ↔ w.extractLsb' 52 11 = 2047 ∧ w.extractLsb' 0 52 ≠ 0) ∧
    (fisInf w = true ↔ w = 0x7FF0000000000000 ∨ w = 0xFFF0000000000000) ∧ fsign w = w.getLsbD 63) ∧
  (∀ a b : F64,
    (∀ f ∈ [fadd, fsub, fmul, fdiv], (fisNaN (f a b) = true → f a b = 0x7FF8000000000000) ∧
      (fisNaN a = true ∨ fisNaN b = true → f a b = 0x7FF8000000000000)) ∧
    (fisNaN a = false → fisNaN b = false →
      (fisNaN (fadd a b) = true ↔ fisInf a = true ∧ fisInf b = true ∧ fsign a ≠ fsign b) ∧
      (fisNaN (fsub a b) = true ↔ fisInf a = true ∧ fisInf b = true ∧ fsign a = fsign b) ∧
      (fisNaN (fmul a b) = true ↔
        (fisInf a = true ∧ fisFinite b = true ∧ fval b = 0) ∨ (fisFinite a = true ∧ fval a = 0 ∧ fisInf b = true)))) ∧
  ∀ a b : F64, fisInf a = true →
    (fisFinite b = true → fadd a b = a ∧ fadd b a = a ∧ fsub a b = a ∧ fsub b a = fneg a) ∧
    (fisInf b = true → (fsign a = fsign b → fadd a b = a) ∧ (fsign a ≠ fsign b → fsub a b = a)) ∧
    (fisInf b = true ∨ (fisFinite b = true ∧ fval b ≠ 0) →
      fmul a b = (if fsign a = fsign b then 0x7FF0000000000000 else 0xFFF0000000000000) ∧
      fmul b a = (if fsign a = fsign b then 0x7FF0000000000000 else 0xFFF0000000000000)) ∧
    (fisFinite b = true → fval b ≠ 0 →
      fdiv a b = (if fsign a = fsign b then 0x7FF0000000000000 else 0xFFF0000000000000))

/-- 40_datapath.md R123: fadd(x, fneg x) and fsub(x, x) are +0.0 for finite x; the sums and differences of zeros have
IEEE 754's signs; the sign of a product or quotient that is no NaN is the exclusive OR of the operands' signs. -/
def Obligations.SignsOfZeros : Prop :=
  (∀ x : F64, fisFinite x = true → fadd x (fneg x) = 0 ∧ fsub x x = 0) ∧
  fadd 0 0 = 0 ∧ fadd 0x8000000000000000 0x8000000000000000 = 0x8000000000000000 ∧
  fadd 0 0x8000000000000000 = 0 ∧ fadd 0x8000000000000000 0 = 0 ∧
  fsub 0 0 = 0 ∧ fsub 0x8000000000000000 0x8000000000000000 = 0 ∧
  fsub 0 0x8000000000000000 = 0 ∧ fsub 0x8000000000000000 0 = 0x8000000000000000 ∧
  ∀ a b : F64, (fisNaN (fmul a b) = false → fsign (fmul a b) = (fsign a ^^ fsign b)) ∧
    (fisNaN (fdiv a b) = false → fsign (fdiv a b) = (fsign a ^^ fsign b))

/-- 40_datapath.md R125: fneg inverts bit 63 and leaves bits 62:0 (NaNs included); f64 of a power of two 2^L with
L ≤ 20 is exactly that number. -/
def Obligations.NegationAndPowersAreExact : Prop :=
  (∀ a : F64, (fneg a).getLsbD 63 = !a.getLsbD 63 ∧ ∀ j < 63, (fneg a).getLsbD j = a.getLsbD j) ∧
  ∀ l ≤ 20, fisFinite (f64 (2 ^ l)) = true ∧ fval (f64 (2 ^ l)) = 2 ^ l

/-- 40_datapath.md R127, R128: complex addition and subtraction by components; complex multiplication as four products,
one subtraction and one addition, commutative bit for bit (on poison too); and cmul((∞, 0), (1, 0)) = (∞, NaN). The
operations of data words that hold values are the real ones, division (which ScaleDividesByK names) among them. -/
def Obligations.ComplexArithmetic : Prop :=
  (∀ a b : F64,
    (RamWord.ofF64 a).add (RamWord.ofF64 b) = RamWord.ofF64 (fadd a b) ∧
    (RamWord.ofF64 a).sub (RamWord.ofF64 b) = RamWord.ofF64 (fsub a b) ∧
    (RamWord.ofF64 a).mul (RamWord.ofF64 b) = RamWord.ofF64 (fmul a b) ∧
    (RamWord.ofF64 a).div (RamWord.ofF64 b) = RamWord.ofF64 (fdiv a b)) ∧
  (∀ a b c d : F64,
    cadd (Entry.ofF64 a b) (Entry.ofF64 c d) = Entry.ofF64 (fadd a c) (fadd b d) ∧
    csub (Entry.ofF64 a b) (Entry.ofF64 c d) = Entry.ofF64 (fsub a c) (fsub b d) ∧
    cmul (Entry.ofF64 a b) (Entry.ofF64 c d) =
      Entry.ofF64 (fsub (fmul a c) (fmul b d)) (fadd (fmul a d) (fmul b c))) ∧
  (∀ u v : Entry, cmul u v = cmul v u) ∧
  cmul (Entry.ofF64 0x7FF0000000000000 0) (Entry.ofF64 0x3FF0000000000000 0) =
    Entry.ofF64 0x7FF0000000000000 0x7FF8000000000000

/-- 10_state.md R45, 70_reset_and_hazards.md R268, 93_implementation_defined.md U1: a command reads a word with a poison
half as poison as a whole; a word holds a value exactly if both of its halves do; and a result computed from poison is
poison: a component of a sum, difference, product or quotient holds a value exactly if every word it is computed from
does. -/
def Obligations.PoisonPropagates : Prop :=
  (∀ w : RamWord, (w.defined = (w.lo.isSome && w.hi.isSome)) ∧
    w.loaded = if w.lo.isSome ∧ w.hi.isSome then w else ⟨none, none⟩) ∧
  ∀ u v : Entry,
    ((cadd u v).re.defined = (u.re.defined && v.re.defined)) ∧
    ((cadd u v).im.defined = (u.im.defined && v.im.defined)) ∧
    ((csub u v).re.defined = (u.re.defined && v.re.defined)) ∧
    ((csub u v).im.defined = (u.im.defined && v.im.defined)) ∧
    ((cmul u v).re.defined = (u.re.defined && u.im.defined && v.re.defined && v.im.defined)) ∧
    ((cmul u v).im.defined = (u.re.defined && u.im.defined && v.re.defined && v.im.defined)) ∧
    ∀ k, ((scaleEntry k u).re.defined = u.re.defined) ∧ ((scaleEntry k u).im.defined = u.im.defined)

/-- 40_datapath.md R129: the twiddle ROM of every build holds, for k < K_MAX/2, the binary64 values nearest to the real
numbers cos(2πk/K_MAX) and sin(2πk/K_MAX); its exact entries, at k = 0 and k = K_MAX/4, are 1.0 and +0.0. -/
def Obligations.TwiddleRomIsCorrectlyRounded : Prop :=
  ∀ n : Nat, 1 ≤ n → n ≤ 20 →
    (∀ k < 2 ^ (n - 1), fisFinite (romC n k) = true ∧ fisFinite (romS n k) = true ∧
      ∀ c : F64, fisFinite c = true →
        |(fval (romC n k) : ℝ) - Real.cos (2 * Real.pi * k / 2 ^ n)| ≤
          |(fval c : ℝ) - Real.cos (2 * Real.pi * k / 2 ^ n)| ∧
        |(fval (romS n k) : ℝ) - Real.sin (2 * Real.pi * k / 2 ^ n)| ≤
          |(fval c : ℝ) - Real.sin (2 * Real.pi * k / 2 ^ n)|) ∧
    romC n 0 = 0x3FF0000000000000 ∧ romS n 0 = 0 ∧
    (2 ≤ n → romC n (2 ^ (n - 2)) = 0 ∧ romS n (2 ^ (n - 2)) = 0x3FF0000000000000)

/-- 40_datapath.md R130: the twiddle of butterfly j of stage n uses the ROM at j 2^(LOG2_KMAX - n), with the sine
negated for FORWARD, and is the same whatever LOG2_KMAX is. -/
def Obligations.TwiddleSelection : Prop :=
  ∀ (m n j : Nat), 1 ≤ n → n ≤ m → m ≤ 20 → j < 2 ^ (n - 1) →
    j * 2 ^ (m - n) < 2 ^ (m - 1) ∧
    twiddle m n j .fwd = Entry.ofF64 (romC m (j * 2 ^ (m - n))) (fneg (romS m (j * 2 ^ (m - n)))) ∧
    twiddle m n j .inv = Entry.ofF64 (romC m (j * 2 ^ (m - n))) (romS m (j * 2 ^ (m - n))) ∧
    ∀ d, twiddle m n j d = twiddle n n j d

/-! ### The invariant -/

/-- 20_memory.md R61, R62, 10_state.md R34, 60_exceptions.md R233: every step keeps the invariant: the memory in
canonical form, with implemented bytes only and whole halves; DONE and ERR never both; neither, and no error recorded,
while a command runs; ERR only with an error recorded and DONE only without; CODE and SOURCE zero together. -/
def Obligations.StepKeepsTheInvariant : Prop :=
  ∀ s t : State, s.Inv → step s = .next t → t.Inv

/-- 10_state.md R49: the invariant holds after reset. -/
def Obligations.ResetHasTheInvariant : Prop := State.reset.Inv
end

