-- ==== Sys2Proof/Laws/State.lean ====
section
/-! SUPPORT. One lemma per field of State per update: what each update leaves in each field. -/

namespace Sys2Proof.Machine

/-! ### State.issue -/

@[simp] theorem State.issue_build (s : State) (c : Word32) : (s.issue c).build = s.build := rfl
@[simp] theorem State.issue_sizeMode (s : State) (c : Word32) : (s.issue c).sizeMode = s.sizeMode := rfl
@[simp] theorem State.issue_irqEn (s : State) (c : Word32) : (s.issue c).irqEn = s.irqEn := rfl
@[simp] theorem State.issue_done (s : State) (c : Word32) : (s.issue c).done = false := rfl
@[simp] theorem State.issue_err (s : State) (c : Word32) : (s.issue c).err = false := rfl
@[simp] theorem State.issue_aliased (s : State) (c : Word32) : (s.issue c).aliased = s.aliased := rfl
@[simp] theorem State.issue_busyWr (s : State) (c : Word32) : (s.issue c).busyWr = s.busyWr := rfl
@[simp] theorem State.issue_errCode (s : State) (c : Word32) : (s.issue c).errCode = .none := rfl
@[simp] theorem State.issue_errSource (s : State) (c : Word32) : (s.issue c).errSource = .none := rfl
@[simp] theorem State.issue_errInfo (s : State) (c : Word32) : (s.issue c).errInfo = 0 := rfl
@[simp] theorem State.issue_mLen (s : State) (c : Word32) : (s.issue c).mLen = s.mLen := rfl
@[simp] theorem State.issue_nLen (s : State) (c : Word32) : (s.issue c).nLen = s.nLen := rfl
@[simp] theorem State.issue_log2k (s : State) (c : Word32) : (s.issue c).log2k = s.log2k := rfl
@[simp] theorem State.issue_pLen (s : State) (c : Word32) : (s.issue c).pLen = s.pLen := rfl
@[simp] theorem State.issue_mem (s : State) (c : Word32) : (s.issue c).mem = s.mem := rfl
@[simp] theorem State.issue_eng (s : State) (c : Word32) : (s.issue c).eng = .running c := rfl
@[simp] theorem State.issue_inputs (s : State) (c : Word32) : (s.issue c).inputs = s.inputs := rfl
@[simp] theorem State.issue_bus (s : State) (c : Word32) : (s.issue c).bus = s.bus := rfl
@[simp] theorem State.issue_draws (s : State) (c : Word32) : (s.issue c).draws = s.draws := rfl

/-! ### State.complete -/

@[simp] theorem State.complete_build (s : State) : (s.complete).build = s.build := rfl
@[simp] theorem State.complete_sizeMode (s : State) : (s.complete).sizeMode = s.sizeMode := rfl
@[simp] theorem State.complete_irqEn (s : State) : (s.complete).irqEn = s.irqEn := rfl
@[simp] theorem State.complete_done (s : State) : (s.complete).done = true := rfl
@[simp] theorem State.complete_err (s : State) : (s.complete).err = s.err := rfl
@[simp] theorem State.complete_aliased (s : State) : (s.complete).aliased = s.aliased := rfl
@[simp] theorem State.complete_busyWr (s : State) : (s.complete).busyWr = s.busyWr := rfl
@[simp] theorem State.complete_errCode (s : State) : (s.complete).errCode = s.errCode := rfl
@[simp] theorem State.complete_errSource (s : State) : (s.complete).errSource = s.errSource := rfl
@[simp] theorem State.complete_errInfo (s : State) : (s.complete).errInfo = s.errInfo := rfl
@[simp] theorem State.complete_mLen (s : State) : (s.complete).mLen = s.mLen := rfl
@[simp] theorem State.complete_nLen (s : State) : (s.complete).nLen = s.nLen := rfl
@[simp] theorem State.complete_log2k (s : State) : (s.complete).log2k = s.log2k := rfl
@[simp] theorem State.complete_pLen (s : State) : (s.complete).pLen = s.pLen := rfl
@[simp] theorem State.complete_mem (s : State) : (s.complete).mem = s.mem := rfl
@[simp] theorem State.complete_eng (s : State) : (s.complete).eng = .idle := rfl
@[simp] theorem State.complete_inputs (s : State) : (s.complete).inputs = s.inputs := rfl
@[simp] theorem State.complete_bus (s : State) : (s.complete).bus = s.bus := rfl
@[simp] theorem State.complete_draws (s : State) : (s.complete).draws = s.draws := rfl

/-! ### State.raise -/

@[simp] theorem State.raise_build (s : State) (e : Err) : (s.raise e).build = s.build := rfl
@[simp] theorem State.raise_sizeMode (s : State) (e : Err) : (s.raise e).sizeMode = s.sizeMode := rfl
@[simp] theorem State.raise_irqEn (s : State) (e : Err) : (s.raise e).irqEn = s.irqEn := rfl
@[simp] theorem State.raise_done (s : State) (e : Err) : (s.raise e).done = s.done := rfl
@[simp] theorem State.raise_err (s : State) (e : Err) : (s.raise e).err = true := rfl
@[simp] theorem State.raise_aliased (s : State) (e : Err) : (s.raise e).aliased = s.aliased := rfl
@[simp] theorem State.raise_busyWr (s : State) (e : Err) : (s.raise e).busyWr = s.busyWr := rfl
@[simp] theorem State.raise_errCode (s : State) (e : Err) : (s.raise e).errCode = e.code := rfl
@[simp] theorem State.raise_errSource (s : State) (e : Err) : (s.raise e).errSource = e.source := rfl
@[simp] theorem State.raise_errInfo (s : State) (e : Err) : (s.raise e).errInfo = e.info := rfl
@[simp] theorem State.raise_mLen (s : State) (e : Err) : (s.raise e).mLen = s.mLen := rfl
@[simp] theorem State.raise_nLen (s : State) (e : Err) : (s.raise e).nLen = s.nLen := rfl
@[simp] theorem State.raise_log2k (s : State) (e : Err) : (s.raise e).log2k = s.log2k := rfl
@[simp] theorem State.raise_pLen (s : State) (e : Err) : (s.raise e).pLen = s.pLen := rfl
@[simp] theorem State.raise_mem (s : State) (e : Err) : (s.raise e).mem = s.mem := rfl
@[simp] theorem State.raise_eng (s : State) (e : Err) : (s.raise e).eng = .idle := rfl
@[simp] theorem State.raise_inputs (s : State) (e : Err) : (s.raise e).inputs = s.inputs := rfl
@[simp] theorem State.raise_bus (s : State) (e : Err) : (s.raise e).bus = s.bus := rfl
@[simp] theorem State.raise_draws (s : State) (e : Err) : (s.raise e).draws = s.draws := rfl

/-! ### State.putWords -/

@[simp] theorem State.putWords_build (s : State) (r : Ram) (ws : List RamWord) : (s.putWords r ws).build = s.build := rfl
@[simp] theorem State.putWords_sizeMode (s : State) (r : Ram) (ws : List RamWord) : (s.putWords r ws).sizeMode = s.sizeMode := rfl
@[simp] theorem State.putWords_irqEn (s : State) (r : Ram) (ws : List RamWord) : (s.putWords r ws).irqEn = s.irqEn := rfl
@[simp] theorem State.putWords_done (s : State) (r : Ram) (ws : List RamWord) : (s.putWords r ws).done = s.done := rfl
@[simp] theorem State.putWords_err (s : State) (r : Ram) (ws : List RamWord) : (s.putWords r ws).err = s.err := rfl
@[simp] theorem State.putWords_aliased (s : State) (r : Ram) (ws : List RamWord) : (s.putWords r ws).aliased = s.aliased := rfl
@[simp] theorem State.putWords_busyWr (s : State) (r : Ram) (ws : List RamWord) : (s.putWords r ws).busyWr = s.busyWr := rfl
@[simp] theorem State.putWords_errCode (s : State) (r : Ram) (ws : List RamWord) : (s.putWords r ws).errCode = s.errCode := rfl
@[simp] theorem State.putWords_errSource (s : State) (r : Ram) (ws : List RamWord) : (s.putWords r ws).errSource = s.errSource := rfl
@[simp] theorem State.putWords_errInfo (s : State) (r : Ram) (ws : List RamWord) : (s.putWords r ws).errInfo = s.errInfo := rfl
@[simp] theorem State.putWords_mLen (s : State) (r : Ram) (ws : List RamWord) : (s.putWords r ws).mLen = s.mLen := rfl
@[simp] theorem State.putWords_nLen (s : State) (r : Ram) (ws : List RamWord) : (s.putWords r ws).nLen = s.nLen := rfl
@[simp] theorem State.putWords_log2k (s : State) (r : Ram) (ws : List RamWord) : (s.putWords r ws).log2k = s.log2k := rfl
@[simp] theorem State.putWords_pLen (s : State) (r : Ram) (ws : List RamWord) : (s.putWords r ws).pLen = s.pLen := rfl
@[simp] theorem State.putWords_mem (s : State) (r : Ram) (ws : List RamWord) : (s.putWords r ws).mem = s.mem.putWords (r.addr 0) ws := rfl
@[simp] theorem State.putWords_eng (s : State) (r : Ram) (ws : List RamWord) : (s.putWords r ws).eng = s.eng := rfl
@[simp] theorem State.putWords_inputs (s : State) (r : Ram) (ws : List RamWord) : (s.putWords r ws).inputs = s.inputs := rfl
@[simp] theorem State.putWords_bus (s : State) (r : Ram) (ws : List RamWord) : (s.putWords r ws).bus = s.bus := rfl
@[simp] theorem State.putWords_draws (s : State) (r : Ram) (ws : List RamWord) : (s.putWords r ws).draws = s.draws := rfl

/-! ### State.writeStatus -/

@[simp] theorem State.writeStatus_build (s : State) (v : Word32) : (s.writeStatus v).build = s.build := rfl
@[simp] theorem State.writeStatus_sizeMode (s : State) (v : Word32) : (s.writeStatus v).sizeMode = s.sizeMode := rfl
@[simp] theorem State.writeStatus_irqEn (s : State) (v : Word32) : (s.writeStatus v).irqEn = s.irqEn := rfl
@[simp] theorem State.writeStatus_done (s : State) (v : Word32) : (s.writeStatus v).done = (s.done && !v.getLsbD 1) := rfl
@[simp] theorem State.writeStatus_err (s : State) (v : Word32) : (s.writeStatus v).err = (s.err && !v.getLsbD 2) := rfl
@[simp] theorem State.writeStatus_aliased (s : State) (v : Word32) : (s.writeStatus v).aliased = s.aliased := rfl
@[simp] theorem State.writeStatus_busyWr (s : State) (v : Word32) : (s.writeStatus v).busyWr = (s.busyWr && !v.getLsbD 4) := rfl
@[simp] theorem State.writeStatus_errCode (s : State) (v : Word32) : (s.writeStatus v).errCode = s.errCode := rfl
@[simp] theorem State.writeStatus_errSource (s : State) (v : Word32) : (s.writeStatus v).errSource = s.errSource := rfl
@[simp] theorem State.writeStatus_errInfo (s : State) (v : Word32) : (s.writeStatus v).errInfo = s.errInfo := rfl
@[simp] theorem State.writeStatus_mLen (s : State) (v : Word32) : (s.writeStatus v).mLen = s.mLen := rfl
@[simp] theorem State.writeStatus_nLen (s : State) (v : Word32) : (s.writeStatus v).nLen = s.nLen := rfl
@[simp] theorem State.writeStatus_log2k (s : State) (v : Word32) : (s.writeStatus v).log2k = s.log2k := rfl
@[simp] theorem State.writeStatus_pLen (s : State) (v : Word32) : (s.writeStatus v).pLen = s.pLen := rfl
@[simp] theorem State.writeStatus_mem (s : State) (v : Word32) : (s.writeStatus v).mem = s.mem := rfl
@[simp] theorem State.writeStatus_eng (s : State) (v : Word32) : (s.writeStatus v).eng = s.eng := rfl
@[simp] theorem State.writeStatus_inputs (s : State) (v : Word32) : (s.writeStatus v).inputs = s.inputs := rfl
@[simp] theorem State.writeStatus_bus (s : State) (v : Word32) : (s.writeStatus v).bus = s.bus := rfl
@[simp] theorem State.writeStatus_draws (s : State) (v : Word32) : (s.writeStatus v).draws = s.draws := rfl

/-! ### State.writeCtrl -/

@[simp] theorem State.writeCtrl_build (s : State) (v : Word32) : (s.writeCtrl v).build = s.build := rfl
@[simp] theorem State.writeCtrl_sizeMode (s : State) (v : Word32) : (s.writeCtrl v).sizeMode = SizeMode.ofBool (v.getLsbD 0) := rfl
@[simp] theorem State.writeCtrl_irqEn (s : State) (v : Word32) : (s.writeCtrl v).irqEn = v.getLsbD 1 := rfl
@[simp] theorem State.writeCtrl_done (s : State) (v : Word32) : (s.writeCtrl v).done = s.done := rfl
@[simp] theorem State.writeCtrl_err (s : State) (v : Word32) : (s.writeCtrl v).err = s.err := rfl
@[simp] theorem State.writeCtrl_aliased (s : State) (v : Word32) : (s.writeCtrl v).aliased = s.aliased := rfl
@[simp] theorem State.writeCtrl_busyWr (s : State) (v : Word32) : (s.writeCtrl v).busyWr = s.busyWr := rfl
@[simp] theorem State.writeCtrl_errCode (s : State) (v : Word32) : (s.writeCtrl v).errCode = s.errCode := rfl
@[simp] theorem State.writeCtrl_errSource (s : State) (v : Word32) : (s.writeCtrl v).errSource = s.errSource := rfl
@[simp] theorem State.writeCtrl_errInfo (s : State) (v : Word32) : (s.writeCtrl v).errInfo = s.errInfo := rfl
@[simp] theorem State.writeCtrl_mLen (s : State) (v : Word32) : (s.writeCtrl v).mLen = s.mLen := rfl
@[simp] theorem State.writeCtrl_nLen (s : State) (v : Word32) : (s.writeCtrl v).nLen = s.nLen := rfl
@[simp] theorem State.writeCtrl_log2k (s : State) (v : Word32) : (s.writeCtrl v).log2k = s.log2k := rfl
@[simp] theorem State.writeCtrl_pLen (s : State) (v : Word32) : (s.writeCtrl v).pLen = s.pLen := rfl
@[simp] theorem State.writeCtrl_mem (s : State) (v : Word32) : (s.writeCtrl v).mem = s.mem := rfl
@[simp] theorem State.writeCtrl_eng (s : State) (v : Word32) : (s.writeCtrl v).eng = s.eng := rfl
@[simp] theorem State.writeCtrl_inputs (s : State) (v : Word32) : (s.writeCtrl v).inputs = s.inputs := rfl
@[simp] theorem State.writeCtrl_bus (s : State) (v : Word32) : (s.writeCtrl v).bus = s.bus := rfl
@[simp] theorem State.writeCtrl_draws (s : State) (v : Word32) : (s.writeCtrl v).draws = s.draws := rfl

/-! ### State.respond -/

@[simp] theorem State.respond_build (s : State) (v : Word32) : (s.respond v).build = s.build := rfl
@[simp] theorem State.respond_sizeMode (s : State) (v : Word32) : (s.respond v).sizeMode = s.sizeMode := rfl
@[simp] theorem State.respond_irqEn (s : State) (v : Word32) : (s.respond v).irqEn = s.irqEn := rfl
@[simp] theorem State.respond_done (s : State) (v : Word32) : (s.respond v).done = s.done := rfl
@[simp] theorem State.respond_err (s : State) (v : Word32) : (s.respond v).err = s.err := rfl
@[simp] theorem State.respond_aliased (s : State) (v : Word32) : (s.respond v).aliased = s.aliased := rfl
@[simp] theorem State.respond_busyWr (s : State) (v : Word32) : (s.respond v).busyWr = s.busyWr := rfl
@[simp] theorem State.respond_errCode (s : State) (v : Word32) : (s.respond v).errCode = s.errCode := rfl
@[simp] theorem State.respond_errSource (s : State) (v : Word32) : (s.respond v).errSource = s.errSource := rfl
@[simp] theorem State.respond_errInfo (s : State) (v : Word32) : (s.respond v).errInfo = s.errInfo := rfl
@[simp] theorem State.respond_mLen (s : State) (v : Word32) : (s.respond v).mLen = s.mLen := rfl
@[simp] theorem State.respond_nLen (s : State) (v : Word32) : (s.respond v).nLen = s.nLen := rfl
@[simp] theorem State.respond_log2k (s : State) (v : Word32) : (s.respond v).log2k = s.log2k := rfl
@[simp] theorem State.respond_pLen (s : State) (v : Word32) : (s.respond v).pLen = s.pLen := rfl
@[simp] theorem State.respond_mem (s : State) (v : Word32) : (s.respond v).mem = s.mem := rfl
@[simp] theorem State.respond_eng (s : State) (v : Word32) : (s.respond v).eng = s.eng := rfl
@[simp] theorem State.respond_inputs (s : State) (v : Word32) : (s.respond v).inputs = s.inputs := rfl
@[simp] theorem State.respond_bus (s : State) (v : Word32) : (s.respond v).bus = .data v := rfl
@[simp] theorem State.respond_draws (s : State) (v : Word32) : (s.respond v).draws = s.draws := rfl

/-! ### State.respondFree -/

@[simp] theorem State.respondFree_build (s : State) : (s.respondFree).build = s.build := rfl
@[simp] theorem State.respondFree_sizeMode (s : State) : (s.respondFree).sizeMode = s.sizeMode := rfl
@[simp] theorem State.respondFree_irqEn (s : State) : (s.respondFree).irqEn = s.irqEn := rfl
@[simp] theorem State.respondFree_done (s : State) : (s.respondFree).done = s.done := rfl
@[simp] theorem State.respondFree_err (s : State) : (s.respondFree).err = s.err := rfl
@[simp] theorem State.respondFree_aliased (s : State) : (s.respondFree).aliased = s.aliased := rfl
@[simp] theorem State.respondFree_busyWr (s : State) : (s.respondFree).busyWr = s.busyWr := rfl
@[simp] theorem State.respondFree_errCode (s : State) : (s.respondFree).errCode = s.errCode := rfl
@[simp] theorem State.respondFree_errSource (s : State) : (s.respondFree).errSource = s.errSource := rfl
@[simp] theorem State.respondFree_errInfo (s : State) : (s.respondFree).errInfo = s.errInfo := rfl
@[simp] theorem State.respondFree_mLen (s : State) : (s.respondFree).mLen = s.mLen := rfl
@[simp] theorem State.respondFree_nLen (s : State) : (s.respondFree).nLen = s.nLen := rfl
@[simp] theorem State.respondFree_log2k (s : State) : (s.respondFree).log2k = s.log2k := rfl
@[simp] theorem State.respondFree_pLen (s : State) : (s.respondFree).pLen = s.pLen := rfl
@[simp] theorem State.respondFree_mem (s : State) : (s.respondFree).mem = s.mem := rfl
@[simp] theorem State.respondFree_eng (s : State) : (s.respondFree).eng = s.eng := rfl
@[simp] theorem State.respondFree_inputs (s : State) : (s.respondFree).inputs = s.inputs := rfl
@[simp] theorem State.respondFree_bus (s : State) : (s.respondFree).bus = .data (Config.freeWord s.draws) := rfl
@[simp] theorem State.respondFree_draws (s : State) : (s.respondFree).draws = s.draws + 1 := rfl

/-! ### State.respondBusyStatus -/

@[simp] theorem State.respondBusyStatus_build (s : State) : (s.respondBusyStatus).build = s.build := rfl
@[simp] theorem State.respondBusyStatus_sizeMode (s : State) : (s.respondBusyStatus).sizeMode = s.sizeMode := rfl
@[simp] theorem State.respondBusyStatus_irqEn (s : State) : (s.respondBusyStatus).irqEn = s.irqEn := rfl
@[simp] theorem State.respondBusyStatus_done (s : State) : (s.respondBusyStatus).done = s.done := rfl
@[simp] theorem State.respondBusyStatus_err (s : State) : (s.respondBusyStatus).err = s.err := rfl
@[simp] theorem State.respondBusyStatus_aliased (s : State) : (s.respondBusyStatus).aliased = s.aliased := rfl
@[simp] theorem State.respondBusyStatus_busyWr (s : State) : (s.respondBusyStatus).busyWr = s.busyWr := rfl
@[simp] theorem State.respondBusyStatus_errCode (s : State) : (s.respondBusyStatus).errCode = s.errCode := rfl
@[simp] theorem State.respondBusyStatus_errSource (s : State) : (s.respondBusyStatus).errSource = s.errSource := rfl
@[simp] theorem State.respondBusyStatus_errInfo (s : State) : (s.respondBusyStatus).errInfo = s.errInfo := rfl
@[simp] theorem State.respondBusyStatus_mLen (s : State) : (s.respondBusyStatus).mLen = s.mLen := rfl
@[simp] theorem State.respondBusyStatus_nLen (s : State) : (s.respondBusyStatus).nLen = s.nLen := rfl
@[simp] theorem State.respondBusyStatus_log2k (s : State) : (s.respondBusyStatus).log2k = s.log2k := rfl
@[simp] theorem State.respondBusyStatus_pLen (s : State) : (s.respondBusyStatus).pLen = s.pLen := rfl
@[simp] theorem State.respondBusyStatus_mem (s : State) : (s.respondBusyStatus).mem = s.mem := rfl
@[simp] theorem State.respondBusyStatus_eng (s : State) : (s.respondBusyStatus).eng = s.eng := rfl
@[simp] theorem State.respondBusyStatus_inputs (s : State) : (s.respondBusyStatus).inputs = s.inputs := rfl
@[simp] theorem State.respondBusyStatus_bus (s : State) : (s.respondBusyStatus).bus = .data (statusWord s.busy s.done s.err (Config.freeBit s.draws) s.busyWr) := rfl
@[simp] theorem State.respondBusyStatus_draws (s : State) : (s.respondBusyStatus).draws = s.draws + 1 := rfl

/-! ### State.sizeBody -/

@[simp] theorem State.sizeBody_build (s : State) : (s.sizeBody).build = s.build := rfl
@[simp] theorem State.sizeBody_sizeMode (s : State) : (s.sizeBody).sizeMode = s.sizeMode := rfl
@[simp] theorem State.sizeBody_irqEn (s : State) : (s.sizeBody).irqEn = s.irqEn := rfl
@[simp] theorem State.sizeBody_done (s : State) : (s.sizeBody).done = s.done := rfl
@[simp] theorem State.sizeBody_err (s : State) : (s.sizeBody).err = s.err := rfl
@[simp] theorem State.sizeBody_aliased (s : State) : (s.sizeBody).aliased = aliasedFlag s.sizedP (2 ^ s.sizedL) := rfl
@[simp] theorem State.sizeBody_busyWr (s : State) : (s.sizeBody).busyWr = s.busyWr := rfl
@[simp] theorem State.sizeBody_errCode (s : State) : (s.sizeBody).errCode = s.errCode := rfl
@[simp] theorem State.sizeBody_errSource (s : State) : (s.sizeBody).errSource = s.errSource := rfl
@[simp] theorem State.sizeBody_errInfo (s : State) : (s.sizeBody).errInfo = s.errInfo := rfl
@[simp] theorem State.sizeBody_mLen (s : State) : (s.sizeBody).mLen = s.mLen := rfl
@[simp] theorem State.sizeBody_nLen (s : State) : (s.sizeBody).nLen = s.nLen := rfl
@[simp] theorem State.sizeBody_log2k (s : State) : (s.sizeBody).log2k = BitVec.ofNat 5 s.sizedL := rfl
@[simp] theorem State.sizeBody_pLen (s : State) : (s.sizeBody).pLen = BitVec.ofNat 32 s.sizedP := rfl
@[simp] theorem State.sizeBody_mem (s : State) : (s.sizeBody).mem = s.mem := rfl
@[simp] theorem State.sizeBody_eng (s : State) : (s.sizeBody).eng = s.eng := rfl
@[simp] theorem State.sizeBody_inputs (s : State) : (s.sizeBody).inputs = s.inputs := rfl
@[simp] theorem State.sizeBody_bus (s : State) : (s.sizeBody).bus = s.bus := rfl
@[simp] theorem State.sizeBody_draws (s : State) : (s.sizeBody).draws = s.draws := rfl

/-! ### State.afterReset -/

@[simp] theorem State.afterReset_build (s : State) : (s.afterReset).build = s.build := rfl
@[simp] theorem State.afterReset_sizeMode (s : State) : (s.afterReset).sizeMode = .reference := rfl
@[simp] theorem State.afterReset_irqEn (s : State) : (s.afterReset).irqEn = false := rfl
@[simp] theorem State.afterReset_done (s : State) : (s.afterReset).done = false := rfl
@[simp] theorem State.afterReset_err (s : State) : (s.afterReset).err = false := rfl
@[simp] theorem State.afterReset_aliased (s : State) : (s.afterReset).aliased = false := rfl
@[simp] theorem State.afterReset_busyWr (s : State) : (s.afterReset).busyWr = false := rfl
@[simp] theorem State.afterReset_errCode (s : State) : (s.afterReset).errCode = .none := rfl
@[simp] theorem State.afterReset_errSource (s : State) : (s.afterReset).errSource = .none := rfl
@[simp] theorem State.afterReset_errInfo (s : State) : (s.afterReset).errInfo = 0 := rfl
@[simp] theorem State.afterReset_mLen (s : State) : (s.afterReset).mLen = 0 := rfl
@[simp] theorem State.afterReset_nLen (s : State) : (s.afterReset).nLen = 0 := rfl
@[simp] theorem State.afterReset_log2k (s : State) : (s.afterReset).log2k = 0 := rfl
@[simp] theorem State.afterReset_pLen (s : State) : (s.afterReset).pLen = 0 := rfl
@[simp] theorem State.afterReset_mem (s : State) : (s.afterReset).mem = [] := rfl
@[simp] theorem State.afterReset_eng (s : State) : (s.afterReset).eng = .idle := rfl
@[simp] theorem State.afterReset_inputs (s : State) : (s.afterReset).inputs = s.inputs := rfl
@[simp] theorem State.afterReset_bus (s : State) : (s.afterReset).bus = .none := rfl
@[simp] theorem State.afterReset_draws (s : State) : (s.afterReset).draws = s.draws := rfl

/-! ### State.putEntries: it writes memory only -/

@[simp] theorem State.putEntries_build (s : State) (b : Buf) (es : List Entry) : (s.putEntries b es).build = s.build := rfl
@[simp] theorem State.putEntries_sizeMode (s : State) (b : Buf) (es : List Entry) : (s.putEntries b es).sizeMode = s.sizeMode := rfl
@[simp] theorem State.putEntries_irqEn (s : State) (b : Buf) (es : List Entry) : (s.putEntries b es).irqEn = s.irqEn := rfl
@[simp] theorem State.putEntries_done (s : State) (b : Buf) (es : List Entry) : (s.putEntries b es).done = s.done := rfl
@[simp] theorem State.putEntries_err (s : State) (b : Buf) (es : List Entry) : (s.putEntries b es).err = s.err := rfl
@[simp] theorem State.putEntries_aliased (s : State) (b : Buf) (es : List Entry) : (s.putEntries b es).aliased = s.aliased := rfl
@[simp] theorem State.putEntries_busyWr (s : State) (b : Buf) (es : List Entry) : (s.putEntries b es).busyWr = s.busyWr := rfl
@[simp] theorem State.putEntries_errCode (s : State) (b : Buf) (es : List Entry) : (s.putEntries b es).errCode = s.errCode := rfl
@[simp] theorem State.putEntries_errSource (s : State) (b : Buf) (es : List Entry) : (s.putEntries b es).errSource = s.errSource := rfl
@[simp] theorem State.putEntries_errInfo (s : State) (b : Buf) (es : List Entry) : (s.putEntries b es).errInfo = s.errInfo := rfl
@[simp] theorem State.putEntries_mLen (s : State) (b : Buf) (es : List Entry) : (s.putEntries b es).mLen = s.mLen := rfl
@[simp] theorem State.putEntries_nLen (s : State) (b : Buf) (es : List Entry) : (s.putEntries b es).nLen = s.nLen := rfl
@[simp] theorem State.putEntries_log2k (s : State) (b : Buf) (es : List Entry) : (s.putEntries b es).log2k = s.log2k := rfl
@[simp] theorem State.putEntries_pLen (s : State) (b : Buf) (es : List Entry) : (s.putEntries b es).pLen = s.pLen := rfl
@[simp] theorem State.putEntries_eng (s : State) (b : Buf) (es : List Entry) : (s.putEntries b es).eng = s.eng := rfl
@[simp] theorem State.putEntries_inputs (s : State) (b : Buf) (es : List Entry) : (s.putEntries b es).inputs = s.inputs := rfl
@[simp] theorem State.putEntries_bus (s : State) (b : Buf) (es : List Entry) : (s.putEntries b es).bus = s.bus := rfl
@[simp] theorem State.putEntries_draws (s : State) (b : Buf) (es : List Entry) : (s.putEntries b es).draws = s.draws := rfl

/-! ### State.fftBody: it writes memory only -/

@[simp] theorem State.fftBody_build (s : State) (b : Buf) (d : Dir) : (s.fftBody b d).build = s.build := rfl
@[simp] theorem State.fftBody_sizeMode (s : State) (b : Buf) (d : Dir) : (s.fftBody b d).sizeMode = s.sizeMode := rfl
@[simp] theorem State.fftBody_irqEn (s : State) (b : Buf) (d : Dir) : (s.fftBody b d).irqEn = s.irqEn := rfl
@[simp] theorem State.fftBody_done (s : State) (b : Buf) (d : Dir) : (s.fftBody b d).done = s.done := rfl
@[simp] theorem State.fftBody_err (s : State) (b : Buf) (d : Dir) : (s.fftBody b d).err = s.err := rfl
@[simp] theorem State.fftBody_aliased (s : State) (b : Buf) (d : Dir) : (s.fftBody b d).aliased = s.aliased := rfl
@[simp] theorem State.fftBody_busyWr (s : State) (b : Buf) (d : Dir) : (s.fftBody b d).busyWr = s.busyWr := rfl
@[simp] theorem State.fftBody_errCode (s : State) (b : Buf) (d : Dir) : (s.fftBody b d).errCode = s.errCode := rfl
@[simp] theorem State.fftBody_errSource (s : State) (b : Buf) (d : Dir) : (s.fftBody b d).errSource = s.errSource := rfl
@[simp] theorem State.fftBody_errInfo (s : State) (b : Buf) (d : Dir) : (s.fftBody b d).errInfo = s.errInfo := rfl
@[simp] theorem State.fftBody_mLen (s : State) (b : Buf) (d : Dir) : (s.fftBody b d).mLen = s.mLen := rfl
@[simp] theorem State.fftBody_nLen (s : State) (b : Buf) (d : Dir) : (s.fftBody b d).nLen = s.nLen := rfl
@[simp] theorem State.fftBody_log2k (s : State) (b : Buf) (d : Dir) : (s.fftBody b d).log2k = s.log2k := rfl
@[simp] theorem State.fftBody_pLen (s : State) (b : Buf) (d : Dir) : (s.fftBody b d).pLen = s.pLen := rfl
@[simp] theorem State.fftBody_eng (s : State) (b : Buf) (d : Dir) : (s.fftBody b d).eng = s.eng := rfl
@[simp] theorem State.fftBody_inputs (s : State) (b : Buf) (d : Dir) : (s.fftBody b d).inputs = s.inputs := rfl
@[simp] theorem State.fftBody_bus (s : State) (b : Buf) (d : Dir) : (s.fftBody b d).bus = s.bus := rfl
@[simp] theorem State.fftBody_draws (s : State) (b : Buf) (d : Dir) : (s.fftBody b d).draws = s.draws := rfl

/-! ### State.mapActive: it writes memory only -/

@[simp] theorem State.mapActive_build (s : State) (b : Buf) (f : List Entry → List Entry) : (s.mapActive b f).build = s.build := rfl
@[simp] theorem State.mapActive_sizeMode (s : State) (b : Buf) (f : List Entry → List Entry) : (s.mapActive b f).sizeMode = s.sizeMode := rfl
@[simp] theorem State.mapActive_irqEn (s : State) (b : Buf) (f : List Entry → List Entry) : (s.mapActive b f).irqEn = s.irqEn := rfl
@[simp] theorem State.mapActive_done (s : State) (b : Buf) (f : List Entry → List Entry) : (s.mapActive b f).done = s.done := rfl
@[simp] theorem State.mapActive_err (s : State) (b : Buf) (f : List Entry → List Entry) : (s.mapActive b f).err = s.err := rfl
@[simp] theorem State.mapActive_aliased (s : State) (b : Buf) (f : List Entry → List Entry) : (s.mapActive b f).aliased = s.aliased := rfl
@[simp] theorem State.mapActive_busyWr (s : State) (b : Buf) (f : List Entry → List Entry) : (s.mapActive b f).busyWr = s.busyWr := rfl
@[simp] theorem State.mapActive_errCode (s : State) (b : Buf) (f : List Entry → List Entry) : (s.mapActive b f).errCode = s.errCode := rfl
@[simp] theorem State.mapActive_errSource (s : State) (b : Buf) (f : List Entry → List Entry) : (s.mapActive b f).errSource = s.errSource := rfl
@[simp] theorem State.mapActive_errInfo (s : State) (b : Buf) (f : List Entry → List Entry) : (s.mapActive b f).errInfo = s.errInfo := rfl
@[simp] theorem State.mapActive_mLen (s : State) (b : Buf) (f : List Entry → List Entry) : (s.mapActive b f).mLen = s.mLen := rfl
@[simp] theorem State.mapActive_nLen (s : State) (b : Buf) (f : List Entry → List Entry) : (s.mapActive b f).nLen = s.nLen := rfl
@[simp] theorem State.mapActive_log2k (s : State) (b : Buf) (f : List Entry → List Entry) : (s.mapActive b f).log2k = s.log2k := rfl
@[simp] theorem State.mapActive_pLen (s : State) (b : Buf) (f : List Entry → List Entry) : (s.mapActive b f).pLen = s.pLen := rfl
@[simp] theorem State.mapActive_eng (s : State) (b : Buf) (f : List Entry → List Entry) : (s.mapActive b f).eng = s.eng := rfl
@[simp] theorem State.mapActive_inputs (s : State) (b : Buf) (f : List Entry → List Entry) : (s.mapActive b f).inputs = s.inputs := rfl
@[simp] theorem State.mapActive_bus (s : State) (b : Buf) (f : List Entry → List Entry) : (s.mapActive b f).bus = s.bus := rfl
@[simp] theorem State.mapActive_draws (s : State) (b : Buf) (f : List Entry → List Entry) : (s.mapActive b f).draws = s.draws := rfl

/-! ### State.cmulBody: it writes memory only -/

@[simp] theorem State.cmulBody_build (s : State) : (s.cmulBody).build = s.build := rfl
@[simp] theorem State.cmulBody_sizeMode (s : State) : (s.cmulBody).sizeMode = s.sizeMode := rfl
@[simp] theorem State.cmulBody_irqEn (s : State) : (s.cmulBody).irqEn = s.irqEn := rfl
@[simp] theorem State.cmulBody_done (s : State) : (s.cmulBody).done = s.done := rfl
@[simp] theorem State.cmulBody_err (s : State) : (s.cmulBody).err = s.err := rfl
@[simp] theorem State.cmulBody_aliased (s : State) : (s.cmulBody).aliased = s.aliased := rfl
@[simp] theorem State.cmulBody_busyWr (s : State) : (s.cmulBody).busyWr = s.busyWr := rfl
@[simp] theorem State.cmulBody_errCode (s : State) : (s.cmulBody).errCode = s.errCode := rfl
@[simp] theorem State.cmulBody_errSource (s : State) : (s.cmulBody).errSource = s.errSource := rfl
@[simp] theorem State.cmulBody_errInfo (s : State) : (s.cmulBody).errInfo = s.errInfo := rfl
@[simp] theorem State.cmulBody_mLen (s : State) : (s.cmulBody).mLen = s.mLen := rfl
@[simp] theorem State.cmulBody_nLen (s : State) : (s.cmulBody).nLen = s.nLen := rfl
@[simp] theorem State.cmulBody_log2k (s : State) : (s.cmulBody).log2k = s.log2k := rfl
@[simp] theorem State.cmulBody_pLen (s : State) : (s.cmulBody).pLen = s.pLen := rfl
@[simp] theorem State.cmulBody_eng (s : State) : (s.cmulBody).eng = s.eng := rfl
@[simp] theorem State.cmulBody_inputs (s : State) : (s.cmulBody).inputs = s.inputs := rfl
@[simp] theorem State.cmulBody_bus (s : State) : (s.cmulBody).bus = s.bus := rfl
@[simp] theorem State.cmulBody_draws (s : State) : (s.cmulBody).draws = s.draws := rfl

/-! ### State.scaleBody: it writes memory only -/

@[simp] theorem State.scaleBody_build (s : State) (b : Buf) : (s.scaleBody b).build = s.build := rfl
@[simp] theorem State.scaleBody_sizeMode (s : State) (b : Buf) : (s.scaleBody b).sizeMode = s.sizeMode := rfl
@[simp] theorem State.scaleBody_irqEn (s : State) (b : Buf) : (s.scaleBody b).irqEn = s.irqEn := rfl
@[simp] theorem State.scaleBody_done (s : State) (b : Buf) : (s.scaleBody b).done = s.done := rfl
@[simp] theorem State.scaleBody_err (s : State) (b : Buf) : (s.scaleBody b).err = s.err := rfl
@[simp] theorem State.scaleBody_aliased (s : State) (b : Buf) : (s.scaleBody b).aliased = s.aliased := rfl
@[simp] theorem State.scaleBody_busyWr (s : State) (b : Buf) : (s.scaleBody b).busyWr = s.busyWr := rfl
@[simp] theorem State.scaleBody_errCode (s : State) (b : Buf) : (s.scaleBody b).errCode = s.errCode := rfl
@[simp] theorem State.scaleBody_errSource (s : State) (b : Buf) : (s.scaleBody b).errSource = s.errSource := rfl
@[simp] theorem State.scaleBody_errInfo (s : State) (b : Buf) : (s.scaleBody b).errInfo = s.errInfo := rfl
@[simp] theorem State.scaleBody_mLen (s : State) (b : Buf) : (s.scaleBody b).mLen = s.mLen := rfl
@[simp] theorem State.scaleBody_nLen (s : State) (b : Buf) : (s.scaleBody b).nLen = s.nLen := rfl
@[simp] theorem State.scaleBody_log2k (s : State) (b : Buf) : (s.scaleBody b).log2k = s.log2k := rfl
@[simp] theorem State.scaleBody_pLen (s : State) (b : Buf) : (s.scaleBody b).pLen = s.pLen := rfl
@[simp] theorem State.scaleBody_eng (s : State) (b : Buf) : (s.scaleBody b).eng = s.eng := rfl
@[simp] theorem State.scaleBody_inputs (s : State) (b : Buf) : (s.scaleBody b).inputs = s.inputs := rfl
@[simp] theorem State.scaleBody_bus (s : State) (b : Buf) : (s.scaleBody b).bus = s.bus := rfl
@[simp] theorem State.scaleBody_draws (s : State) (b : Buf) : (s.scaleBody b).draws = s.draws := rfl

/-! ### State.padxBody: it writes memory only -/

@[simp] theorem State.padxBody_build (s : State) : (s.padxBody).build = s.build := rfl
@[simp] theorem State.padxBody_sizeMode (s : State) : (s.padxBody).sizeMode = s.sizeMode := rfl
@[simp] theorem State.padxBody_irqEn (s : State) : (s.padxBody).irqEn = s.irqEn := rfl
@[simp] theorem State.padxBody_done (s : State) : (s.padxBody).done = s.done := rfl
@[simp] theorem State.padxBody_err (s : State) : (s.padxBody).err = s.err := rfl
@[simp] theorem State.padxBody_aliased (s : State) : (s.padxBody).aliased = s.aliased := rfl
@[simp] theorem State.padxBody_busyWr (s : State) : (s.padxBody).busyWr = s.busyWr := rfl
@[simp] theorem State.padxBody_errCode (s : State) : (s.padxBody).errCode = s.errCode := rfl
@[simp] theorem State.padxBody_errSource (s : State) : (s.padxBody).errSource = s.errSource := rfl
@[simp] theorem State.padxBody_errInfo (s : State) : (s.padxBody).errInfo = s.errInfo := rfl
@[simp] theorem State.padxBody_mLen (s : State) : (s.padxBody).mLen = s.mLen := rfl
@[simp] theorem State.padxBody_nLen (s : State) : (s.padxBody).nLen = s.nLen := rfl
@[simp] theorem State.padxBody_log2k (s : State) : (s.padxBody).log2k = s.log2k := rfl
@[simp] theorem State.padxBody_pLen (s : State) : (s.padxBody).pLen = s.pLen := rfl
@[simp] theorem State.padxBody_eng (s : State) : (s.padxBody).eng = s.eng := rfl
@[simp] theorem State.padxBody_inputs (s : State) : (s.padxBody).inputs = s.inputs := rfl
@[simp] theorem State.padxBody_bus (s : State) : (s.padxBody).bus = s.bus := rfl
@[simp] theorem State.padxBody_draws (s : State) : (s.padxBody).draws = s.draws := rfl

/-! ### State.padhBody: it writes memory only -/

@[simp] theorem State.padhBody_build (s : State) : (s.padhBody).build = s.build := rfl
@[simp] theorem State.padhBody_sizeMode (s : State) : (s.padhBody).sizeMode = s.sizeMode := rfl
@[simp] theorem State.padhBody_irqEn (s : State) : (s.padhBody).irqEn = s.irqEn := rfl
@[simp] theorem State.padhBody_done (s : State) : (s.padhBody).done = s.done := rfl
@[simp] theorem State.padhBody_err (s : State) : (s.padhBody).err = s.err := rfl
@[simp] theorem State.padhBody_aliased (s : State) : (s.padhBody).aliased = s.aliased := rfl
@[simp] theorem State.padhBody_busyWr (s : State) : (s.padhBody).busyWr = s.busyWr := rfl
@[simp] theorem State.padhBody_errCode (s : State) : (s.padhBody).errCode = s.errCode := rfl
@[simp] theorem State.padhBody_errSource (s : State) : (s.padhBody).errSource = s.errSource := rfl
@[simp] theorem State.padhBody_errInfo (s : State) : (s.padhBody).errInfo = s.errInfo := rfl
@[simp] theorem State.padhBody_mLen (s : State) : (s.padhBody).mLen = s.mLen := rfl
@[simp] theorem State.padhBody_nLen (s : State) : (s.padhBody).nLen = s.nLen := rfl
@[simp] theorem State.padhBody_log2k (s : State) : (s.padhBody).log2k = s.log2k := rfl
@[simp] theorem State.padhBody_pLen (s : State) : (s.padhBody).pLen = s.pLen := rfl
@[simp] theorem State.padhBody_eng (s : State) : (s.padhBody).eng = s.eng := rfl
@[simp] theorem State.padhBody_inputs (s : State) : (s.padhBody).inputs = s.inputs := rfl
@[simp] theorem State.padhBody_bus (s : State) : (s.padhBody).bus = s.bus := rfl
@[simp] theorem State.padhBody_draws (s : State) : (s.padhBody).draws = s.draws := rfl

/-! ### State.extractBody: it writes memory only -/

@[simp] theorem State.extractBody_build (s : State) : (s.extractBody).build = s.build := rfl
@[simp] theorem State.extractBody_sizeMode (s : State) : (s.extractBody).sizeMode = s.sizeMode := rfl
@[simp] theorem State.extractBody_irqEn (s : State) : (s.extractBody).irqEn = s.irqEn := rfl
@[simp] theorem State.extractBody_done (s : State) : (s.extractBody).done = s.done := rfl
@[simp] theorem State.extractBody_err (s : State) : (s.extractBody).err = s.err := rfl
@[simp] theorem State.extractBody_aliased (s : State) : (s.extractBody).aliased = s.aliased := rfl
@[simp] theorem State.extractBody_busyWr (s : State) : (s.extractBody).busyWr = s.busyWr := rfl
@[simp] theorem State.extractBody_errCode (s : State) : (s.extractBody).errCode = s.errCode := rfl
@[simp] theorem State.extractBody_errSource (s : State) : (s.extractBody).errSource = s.errSource := rfl
@[simp] theorem State.extractBody_errInfo (s : State) : (s.extractBody).errInfo = s.errInfo := rfl
@[simp] theorem State.extractBody_mLen (s : State) : (s.extractBody).mLen = s.mLen := rfl
@[simp] theorem State.extractBody_nLen (s : State) : (s.extractBody).nLen = s.nLen := rfl
@[simp] theorem State.extractBody_log2k (s : State) : (s.extractBody).log2k = s.log2k := rfl
@[simp] theorem State.extractBody_pLen (s : State) : (s.extractBody).pLen = s.pLen := rfl
@[simp] theorem State.extractBody_eng (s : State) : (s.extractBody).eng = s.eng := rfl
@[simp] theorem State.extractBody_inputs (s : State) : (s.extractBody).inputs = s.inputs := rfl
@[simp] theorem State.extractBody_bus (s : State) : (s.extractBody).bus = s.bus := rfl
@[simp] theorem State.extractBody_draws (s : State) : (s.extractBody).draws = s.draws := rfl

/-! ### State.convBody: LOG2K, P_LEN and ALIASED are SIZE's, the other registers are kept -/

@[simp] theorem State.convBody_build (s : State) : s.convBody.build = s.build := by simp [State.convBody]
@[simp] theorem State.convBody_sizeMode (s : State) : s.convBody.sizeMode = s.sizeMode := by simp [State.convBody]
@[simp] theorem State.convBody_irqEn (s : State) : s.convBody.irqEn = s.irqEn := by simp [State.convBody]
@[simp] theorem State.convBody_done (s : State) : s.convBody.done = s.done := by simp [State.convBody]
@[simp] theorem State.convBody_err (s : State) : s.convBody.err = s.err := by simp [State.convBody]
@[simp] theorem State.convBody_aliased (s : State) : s.convBody.aliased = aliasedFlag s.sizedP (2 ^ s.sizedL) := by simp [State.convBody]
@[simp] theorem State.convBody_busyWr (s : State) : s.convBody.busyWr = s.busyWr := by simp [State.convBody]
@[simp] theorem State.convBody_errCode (s : State) : s.convBody.errCode = s.errCode := by simp [State.convBody]
@[simp] theorem State.convBody_errSource (s : State) : s.convBody.errSource = s.errSource := by simp [State.convBody]
@[simp] theorem State.convBody_errInfo (s : State) : s.convBody.errInfo = s.errInfo := by simp [State.convBody]
@[simp] theorem State.convBody_mLen (s : State) : s.convBody.mLen = s.mLen := by simp [State.convBody]
@[simp] theorem State.convBody_nLen (s : State) : s.convBody.nLen = s.nLen := by simp [State.convBody]
@[simp] theorem State.convBody_log2k (s : State) : s.convBody.log2k = BitVec.ofNat 5 s.sizedL := by simp [State.convBody]
@[simp] theorem State.convBody_pLen (s : State) : s.convBody.pLen = BitVec.ofNat 32 s.sizedP := by simp [State.convBody]
@[simp] theorem State.convBody_eng (s : State) : s.convBody.eng = s.eng := by simp [State.convBody]
@[simp] theorem State.convBody_inputs (s : State) : s.convBody.inputs = s.inputs := by simp [State.convBody]
@[simp] theorem State.convBody_bus (s : State) : s.convBody.bus = s.bus := by simp [State.convBody]
@[simp] theorem State.convBody_draws (s : State) : s.convBody.draws = s.draws := by simp [State.convBody]

end Sys2Proof.Machine
end

