-- ==== Sys2Proof/Laws/Command.lean ====
section
/-! SUPPORT. What a command does: the error completion of its first failing check, or its body and the successful
completion. -/

namespace Sys2Proof.Machine

/-- A command whose first failing check reports e ends with that error (60_exceptions.md R224). -/
theorem State.command_of_fails {s : State} {checks : List (Option Err)} {body : State → State} {e : Err}
    (h : checks.findSome? id = some e) : s.command checks body = s.raise e := by
  simp [State.command, h]

/-- A command whose checks all pass does its body's writes and completes (30_encoding.md R102). -/
theorem State.command_of_passes {s : State} {checks : List (Option Err)} {body : State → State}
    (h : ∀ c ∈ checks, c = none) : s.command checks body = (body s).complete := by
  have : checks.findSome? id = none := by simpa [List.findSome?_eq_none_iff] using h
  simp [State.command, this]

/-- Everything a command can do: one of its checks fails and nothing of its body happens, or all of them pass. -/
theorem State.command_cases (s : State) (checks : List (Option Err)) (body : State → State) :
    (∃ e, some e ∈ checks ∧ s.command checks body = s.raise e) ∨
      ((∀ c ∈ checks, c = none) ∧ s.command checks body = (body s).complete) := by
  cases h : checks.findSome? id with
  | some e =>
    obtain ⟨c, hc, he⟩ := List.exists_of_findSome?_eq_some h
    exact .inl ⟨e, by simpa using he ▸ hc, State.command_of_fails h⟩
  | none =>
    have hp : ∀ c ∈ checks, c = none := by simpa [List.findSome?_eq_none_iff] using h
    exact .inr ⟨hp, State.command_of_passes hp⟩

/-- A check passes exactly when its condition holds. -/
@[simp] theorem require_eq_none (ok : Bool) (e : Err) : require ok e = none ↔ ok = true := by
  cases ok <;> simp [require]

/-- A check that fails reports its error. -/
@[simp] theorem require_eq_some (ok : Bool) (e e' : Err) : require ok e = some e' ↔ ok = false ∧ e = e' := by
  cases ok <;> simp [require]

/-- Every check's error has a code and a source (60_exceptions.md R220, R221). -/
theorem Err.of_checks (s : State) (l n : Nat) (e : Err)
    (h : some e ∈ [s.checkMNonzero, s.checkNNonzero, s.checkMCapacity, s.checkNCapacity, s.checkL l, s.checkStage n,
      s.checkPCapacity]) : e.code ≠ .none ∧ e.source ≠ .none := by
  simp only [List.mem_cons, List.not_mem_nil, or_false, State.checkMNonzero, State.checkNNonzero,
    State.checkMCapacity, State.checkNCapacity, State.checkL, State.checkStage, State.checkPCapacity,
    eq_comm (a := some e), require_eq_some] at h
  rcases h with ⟨_, rfl⟩ | ⟨_, rfl⟩ | ⟨_, rfl⟩ | ⟨_, rfl⟩ | ⟨_, rfl⟩ | ⟨_, rfl⟩ | ⟨_, rfl⟩ <;> simp

end Sys2Proof.Machine
end

