-- ==== Sys2Proof/Laws/Memory.lean ====
section
/-! SUPPORT. What the memory operations do: reads after a write, and the canonical form kept. -/

namespace Sys2Proof.Machine

/-! ### Reading -/

theorem Memory.read_append (m₁ m₂ : Memory) (a : Nat) :
    Memory.read (m₁ ++ m₂) a = (Memory.read m₁ a).or (Memory.read m₂ a) := by
  induction m₁ with
  | nil => simp [Memory.read]
  | cons c m ih => by_cases h : c.1 = a <;> simp [Memory.read, h, ih]

/-- Filtering on addresses keeps a byte or hides it, by its address alone. -/
theorem Memory.read_filter (m : Memory) (p : Nat → Bool) (a : Nat) :
    Memory.read (m.filter fun c => p c.1) a = if p a then Memory.read m a else none := by
  induction m with
  | nil => simp [Memory.read]
  | cons c m ih =>
    by_cases hp : p c.1 <;> by_cases h : c.1 = a
    · subst h; simp [hp, Memory.read]
    · simp [hp, Memory.read, h, ih]
    · subst h; simp [hp, ih]
    · simp [hp, Memory.read, h, ih]

theorem read_cellsFrom_lt (bs : List (Option Byte)) (a x : Nat) (h : x < a) :
    Memory.read (cellsFrom a bs) x = none := by
  induction bs generalizing a with
  | nil => rfl
  | cons b bs ih =>
    cases b with
    | none => exact ih (a + 1) (by omega)
    | some b => simp [cellsFrom, Memory.read, Nat.ne_of_gt h, ih (a + 1) (by omega)]

/-- The cells of consecutive bytes read as the bytes, and as nothing outside them. -/
theorem read_cellsFrom (bs : List (Option Byte)) (a i : Nat) :
    Memory.read (cellsFrom a bs) (a + i) = (bs[i]?).join := by
  induction bs generalizing a i with
  | nil => simp [cellsFrom, Memory.read]
  | cons b bs ih =>
    cases i with
    | zero =>
      cases b with
      | none => simpa [cellsFrom] using read_cellsFrom_lt bs (a + 1) a (by omega)
      | some b => simp [cellsFrom, Memory.read]
    | succ i =>
      have e : a + (i + 1) = a + 1 + i := by omega
      cases b with
      | none => rw [e]; simpa [cellsFrom] using ih (a + 1) i
      | some b => rw [e]; simpa [cellsFrom, Memory.read, show a ≠ a + 1 + i by omega] using ih (a + 1) i

/-- Everything `putBytes` does: the bytes written read back, every other byte is as before. -/
theorem Memory.read_putBytes (m : Memory) (a : Nat) (bs : List (Option Byte)) (x : Nat) :
    (m.putBytes a bs).read x =
      if a ≤ x ∧ x < a + bs.length then (bs[x - a]?).join else m.read x := by
  have e₁ := Memory.read_filter m (fun y => decide (y < a)) x
  have e₂ := Memory.read_filter m (fun y => decide (a + bs.length ≤ y)) x
  simp only [decide_eq_true_eq] at e₁ e₂
  simp only [Memory.putBytes, Memory.read_append, e₁, e₂]
  by_cases h₁ : x < a
  · rw [if_pos h₁, if_neg (by omega), read_cellsFrom_lt _ _ _ h₁, if_neg (by omega)]; simp
  · obtain ⟨i, rfl⟩ : ∃ i, x = a + i := ⟨x - a, by omega⟩
    rw [if_neg h₁, read_cellsFrom, Nat.add_sub_cancel_left]
    by_cases h₂ : i < bs.length
    · rw [if_neg (by omega), if_pos (by omega)]; simp
    · rw [if_pos (by omega), if_neg (by omega), List.getElem?_eq_none (by omega)]; simp

/-- A byte outside the written ones is unchanged. -/
theorem Memory.read_putBytes_of_outside (m : Memory) (a : Nat) (bs : List (Option Byte)) (x : Nat)
    (h : x < a ∨ a + bs.length ≤ x) : (m.putBytes a bs).read x = m.read x := by
  rw [Memory.read_putBytes, if_neg (by omega)]

/-- Writing the byte v at offset i of the written range makes that address read v. -/
theorem Memory.read_putBytes_of_inside (m : Memory) (a : Nat) (bs : List (Option Byte)) (i : Nat)
    (h : i < bs.length) : (m.putBytes a bs).read (a + i) = bs[i] := by
  rw [Memory.read_putBytes, if_pos (by omega), Nat.add_sub_cancel_left, List.getElem?_eq_getElem h]; rfl

/-! ### Halves and words -/

@[simp] theorem halfBytes_length (h : Option Word32) : (halfBytes h).length = 4 := by
  cases h <;> rfl

@[simp] theorem RamWord.bytes_length (w : RamWord) : w.bytes.length = 8 := by
  simp [RamWord.bytes]

theorem word32_of_bytes (v : Word32) :
    v.extractLsb' 24 8 ++ v.extractLsb' 16 8 ++ v.extractLsb' 8 8 ++ v.extractLsb' 0 8 = v := by
  have h₁ : v.extractLsb' 24 8 ++ v.extractLsb' 16 8 = v.extractLsb' 16 16 :=
    BitVec.extractLsb'_append_extractLsb'_eq_extractLsb' rfl
  have h₂ : v.extractLsb' 16 16 ++ v.extractLsb' 8 8 = v.extractLsb' 8 24 :=
    BitVec.extractLsb'_append_extractLsb'_eq_extractLsb' rfl
  have h₃ : v.extractLsb' 8 24 ++ v.extractLsb' 0 8 = v.extractLsb' 0 32 :=
    BitVec.extractLsb'_append_extractLsb'_eq_extractLsb' rfl
  rw [h₁, h₂, h₃, BitVec.extractLsb'_eq_self]

theorem word64_of_halves (v : F64) : v.extractLsb' 32 32 ++ v.extractLsb' 0 32 = v := by
  have h : v.extractLsb' 32 32 ++ v.extractLsb' 0 32 = v.extractLsb' 0 64 :=
    BitVec.extractLsb'_append_extractLsb'_eq_extractLsb' rfl
  rw [h, BitVec.extractLsb'_eq_self]

/-- The bytes of a half make the half again (20_memory.md R63). -/
theorem halfOfBytes_halfBytes (h : Option Word32) :
    halfOfBytes ((halfBytes h)[0]?.join) ((halfBytes h)[1]?.join) ((halfBytes h)[2]?.join)
      ((halfBytes h)[3]?.join) = h := by
  cases h with
  | none => rfl
  | some v =>
    simp only [halfBytes, halfOfBytes, List.getElem?_cons_zero, List.getElem?_cons_succ, Option.join_some,
      Option.some.injEq]
    exact word32_of_bytes v

/-- A binary64 word stored as a data word has the value it was made of. -/
@[simp] theorem RamWord.val_ofF64 (v : F64) : (RamWord.ofF64 v).val = some v := by
  simp [RamWord.val, RamWord.ofF64, word64_of_halves]

@[simp] theorem RamWord.val_poison : RamWord.poison.val = none := rfl

/-- The half at a + i of a written range is made of the bytes written there. -/
theorem Memory.half_putBytes (m : Memory) (a : Nat) (bs : List (Option Byte)) (i : Nat) (h : i + 4 ≤ bs.length) :
    (m.putBytes a bs).half (a + i) =
      halfOfBytes (bs[i]?.join) (bs[i + 1]?.join) (bs[i + 2]?.join) (bs[i + 3]?.join) := by
  simp only [Memory.half, Memory.read_putBytes]
  rw [if_pos (by omega), if_pos (by omega), if_pos (by omega), if_pos (by omega)]
  simp [Nat.add_assoc]

/-- A half outside the written range is unchanged. -/
theorem Memory.half_putBytes_of_outside (m : Memory) (a : Nat) (bs : List (Option Byte)) (x : Nat)
    (h : x + 4 ≤ a ∨ a + bs.length ≤ x) : (m.putBytes a bs).half x = m.half x := by
  simp only [Memory.half]
  rw [Memory.read_putBytes_of_outside _ _ _ _ (by omega), Memory.read_putBytes_of_outside _ _ _ _ (by omega),
    Memory.read_putBytes_of_outside _ _ _ _ (by omega), Memory.read_putBytes_of_outside _ _ _ _ (by omega)]

/-- A half written reads back. -/
@[simp] theorem Memory.half_putHalf (m : Memory) (a : Nat) (h : Option Word32) : (m.putHalf a h).half a = h := by
  have e := Memory.half_putBytes m a (halfBytes h) 0 (by simp)
  rw [Nat.add_zero, halfOfBytes_halfBytes] at e
  exact e

/-- Writing a half leaves every other half alone. -/
theorem Memory.half_putHalf_of_ne (m : Memory) (a : Nat) (h : Option Word32) (x : Nat) (d : x + 4 ≤ a ∨ a + 4 ≤ x) :
    (m.putHalf a h).half x = m.half x :=
  Memory.half_putBytes_of_outside _ _ _ _ (by simpa using d)

/-- Writing a half leaves every byte outside it alone. -/
theorem Memory.read_putHalf_of_outside (m : Memory) (a : Nat) (h : Option Word32) (x : Nat)
    (d : x < a ∨ a + 4 ≤ x) : (m.putHalf a h).read x = m.read x :=
  Memory.read_putBytes_of_outside _ _ _ _ (by simpa using d)

theorem flatMap_bytes_length (ws : List RamWord) : (ws.flatMap RamWord.bytes).length = 8 * ws.length := by
  induction ws with
  | nil => rfl
  | cons w ws ih => simp [ih]; omega

/-- Byte j of word i of consecutive words. -/
theorem flatMap_bytes_getElem? (ws : List RamWord) (i j : Nat) (h : j < 8) :
    (ws.flatMap RamWord.bytes)[8 * i + j]? = ws[i]?.bind fun w => w.bytes[j]? := by
  induction ws generalizing i with
  | nil => simp
  | cons w ws ih =>
    cases i with
    | zero =>
      simp only [List.flatMap_cons, Nat.mul_zero, Nat.zero_add, List.getElem?_cons_zero, Option.bind_some]
      rw [List.getElem?_append_left (by simpa using h)]
    | succ i =>
      simp only [List.flatMap_cons, List.getElem?_cons_succ, ← ih i]
      rw [List.getElem?_append_right (by simp; omega)]
      congr 1
      simp; omega

/-- Everything `putWords` does to words: word i of the ones written reads back. -/
theorem Memory.word_putWords (m : Memory) (a : Nat) (ws : List RamWord) (i : Nat) (h : i < ws.length) :
    (m.putWords a ws).word (a + 8 * i) = ws[i] := by
  have hl := flatMap_bytes_length ws
  have e : ∀ j < 8, ((ws.flatMap RamWord.bytes)[8 * i + j]?).join = (ws[i].bytes[j]?).join := fun j hj => by
    rw [flatMap_bytes_getElem? ws i j hj, List.getElem?_eq_getElem h]; rfl
  have lo := halfOfBytes_halfBytes ws[i].lo
  have hi := halfOfBytes_halfBytes ws[i].hi
  have lo' := Memory.half_putBytes m a (ws.flatMap RamWord.bytes) (8 * i) (by omega)
  have hi' := Memory.half_putBytes m a (ws.flatMap RamWord.bytes) (8 * i + 4) (by omega)
  rw [show 8 * i = 8 * i + 0 from rfl, e 0 (by omega), e 1 (by omega), e 2 (by omega), e 3 (by omega)] at lo'
  rw [e 4 (by omega), show 8 * i + 4 + 1 = 8 * i + 5 from rfl, e 5 (by omega), show 8 * i + 4 + 2 = 8 * i + 6 from rfl,
    e 6 (by omega), show 8 * i + 4 + 3 = 8 * i + 7 from rfl, e 7 (by omega)] at hi'
  have hb : ∀ j < 4, ws[i].bytes[j]? = (halfBytes ws[i].lo)[j]? := fun j hj =>
    List.getElem?_append_left (by simpa using hj)
  have hb' : ∀ j < 4, ws[i].bytes[j + 4]? = (halfBytes ws[i].hi)[j]? := fun j hj => by
    rw [RamWord.bytes, List.getElem?_append_right (by simp)]; simp
  rw [hb 0 (by omega), hb 1 (by omega), hb 2 (by omega), hb 3 (by omega), lo] at lo'
  rw [hb' 0 (by omega), hb' 1 (by omega), hb' 2 (by omega), hb' 3 (by omega), hi] at hi'
  simp only [Memory.word, Memory.putWords]
  rw [show a + 8 * i + 4 = a + (8 * i + 4) by omega, hi', show a + 8 * i = a + (8 * i + 0) from rfl, lo']

/-- Writing words leaves every byte outside them alone. -/
theorem Memory.read_putWords_of_outside (m : Memory) (a : Nat) (ws : List RamWord) (x : Nat)
    (h : x < a ∨ a + 8 * ws.length ≤ x) : (m.putWords a ws).read x = m.read x :=
  Memory.read_putBytes_of_outside _ _ _ _ (by rw [flatMap_bytes_length]; exact h)

/-- Writing words leaves every word outside them alone. -/
theorem Memory.word_putWords_of_outside (m : Memory) (a : Nat) (ws : List RamWord) (x : Nat)
    (h : x + 8 ≤ a ∨ a + 8 * ws.length ≤ x) : (m.putWords a ws).word x = m.word x := by
  have hl := flatMap_bytes_length ws
  simp only [Memory.word, Memory.putWords]
  rw [Memory.half_putBytes_of_outside _ _ _ _ (by omega), Memory.half_putBytes_of_outside _ _ _ _ (by omega)]

/-! ### The canonical form -/

theorem Memory.wf_cons (c : Host.Cell) (m : Memory) :
    Memory.wf (c :: m) = true ↔ (∀ d ∈ m, c.1 < d.1) ∧ m.wf = true := by
  induction m generalizing c with
  | nil => simp [Memory.wf]
  | cons d m ih =>
    simp only [Memory.wf, Bool.and_eq_true, decide_eq_true_eq, List.mem_cons, forall_eq_or_imp]
    rw [ih d]
    constructor
    · rintro ⟨h, hd, hm⟩; exact ⟨⟨h, fun e he => Nat.lt_trans h (hd e he)⟩, hd, hm⟩
    · rintro ⟨⟨h, _⟩, hd, hm⟩; exact ⟨h, hd, hm⟩

/-- The canonical form is pairwise rising addresses. -/
theorem Memory.wf_iff_pairwise (m : Memory) : m.wf = true ↔ m.Pairwise fun c d => c.1 < d.1 := by
  induction m with
  | nil => simp [Memory.wf]
  | cons c m ih => rw [Memory.wf_cons, List.pairwise_cons, ih]

theorem mem_cellsFrom (bs : List (Option Byte)) (a : Nat) (c : Host.Cell) (h : c ∈ cellsFrom a bs) :
    a ≤ c.1 ∧ c.1 < a + bs.length := by
  induction bs generalizing a with
  | nil => simp [cellsFrom] at h
  | cons b bs ih =>
    cases b with
    | none => have := ih (a + 1) h; simp; omega
    | some b =>
      rcases List.mem_cons.1 h with rfl | h
      · simp
      · have := ih (a + 1) h; simp; omega

theorem cellsFrom_pairwise (bs : List (Option Byte)) (a : Nat) :
    (cellsFrom a bs).Pairwise fun c d => c.1 < d.1 := by
  induction bs generalizing a with
  | nil => exact List.Pairwise.nil
  | cons b bs ih =>
    cases b with
    | none => exact ih (a + 1)
    | some b =>
      refine List.pairwise_cons.2 ⟨fun d hd => ?_, ih (a + 1)⟩
      have := (mem_cellsFrom bs (a + 1) d hd).1
      simp; omega

/-- The canonical form is kept by every write of bytes. -/
theorem Memory.wf_putBytes (m : Memory) (a : Nat) (bs : List (Option Byte)) (h : m.wf = true) :
    (m.putBytes a bs).wf = true := by
  rw [Memory.wf_iff_pairwise] at h ⊢
  refine List.pairwise_append.2 ⟨List.pairwise_append.2 ⟨h.filter _, cellsFrom_pairwise bs a, ?_⟩, h.filter _, ?_⟩
  · intro c hc d hd
    have := (mem_cellsFrom bs a d hd).1
    simp at hc; omega
  · intro c hc d hd
    simp at hd
    rcases List.mem_append.1 hc with hc | hc
    · simp at hc; omega
    · have := (mem_cellsFrom bs a c hc).2; omega

/-- The canonical form is kept by a write of a half. -/
theorem Memory.wf_putHalf (m : Memory) (a : Nat) (h : Option Word32) (hm : m.wf = true) :
    (m.putHalf a h).wf = true := Memory.wf_putBytes _ _ _ hm

/-- The canonical form is kept by a write of words. -/
theorem Memory.wf_putWords (m : Memory) (a : Nat) (ws : List RamWord) (hm : m.wf = true) :
    (m.putWords a ws).wf = true := Memory.wf_putBytes _ _ _ hm

/-- The memory after reset is in canonical form. -/
theorem State.reset_mem_wf : State.reset.mem.wf = true := rfl

/-- A cell of a memory after a write lies in the written range, or was a cell before. -/
theorem Memory.mem_putBytes (m : Memory) (a : Nat) (bs : List (Option Byte)) (c : Host.Cell)
    (h : c ∈ m.putBytes a bs) : (a ≤ c.1 ∧ c.1 < a + bs.length) ∨ c ∈ m := by
  rcases List.mem_append.1 h with h | h
  · rcases List.mem_append.1 h with h | h
    · exact .inr (List.mem_filter.1 h).1
    · exact .inl (mem_cellsFrom bs a c h)
  · exact .inr (List.mem_filter.1 h).1

/-! ### Whole halves -/

theorem Memory.read_isSome_iff (m : Memory) (a : Nat) : (m.read a).isSome ↔ ∃ c ∈ m, c.1 = a := by
  induction m with
  | nil => simp [Memory.read]
  | cons c m ih => by_cases h : c.1 = a <;> simp [Memory.read, h, ih]

/-- `halvesWhole` in terms of reads: a byte with a value lies in a half with a value. -/
theorem Memory.halvesWhole_iff (m : Memory) :
    m.halvesWhole = true ↔ ∀ a, (m.read a).isSome → (m.half (a - a % 4)).isSome := by
  simp only [Memory.halvesWhole, List.all_eq_true]
  refine ⟨fun h a ha => ?_, fun h c hc => h c.1 ((Memory.read_isSome_iff m c.1).2 ⟨c, hc, rfl⟩)⟩
  obtain ⟨c, hc, rfl⟩ := (Memory.read_isSome_iff m a).1 ha
  exact h c hc

theorem Memory.half_isSome_iff (m : Memory) (a : Nat) :
    (m.half a).isSome ↔ (m.read a).isSome ∧ (m.read (a + 1)).isSome ∧ (m.read (a + 2)).isSome ∧
      (m.read (a + 3)).isSome := by
  simp only [Memory.half]
  cases m.read a <;> cases m.read (a + 1) <;> cases m.read (a + 2) <;> cases m.read (a + 3) <;>
    simp [halfOfBytes]

/-- A list of bytes made of whole halves: a byte with a value has its three neighbours. -/
def HalvesOf (bs : List (Option Byte)) : Prop :=
  bs.length % 4 = 0 ∧ ∀ i, (bs[i]?.join).isSome → ∀ j < 4, (bs[i - i % 4 + j]?.join).isSome

theorem halvesOf_halfBytes (h : Option Word32) : HalvesOf (halfBytes h) := by
  refine ⟨by simp, fun i hi j hj => ?_⟩
  cases h with
  | none => rcases i with _ | _ | _ | _ | i <;> simp [halfBytes] at hi
  | some v =>
    have hlt : i < 4 := by
      by_contra hc
      rw [List.getElem?_eq_none (by simp; omega)] at hi
      simp at hi
    have : i - i % 4 + j = j := by omega
    rw [this]
    rcases j with _ | _ | _ | _ | j
    all_goals first | rfl | omega

theorem HalvesOf.append {as bs : List (Option Byte)} (ha : HalvesOf as) (hb : HalvesOf bs) :
    HalvesOf (as ++ bs) := by
  refine ⟨by have := ha.1; have := hb.1; simp; omega, fun i hi j hj => ?_⟩
  have h4 := ha.1
  by_cases h : i < as.length
  · rw [List.getElem?_append_left h] at hi
    have := ha.2 i hi j hj
    rw [List.getElem?_append_left (by omega)]
    exact this
  · rw [List.getElem?_append_right (by omega)] at hi
    have := hb.2 _ hi j hj
    rw [List.getElem?_append_right (by omega)]
    rwa [show i - i % 4 + j - as.length = i - as.length - (i - as.length) % 4 + j by omega]

theorem halvesOf_words (ws : List RamWord) : HalvesOf (ws.flatMap RamWord.bytes) := by
  induction ws with
  | nil => exact ⟨rfl, fun i hi => by simp at hi⟩
  | cons w ws ih => exact ((halvesOf_halfBytes w.lo).append (halvesOf_halfBytes w.hi)).append ih

/-- Writing whole halves at a 4-aligned offset keeps halves whole. -/
theorem Memory.halvesWhole_putBytes (m : Memory) (a : Nat) (bs : List (Option Byte)) (hm : m.halvesWhole = true)
    (ha : a % 4 = 0) (hb : HalvesOf bs) : (m.putBytes a bs).halvesWhole = true := by
  rw [Memory.halvesWhole_iff] at hm ⊢
  intro x hx
  have h4 := hb.1
  rw [Memory.read_putBytes] at hx
  split at hx
  · have := hb.2 _ hx
    rw [Memory.half_isSome_iff]
    have e : ∀ j < 4, ((m.putBytes a bs).read (x - x % 4 + j)).isSome := fun j hj => by
      rw [Memory.read_putBytes, if_pos (by omega)]
      have := this j hj
      rwa [show x - a - (x - a) % 4 + j = x - x % 4 + j - a by omega] at this
    exact ⟨e 0 (by omega), e 1 (by omega), e 2 (by omega), e 3 (by omega)⟩
  · rw [Memory.half_putBytes_of_outside _ _ _ _ (by omega)]
    exact hm x hx

theorem Memory.halvesWhole_putHalf (m : Memory) (a : Nat) (h : Option Word32) (hm : m.halvesWhole = true)
    (ha : a % 4 = 0) : (m.putHalf a h).halvesWhole = true :=
  Memory.halvesWhole_putBytes m a _ hm ha (halvesOf_halfBytes h)

theorem Memory.halvesWhole_putWords (m : Memory) (a : Nat) (ws : List RamWord) (hm : m.halvesWhole = true)
    (ha : a % 4 = 0) : (m.putWords a ws).halvesWhole = true :=
  Memory.halvesWhole_putBytes m a _ hm ha (halvesOf_words ws)

end Sys2Proof.Machine
end

