-- ==== Sys2Proof/Laws/Ram.lean ====
section
/-! SUPPORT. The data RAMs: reading words and entries after words or entries are stored. -/

namespace Sys2Proof.Machine

/-! ### Words as a command reads them (70_reset_and_hazards.md R268) -/

/-- A word that has a value is read as it is. -/
theorem RamWord.loaded_of_val (w : RamWord) (v : F64) (h : w.val = some v) : w.loaded = w := by
  simp [RamWord.loaded, h]

/-- A word that has no value is read as poison. -/
theorem RamWord.loaded_of_none (w : RamWord) (h : w.val = none) : w.loaded = RamWord.poison := by
  simp [RamWord.loaded, h]

/-- Reading does not change the value of a word. -/
@[simp] theorem RamWord.val_loaded (w : RamWord) : w.loaded.val = w.val := by
  cases h : w.val with
  | none => rw [RamWord.loaded_of_none w h]; rfl
  | some v => rw [RamWord.loaded_of_val w v h, h]

@[simp] theorem RamWord.loaded_loaded (w : RamWord) : w.loaded.loaded = w.loaded := by
  cases h : w.val with
  | none => rw [RamWord.loaded_of_none w h]; rfl
  | some v => rw [RamWord.loaded_of_val w v h, RamWord.loaded_of_val w v h]

@[simp] theorem RamWord.loaded_poison : RamWord.poison.loaded = RamWord.poison := rfl

@[simp] theorem RamWord.loaded_ofF64 (v : F64) : (RamWord.ofF64 v).loaded = RamWord.ofF64 v := rfl

/-- An operation depends on the values of its operands alone. -/
theorem RamWord.map₂_congr (f : F64 → F64 → F64) (a b a' b' : RamWord) (ha : a.val = a'.val) (hb : b.val = b'.val) :
    a.map₂ f b = a'.map₂ f b' := by
  simp [RamWord.map₂, ha, hb]

/-- The result of an operation is a whole value or poison as a whole. -/
@[simp] theorem RamWord.loaded_map₂ (f : F64 → F64 → F64) (a b : RamWord) : (a.map₂ f b).loaded = a.map₂ f b := by
  unfold RamWord.map₂; split <;> rfl

@[simp] theorem RamWord.map₂_loaded_left (f : F64 → F64 → F64) (a b : RamWord) :
    a.loaded.map₂ f b = a.map₂ f b := RamWord.map₂_congr f _ _ _ _ a.val_loaded rfl

@[simp] theorem RamWord.map₂_loaded_right (f : F64 → F64 → F64) (a b : RamWord) :
    a.map₂ f b.loaded = a.map₂ f b := RamWord.map₂_congr f _ _ _ _ rfl b.val_loaded

@[simp] theorem Entry.loaded_loaded (e : Entry) : e.loaded.loaded = e.loaded := by simp [Entry.loaded]

@[simp] theorem Entry.loaded_ofF64 (re im : F64) : (Entry.ofF64 re im).loaded = Entry.ofF64 re im := rfl

/-- Complex operations and the scaling of an entry see what a command reads, and give whole results. -/
theorem cadd_loaded (u v : Entry) : cadd u.loaded v.loaded = cadd u v ∧ (cadd u v).loaded = cadd u v := by
  simp [cadd, Entry.loaded, RamWord.add]

theorem csub_loaded (u v : Entry) : csub u.loaded v.loaded = csub u v ∧ (csub u v).loaded = csub u v := by
  simp [csub, Entry.loaded, RamWord.sub]

theorem cmul_loaded (u v : Entry) : cmul u.loaded v.loaded = cmul u v ∧ (cmul u v).loaded = cmul u v := by
  simp [cmul, Entry.loaded, RamWord.add, RamWord.sub, RamWord.mul]

theorem scaleEntry_loaded (k : Nat) (e : Entry) :
    scaleEntry k e.loaded = scaleEntry k e ∧ (scaleEntry k e).loaded = scaleEntry k e := by
  simp [scaleEntry, Entry.loaded, RamWord.div]

/-! ### Words and entries under stores -/

theorem Ram.addr_eq (r : Ram) (w : Nat) : r.addr w = r.addr 0 + 8 * w := by simp [Ram.addr]

/-- A stored word reads back. -/
theorem State.ramWord_putWords (s : State) (r : Ram) (ws : List RamWord) (w : Nat) (h : w < ws.length) :
    (s.putWords r ws).ramWord r w = ws[w] := by
  simpa [State.ramWord, Ram.addr_eq r w] using Memory.word_putWords s.mem (r.addr 0) ws w h

/-- A word of the same RAM past the stored ones is unchanged. -/
theorem State.ramWord_putWords_of_ge (s : State) (r : Ram) (ws : List RamWord) (w : Nat) (h : ws.length ≤ w) :
    (s.putWords r ws).ramWord r w = s.ramWord r w := by
  simp only [State.ramWord, State.putWords_mem]
  exact Memory.word_putWords_of_outside _ _ _ _ (by rw [Ram.addr_eq r w]; omega)

/-- The regions of the address map do not overlap (20_memory.md R61). -/
theorem Ram.disjoint (r r' : Ram) (h : r ≠ r') (w w' : Nat) (hw : w < 2 ^ 21) (hw' : w' < 2 ^ 21) :
    r.addr w + 8 ≤ r'.addr w' ∨ r'.addr w' + 8 ≤ r.addr w := by
  cases r <;> cases r' <;> simp_all [Ram.addr, Ram.base] <;> omega

/-- A word of another RAM is unchanged by a store that stays in its region. -/
theorem State.ramWord_putWords_of_ne (s : State) (r r' : Ram) (h : r' ≠ r) (ws : List RamWord) (w : Nat)
    (hl : ws.length ≤ 2 ^ 21) (hw : w < 2 ^ 21) : (s.putWords r ws).ramWord r' w = s.ramWord r' w := by
  simp only [State.ramWord, State.putWords_mem]
  refine Memory.word_putWords_of_outside _ _ _ _ ?_
  revert h
  cases r <;> cases r' <;> simp [Ram.addr, Ram.base] <;> omega

theorem flatMap_words_length (es : List Entry) : (es.flatMap Entry.words).length = 2 * es.length := by
  induction es with
  | nil => rfl
  | cons e es ih => simp [Entry.words, ih]; omega

theorem flatMap_words_getElem? (es : List Entry) (i : Nat) :
    (es.flatMap Entry.words)[2 * i]? = es[i]?.map Entry.re ∧
      (es.flatMap Entry.words)[2 * i + 1]? = es[i]?.map Entry.im := by
  induction es generalizing i with
  | nil => simp
  | cons e es ih =>
    cases i with
    | zero => simp [Entry.words]
    | succ i =>
      rw [show 2 * (i + 1) = 2 * i + 2 by omega]
      simpa [Entry.words] using ih i

/-- A stored entry reads back. -/
theorem State.entry_putEntries (s : State) (b : Buf) (es : List Entry) (i : Nat) (h : i < es.length) :
    (s.putEntries b es).entry b i = es[i] := by
  have hl := flatMap_words_length es
  obtain ⟨h₀, h₁⟩ := flatMap_words_getElem? es i
  rw [List.getElem?_eq_getElem (by omega), List.getElem?_eq_getElem h] at h₀ h₁
  simp only [State.entry, State.putEntries]
  rw [State.ramWord_putWords _ _ _ _ (by omega), State.ramWord_putWords _ _ _ _ (by omega)]
  simp only [Option.map_some, Option.some.injEq] at h₀ h₁
  rw [h₀, h₁]

/-- An entry past the stored ones is unchanged. -/
theorem State.entry_putEntries_of_ge (s : State) (b : Buf) (es : List Entry) (i : Nat) (h : es.length ≤ i) :
    (s.putEntries b es).entry b i = s.entry b i := by
  have hl := flatMap_words_length es
  simp only [State.entry, State.putEntries]
  rw [State.ramWord_putWords_of_ge _ _ _ _ (by omega), State.ramWord_putWords_of_ge _ _ _ _ (by omega)]

/-- Storing entries leaves every byte outside them alone. -/
theorem State.read_putEntries_of_outside (s : State) (b : Buf) (es : List Entry) (a : Nat)
    (h : a < (ramOf b).addr 0 ∨ (ramOf b).addr 0 + 16 * es.length ≤ a) :
    (s.putEntries b es).mem.read a = s.mem.read a := by
  have hl := flatMap_words_length es
  exact Memory.read_putWords_of_outside _ _ _ _ (by omega)

/-- Storing words leaves every byte outside them alone. -/
theorem State.read_putWords_of_outside (s : State) (r : Ram) (ws : List RamWord) (a : Nat)
    (h : a < r.addr 0 ∨ r.addr 0 + 8 * ws.length ≤ a) : (s.putWords r ws).mem.read a = s.mem.read a :=
  Memory.read_putWords_of_outside _ _ _ _ h

@[simp] theorem State.entries_length (s : State) (b : Buf) (k : Nat) : (s.entries b k).length = k := by
  simp [State.entries]

@[simp] theorem State.entries_getElem (s : State) (b : Buf) (k i : Nat) (h : i < (s.entries b k).length) :
    (s.entries b k)[i] = (s.entry b i).loaded := by
  simp [State.entries]

theorem entryAt_eq (es : List Entry) (i : Nat) (h : i < es.length) : entryAt es i = es[i] := by
  simp [entryAt, h]

/-! ### The bodies keep the number of entries -/

theorem foldl_keeps_length {α : Type} (f : List Entry → α → List Entry) (hf : ∀ es a, (f es a).length = es.length)
    (as : List α) (es : List Entry) : (as.foldl f es).length = es.length := by
  induction as generalizing es with
  | nil => rfl
  | cons a as ih => rw [List.foldl_cons, ih, hf]

@[simp] theorem bitrevEntries_length (l : Nat) (t : List Entry) : (bitrevEntries l t).length = t.length :=
  foldl_keeps_length _ (fun _ _ => List.length_set) _ _

@[simp] theorem butterflyAt_length (w : Entry) (i i' : Nat) (es : List Entry) :
    (butterflyAt w i i' es).length = es.length := by
  simp [butterflyAt]

@[simp] theorem stageGroup_length (m n : Nat) (d : Dir) (base : Nat) (es : List Entry) :
    (stageGroup m n d base es).length = es.length :=
  foldl_keeps_length _ (fun _ _ => butterflyAt_length _ _ _ _) _ _

@[simp] theorem stageEntries_length (m l n : Nat) (d : Dir) (es : List Entry) :
    (stageEntries m l n d es).length = es.length :=
  foldl_keeps_length _ (fun _ _ => stageGroup_length _ _ _ _ _) _ _

@[simp] theorem fftEntries_length (m l : Nat) (d : Dir) (es : List Entry) :
    (fftEntries m l d es).length = es.length := by
  rw [fftEntries, foldl_keeps_length _ (fun _ _ => stageEntries_length _ _ _ _ _), bitrevEntries_length]

@[simp] theorem padEntries_length (k len : Nat) (x : Nat → RamWord) : (padEntries k len x).length = k := by
  rw [padEntries, foldl_keeps_length _ (fun es i => by simp [padSample]), List.length_replicate]

end Sys2Proof.Machine
end

