-- ==== Sys2Proof/Laws/Bus.lean ====
section
/-! SUPPORT. The host's accesses: what an aligned 32-bit access of an offset does, and what an offset selects. -/

namespace Sys2Proof.Machine

/-- The step of an event in a state is the event's own effect. -/
theorem stepEvent_eq (e : Event) (s : State) : stepEvent e s = runEvent e s := rfl

/-- The address BASE + off lies at the offset off. -/
theorem Build.offset_base_add (b : Build) (off : Nat) (h : off < 0x8000000) : b.offset (b.base + off) = some off := by
  have h₁ : (b.base + off) / 0x8000000 = b.baseIndex := by unfold Build.base; omega
  have h₂ : (b.base + off) % 0x8000000 = off := by unfold Build.base; omega
  rw [Build.offset, if_pos h₁, h₂]

/-- An access of legal form at an offset of the aperture is carried out. -/
theorem hostAccess_legal (s : State) (a : Access) (off : Nat) (ho : s.build.offset a.addr = some off)
    (hl : a.legal off = true) : hostAccess a s = .next (s.busAccess off a.kind) := by
  rw [hostAccess, ho]; exact if_pos hl

/-- An aligned 32-bit access with all strobes has the legal form. -/
theorem Access.legal_word (addr off : Nat) (k : AccessKind) (h4 : off % 4 = 0) :
    (⟨addr, 32, true, k⟩ : Access).legal off = true := by
  simp [Access.legal, h4]

/-- An aligned 32-bit write of an offset of the aperture is a bus write of what the offset selects. -/
theorem stepEvent_hostWrite (s : State) (off : Nat) (v : Word32) (h : off < 0x8000000) (h4 : off % 4 = 0) :
    stepEvent (hostWrite s.build off v) s = .next (s.busWrite (targetAt s.build off) v) :=
  hostAccess_legal s ⟨s.build.base + off, 32, true, .write v⟩ off (Build.offset_base_add s.build off h)
    (Access.legal_word _ _ _ h4)

/-- An aligned 32-bit read of an offset of the aperture is a bus read of what the offset selects. -/
theorem stepEvent_hostRead (s : State) (off : Nat) (h : off < 0x8000000) (h4 : off % 4 = 0) :
    stepEvent (hostRead s.build off) s = .next (s.busRead (targetAt s.build off)) :=
  hostAccess_legal s ⟨s.build.base + off, 32, true, .read⟩ off (Build.offset_base_add s.build off h)
    (Access.legal_word _ _ _ h4)

theorem Build.kMax_le (b : Build) : b.kMax ≤ 2 ^ 20 :=
  Nat.pow_le_pow_right (by omega) (by have := b.log2KMaxIndex.isLt; simp only [Build.log2KMax]; omega)

theorem Build.kMax_pos (b : Build) : 0 < b.kMax := Nat.two_pow_pos _

/-- No RAM has more words than its region of the address map holds (20_memory.md R61). -/
theorem Ram.words_le (b : Build) (r : Ram) : r.words b ≤ 2 ^ 21 := by
  have := b.kMax_le
  cases r <;> simp only [Ram.words, Build.xMax, Build.hMax, Build.yMax] <;> omega

theorem Ram.holds_iff (b : Build) (r : Ram) (off : Nat) :
    r.holds b off = true ↔ r.base ≤ off ∧ off < r.base + 8 * r.words b := by
  simp [Ram.holds]

/-- An offset is implemented as RAM exactly if some RAM holds it. -/
theorem ramImplemented_iff (b : Build) (off : Nat) :
    ramImplemented b off = true ↔ ∃ r : Ram, r.base ≤ off ∧ off < r.base + 8 * r.words b := by
  simp only [ramImplemented, Bool.or_eq_true, Ram.holds_iff]
  constructor
  · rintro ((((h | h) | h) | h) | h)
    exacts [⟨_, h⟩, ⟨_, h⟩, ⟨_, h⟩, ⟨_, h⟩, ⟨_, h⟩]
  · rintro ⟨r, h⟩; cases r <;> simp [h]

/-- An aligned offset is implemented as RAM exactly if it is one of the two halves of a RAM word. -/
theorem ramImplemented_iff_half (b : Build) (off : Nat) (h4 : off % 4 = 0) :
    ramImplemented b off = true ↔ ∃ (r : Ram) (w : Nat), w < r.words b ∧ (off = r.addr w ∨ off = r.addr w + 4) := by
  rw [ramImplemented_iff]
  constructor
  · rintro ⟨r, h₁, h₂⟩
    refine ⟨r, (off - r.base) / 8, by omega, ?_⟩
    have : r.base % 8 = 0 := by cases r <;> rfl
    simp only [Ram.addr]; omega
  · rintro ⟨r, w, hw, h⟩
    exact ⟨r, by simp only [Ram.addr] at h; omega⟩

theorem regAt_of_large (off : Nat) (h : 0x028 < off) : regAt off = none := by
  unfold regAt; split <;> first | omega | rfl

theorem regAt_isSome (off : Nat) (h : off ≤ 0x028) (h4 : off % 4 = 0) : (regAt off).isSome = true := by
  revert h4; interval_cases off <;> simp [regAt]

theorem Ram.addr_gt (r : Ram) (w : Nat) : 0x028 < r.addr w := by cases r <;> simp [Ram.addr, Ram.base] <;> omega

/-- The low half of a RAM word is selected by its offset. -/
theorem targetAt_lo (b : Build) (r : Ram) (w : Nat) (h : w < r.words b) :
    targetAt b (r.addr w) = .ram (r.addr w) := by
  have ha : r.addr w % 4 = 0 := by cases r <;> simp [Ram.addr, Ram.base] <;> omega
  rw [targetAt, regAt_of_large _ (r.addr_gt w), (ramImplemented_iff_half b _ ha).2 ⟨r, w, h, .inl rfl⟩]
  rfl

/-- The high half of a RAM word is selected by its offset. -/
theorem targetAt_hi (b : Build) (r : Ram) (w : Nat) (h : w < r.words b) :
    targetAt b (r.addr w + 4) = .ram (r.addr w + 4) := by
  have hg := r.addr_gt w
  have ha : (r.addr w + 4) % 4 = 0 := by cases r <;> simp [Ram.addr, Ram.base] <;> omega
  rw [targetAt, regAt_of_large _ (by omega), (ramImplemented_iff_half b _ ha).2 ⟨r, w, h, .inr rfl⟩]
  rfl

/-- An aligned offset past the registers that is no half of a RAM word selects nothing (20_memory.md R66). -/
theorem targetAt_reserved (b : Build) (off : Nat) (h4 : off % 4 = 0) (h : 0x028 < off)
    (hr : ¬∃ (r : Ram) (w : Nat), w < r.words b ∧ (off = r.addr w ∨ off = r.addr w + 4)) :
    targetAt b off = .reserved := by
  have : ramImplemented b off = false := by
    rw [← Bool.not_eq_true, ramImplemented_iff_half b off h4]; exact hr
  rw [targetAt, regAt_of_large off h, this]
  rfl

/-! ### Implemented bytes -/

/-- A store of words that fit a RAM lists implemented bytes only. -/
theorem State.memImplemented_putWords (s : State) (r : Ram) (ws : List RamWord) (h : s.memImplemented = true)
    (hl : ws.length ≤ r.words s.build) : (s.putWords r ws).memImplemented = true := by
  simp only [State.memImplemented, List.all_eq_true] at h ⊢
  intro c hc
  rcases Memory.mem_putBytes _ _ _ _ hc with hc | hc
  · rw [flatMap_bytes_length] at hc
    exact (ramImplemented_iff _ _).2 ⟨r, by simp only [Ram.addr] at hc; simp only [State.putWords_build]; omega⟩
  · exact h c hc

/-- A store of words keeps the memory's invariant if they fit the RAM. -/
theorem State.memOk_putWords (s : State) (r : Ram) (ws : List RamWord) (h : s.memOk = true)
    (hl : ws.length ≤ r.words s.build) : (s.putWords r ws).memOk = true := by
  simp only [State.memOk, Bool.and_eq_true] at h ⊢
  refine ⟨⟨Memory.wf_putWords _ _ _ h.1.1, State.memImplemented_putWords s r ws h.1.2 hl⟩, ?_⟩
  exact Memory.halvesWhole_putWords _ _ _ h.2 (by cases r <;> rfl)

/-- A store of entries keeps the memory's invariant if they fit the buffer. -/
theorem State.memOk_putEntries (s : State) (b : Buf) (es : List Entry) (h : s.memOk = true)
    (hl : es.length ≤ s.build.kMax) : (s.putEntries b es).memOk = true := by
  refine State.memOk_putWords s _ _ h ?_
  rw [flatMap_words_length]
  cases b <;> simp only [ramOf, Ram.words] <;> omega

end Sys2Proof.Machine
end

