-- ==== Sys2Proof/Laws/PerInstr.lean ====
section
/-! SUPPORT. Laws of every instruction as syntax, one lemma per constructor. -/

namespace Sys2Proof.Laws.EncodeMatch

/-- The word of a well-formed instruction has its own opcode, and matches that opcode's row of the table: every
reserved and unused bit is 0 (30_encoding.md R96, R97). -/
def Statement (i : Instr) : Prop :=
  i.wellFormed = true →
    ∃ row, opcodeRow (opField (encode i)) = some row ∧ encode i &&& row.mask = row.pattern ∧
      ∃ j, instrOfOp (opField (encode i)) (encode i) = some j

theorem nop : Statement .nop := fun _ => ⟨_, rfl, by decide, _, rfl⟩

theorem size : Statement .size := fun _ => ⟨_, rfl, by decide, _, rfl⟩

theorem padx : Statement .padx := fun _ => ⟨_, rfl, by decide, _, rfl⟩

theorem padh : Statement .padh := fun _ => ⟨_, rfl, by decide, _, rfl⟩

theorem clear (b : Buf) : Statement (.clear b) := fun _ => by
  cases b <;> exact ⟨_, rfl, by decide, _, rfl⟩

theorem bitrev (b : Buf) : Statement (.bitrev b) := fun _ => by
  cases b <;> exact ⟨_, rfl, by decide, _, rfl⟩

/-- The words of STAGE, for every buffer, direction and stage number. -/
theorem stage_words : ∀ n < 32, ∀ b ∈ [Buf.A, Buf.B], ∀ d ∈ [Dir.fwd, Dir.inv],
    opField (encode (.stage b d n)) = 6 ∧ encode (.stage b d n) &&& 0xFFE0FAFF = 0x00000006 := by
  decide

theorem stage (b : Buf) (d : Dir) (n : Nat) : Statement (.stage b d n) := fun h => by
  have hn : n < 32 := by simp [Instr.wellFormed] at h; omega
  obtain ⟨h₁, h₂⟩ := stage_words n hn b (by cases b <;> simp) d (by cases d <;> simp)
  rw [h₁]
  exact ⟨_, rfl, h₂, _, rfl⟩

theorem fft (b : Buf) (d : Dir) : Statement (.fft b d) := fun _ => by
  cases b <;> cases d <;> exact ⟨_, rfl, by decide, _, rfl⟩

theorem cmul : Statement .cmul := fun _ => ⟨_, rfl, by decide, _, rfl⟩

theorem scale (b : Buf) : Statement (.scale b) := fun _ => by
  cases b <;> exact ⟨_, rfl, by decide, _, rfl⟩

theorem extract : Statement .extract := fun _ => ⟨_, rfl, by decide, _, rfl⟩

theorem conv : Statement .conv := fun _ => ⟨_, rfl, by decide, _, rfl⟩

end Sys2Proof.Laws.EncodeMatch
end

