-- ==== Sys2Proof/Laws/Twiddle.lean ====
section
/-! SUPPORT. The comparison behind the twiddle ROM decides the order of a dyadic number and a cosine, exactly. -/

namespace Sys2Proof.Machine

/-- An ordering is the order of two reals. -/
def Orders (o : Ordering) (x y : ℝ) : Prop :=
  match o with
  | .lt => x < y
  | .eq => x = y
  | .gt => y < x

theorem Orders.swap {o : Ordering} {x y : ℝ} (h : Orders o x y) : Orders o.swap y x := by
  cases o with
  | lt => exact h
  | eq => exact Eq.symm h
  | gt => exact h

/-- A map that keeps the order of two numbers, and of the swapped pair, keeps what orders them. -/
theorem Orders.of_map {o : Ordering} {x y x' y' : ℝ} (h : Orders o x' y') (hlt : x < y ↔ x' < y')
    (hgt : y < x ↔ y' < x') : Orders o x y := by
  cases o with
  | lt => exact hlt.2 h
  | eq =>
    have h' : x' = y' := h
    exact le_antisymm (not_lt.1 fun c => absurd (hgt.1 c) (by simp [h']))
      (not_lt.1 fun c => absurd (hlt.1 c) (by simp [h']))
  | gt => exact hgt.2 h

theorem orders_compare (p r : Int) (d : ℝ) (hd : 0 < d) : Orders (compare p r) (p / d) (r / d) := by
  rcases lt_trichotomy p r with h | h | h
  · rw [compare_lt_iff_lt.2 h]; exact (div_lt_div_iff_of_pos_right hd).2 (by exact_mod_cast h)
  · subst h; rw [compare_eq_iff_eq.2 rfl]; exact rfl
  · rw [compare_gt_iff_gt.2 h]; exact (div_lt_div_iff_of_pos_right hd).2 (by exact_mod_cast h)

/-- The angle (π/2)(a/Q). -/
noncomputable def quarterAngle (Q a : Nat) : ℝ := Real.pi / 2 * (a / Q)

/-- The doubling law for the dyadic number and for the cosine. -/
theorem doubled_dyadic (p : Int) (q : Nat) :
    ((2 * p * p - (2 ^ (2 * q) : Nat) : Int) : ℝ) / 2 ^ (2 * q) = 2 * (p / 2 ^ q) ^ 2 - 1 := by
  push_cast
  rw [pow_mul', div_pow, sub_div, div_self (by positivity)]
  ring

/-- Squaring keeps the order of non-negative numbers and reverses that of non-positive ones. -/
theorem double_lt_double {x y : ℝ} (hx : 0 ≤ x) (hy : 0 ≤ y) : x < y ↔ 2 * x ^ 2 - 1 < 2 * y ^ 2 - 1 := by
  rw [← pow_lt_pow_iff_left₀ hx hy (n := 2) (by norm_num)]
  constructor <;> intro h <;> linarith

theorem double_lt_double_of_nonpos {x y : ℝ} (hx : x ≤ 0) (hy : y ≤ 0) :
    x < y ↔ 2 * y ^ 2 - 1 < 2 * x ^ 2 - 1 := by
  have := double_lt_double (x := -y) (y := -x) (by linarith) (by linarith)
  rw [neg_sq, neg_sq] at this
  rw [← this]
  constructor <;> intro h <;> linarith

/-- `cmpCos` orders p / 2^q and the cosine of (π/2)(a/Q), given enough fuel to double the angle to a multiple of
π/2 (40_datapath.md R129). -/
theorem orders_cmpCos (Q : Nat) (hQ : 0 < Q) (f : Nat) : ∀ (a : Nat) (p : Int) (q : Nat), a ≤ 2 * Q →
    Q ∣ 2 ^ f * a → Orders (cmpCos (f + 2) Q a p q) (p / 2 ^ q) (Real.cos (quarterAngle Q a)) := by
  have hQ' : (0 : ℝ) < Q := by exact_mod_cast hQ
  have hpi := Real.pi_pos
  -- the angle of a fold, and the two ends
  have cos_zero : Real.cos (quarterAngle Q 0) = 1 := by simp [quarterAngle]
  have cos_quarter : Real.cos (quarterAngle Q Q) = 0 := by
    rw [quarterAngle, div_self hQ'.ne', mul_one, Real.cos_pi_div_two]
  have end_zero : ∀ (p : Int) (q : Nat), Orders (compare p (2 ^ q : Nat)) (p / 2 ^ q) 1 := fun p q => by
    have := orders_compare p (2 ^ q : Nat) (2 ^ q) (by positivity)
    push_cast at this ⊢
    rwa [div_self (by positivity)] at this
  have end_quarter : ∀ (p : Int) (q : Nat), Orders (compare p 0) (p / 2 ^ q) 0 := fun p q => by
    have := orders_compare p 0 (2 ^ q) (by positivity)
    push_cast at this
    rwa [zero_div] at this
  have below : ∀ a, 0 < a → a < Q → 0 < Real.cos (quarterAngle Q a) := fun a h₀ h₁ => by
    have h₂ : (a : ℝ) / Q < 1 := (div_lt_one hQ').2 (by exact_mod_cast h₁)
    have h₃ : 0 ≤ (a : ℝ) / Q := by positivity
    refine Real.cos_pos_of_mem_Ioo ⟨?_, ?_⟩ <;> rw [quarterAngle] <;> nlinarith
  have above : ∀ a, Q < a → a ≤ 2 * Q → Real.cos (quarterAngle Q a) < 0 := fun a h₀ h₁ => by
    have h₂ : 1 < (a : ℝ) / Q := (one_lt_div hQ').2 (by exact_mod_cast h₀)
    have h₃ : (a : ℝ) / Q ≤ 2 := (div_le_iff₀ hQ').2 (by exact_mod_cast h₁)
    refine Real.cos_neg_of_pi_div_two_lt_of_lt ?_ ?_ <;> rw [quarterAngle] <;> nlinarith
  have twice : ∀ a, Real.cos (quarterAngle Q (2 * a)) = 2 * Real.cos (quarterAngle Q a) ^ 2 - 1 := fun a => by
    rw [← Real.cos_two_mul, quarterAngle, quarterAngle]
    push_cast; congr 1; ring
  have folded : ∀ a, a ≤ 2 * Q →
      Real.cos (quarterAngle Q (2 * (2 * Q - a))) = 2 * Real.cos (quarterAngle Q a) ^ 2 - 1 := fun a ha => by
    rw [twice, show quarterAngle Q (2 * Q - a) = Real.pi - quarterAngle Q a by
      rw [quarterAngle, quarterAngle, Nat.cast_sub ha]; push_cast; field_simp, Real.cos_pi_sub, neg_sq]
  have sign : ∀ (p : Int) (q : Nat), (0 : ℝ) < p / 2 ^ q ↔ 0 < p := fun p q => by
    rw [div_pos_iff_of_pos_right (by positivity)]; exact_mod_cast Iff.rfl
  induction f with
  | zero =>
    intro a p q ha hd
    rw [pow_zero, one_mul] at hd
    obtain ⟨c, rfl⟩ := hd
    have hc : c ≤ 2 := by
      by_contra h
      have : Q * 3 ≤ Q * c := Nat.mul_le_mul_left Q (by omega)
      omega
    interval_cases c
    · simpa [cmpCos, cos_zero] using end_zero p q
    · rw [mul_one]; simpa [cmpCos, hQ.ne', cos_quarter] using end_quarter p q
    · have hcos : Real.cos (quarterAngle Q (Q * 2)) = -1 := by
        rw [quarterAngle]; push_cast
        rw [show Real.pi / 2 * ((Q : ℝ) * 2 / Q) = Real.pi by field_simp, Real.cos_pi]
      rw [cmpCos, if_neg (by omega), if_neg (by omega), if_neg (by omega)]
      by_cases hp : 0 ≤ p
      · rw [if_pos hp]
        have : (0 : ℝ) ≤ p / 2 ^ q := by
          have : (0 : ℝ) ≤ p := by exact_mod_cast hp
          positivity
        show _ < _
        rw [hcos]; linarith
      · rw [if_neg hp, show 2 * (2 * Q - Q * 2) = 0 by omega, cmpCos, if_pos rfl]
        have hx : ¬ (0 : ℝ) < p / 2 ^ q := by rw [sign]; omega
        have e := end_zero (2 * p * p - (2 ^ (2 * q) : Nat)) (2 * q)
        rw [doubled_dyadic] at e
        refine e.swap.of_map ?_ ?_ <;> rw [hcos]
        · rw [double_lt_double_of_nonpos (by linarith) (by norm_num)]; norm_num
        · rw [double_lt_double_of_nonpos (by norm_num) (by linarith)]; norm_num
  | succ f ih =>
    intro a p q ha hd
    rw [cmpCos]
    split
    · next h => subst h; rw [cos_zero]; exact end_zero p q
    split
    · next _ h => subst h; rw [cos_quarter]; exact end_quarter p q
    split
    · next h₀ _ h =>
      have hcos := below a (by omega) h
      split
      · next hp =>
        have hx : ¬ (0 : ℝ) < p / 2 ^ q := by rw [sign]; omega
        show _ < _
        linarith
      · next hp =>
        have hx : (0 : ℝ) < p / 2 ^ q := by rw [sign]; omega
        have e := ih (2 * a) (2 * p * p - (2 ^ (2 * q) : Nat)) (2 * q) (by omega)
          (by rw [show 2 ^ f * (2 * a) = 2 ^ (f + 1) * a by ring]; exact hd)
        rw [doubled_dyadic, twice] at e
        exact e.of_map (double_lt_double hx.le hcos.le) (double_lt_double hcos.le hx.le)
    · next h₀ h₁ h₂ =>
      have hcos := above a (by omega) ha
      split
      · next hp =>
        have : (0 : ℝ) ≤ p / 2 ^ q := by
          have : (0 : ℝ) ≤ p := by exact_mod_cast hp
          positivity
        show _ < _
        linarith
      · next hp =>
        have hx : ¬ (0 : ℝ) < p / 2 ^ q := by rw [sign]; omega
        have e := ih (2 * (2 * Q - a)) (2 * p * p - (2 ^ (2 * q) : Nat)) (2 * q) (by omega) (by
          rw [show 2 ^ f * (2 * (2 * Q - a)) = 2 ^ (f + 1) * (2 * Q - a) by ring, Nat.mul_sub]
          exact Nat.dvd_sub ⟨2 ^ (f + 1) * 2, by ring⟩ hd)
        rw [doubled_dyadic, folded a ha] at e
        exact e.swap.of_map (double_lt_double_of_nonpos (by linarith) hcos.le)
          (double_lt_double_of_nonpos hcos.le (by linarith))

end Sys2Proof.Machine
end

