-- ==== Sys2Proof/Tests/Slice0.lean ====
section
/-! SUPPORT. The model's own tests. Expected values come from spec/95_test_vectors.md and from the encodings of
spec/30_encoding.md, named at each test. -/

namespace Sys2Proof.Tests

open Sys2Proof.Machine

-- One theorem after the other: each `decide +kernel` waits for all earlier ones, and every waiting one holds a thread.
set_option Elab.async false

/-! ### Decoding: words written out from 30_encoding.md R97 and R104, and the EN vectors -/

theorem test_decode_nop : decode 0b00000000000000000000000000000000 = .ok .nop := by decide
theorem test_decode_size : decode 0b00000000000000000000000000000001 = .ok .size := by decide
theorem test_decode_padx : decode 0b00000000000000000000000000000010 = .ok .padx := by decide
theorem test_decode_padh : decode 0b00000000000000000000000000000011 = .ok .padh := by decide
theorem test_decode_clear_b : decode 0b00000000000000000000000100000100 = .ok (.clear .B) := by decide
theorem test_decode_clear_a : decode 0b00000000000000000000000000000100 = .ok (.clear .A) := by decide
theorem test_decode_bitrev_a : decode 0b00000000000000000000000000000101 = .ok (.bitrev .A) := by decide
theorem test_decode_bitrev_b : decode 0b00000000000000000000000100000101 = .ok (.bitrev .B) := by decide
theorem test_decode_stage_a_fwd_1 : decode 0b00000000000000010000000000000110 = .ok (.stage .A .fwd 1) := by decide
theorem test_decode_stage_b_inv_3 : decode 0b00000000000000110000010100000110 = .ok (.stage .B .inv 3) := by decide
theorem test_decode_stage_a_fwd_31 : decode 0b00000000000111110000000000000110 = .ok (.stage .A .fwd 31) := by decide
theorem test_decode_fft_a_inv : decode 0b00000000000000000000010000000111 = .ok (.fft .A .inv) := by decide
theorem test_decode_fft_b_fwd : decode 0b00000000000000000000000100000111 = .ok (.fft .B .fwd) := by decide
theorem test_decode_cmul : decode 0b00000000000000000000000000001000 = .ok .cmul := by decide
theorem test_decode_scale_a : decode 0b00000000000000000000000000001001 = .ok (.scale .A) := by decide
theorem test_decode_extract : decode 0b00000000000000000000000000001010 = .ok .extract := by decide
theorem test_decode_conv : decode 0b00000000000000000000000000001011 = .ok .conv := by decide

/-- EN-6, EN-7: reserved opcodes. -/
theorem test_decode_reserved_opcodes :
    decode 0x0000000C = .reject .reservedOpcode ∧ decode 0x000000FF = .reject .reservedOpcode := by decide

/-- EN-8 to EN-13 and EN-16: a reserved or unused bit set. -/
theorem test_decode_reserved_bits :
    [0x00000201, 0x00000205, 0x00000108, 0x00000806, 0x00200006, 0x00010007, 0x80000000].map decode =
      List.replicate 7 (.reject .reservedBits) := by decide

/-- The encodings of 30_encoding.md R104's examples. -/
theorem test_encode_examples :
    encode (.clear .B) = 0x00000104 ∧ encode (.stage .A .fwd 1) = 0x00010006 ∧
      encode (.stage .B .inv 3) = 0x00030506 ∧ encode (.fft .A .inv) = 0x00000407 ∧
      encode (.fft .B .fwd) = 0x00000107 ∧ encode (.scale .A) = 0x00000009 := by decide

theorem test_decodeTableWord : decodeTableWord 32 0x00030506 = some (.stage .B .inv 3) ∧
    decodeTableWord 32 0x0000000C = none := by decide

/-! ### WellFormed: the one check refuses its ill-formed term -/

theorem test_wellFormed_stage : (Instr.stage .A .fwd 31).wellFormed = true := by decide
theorem test_illFormed_stage : (Instr.stage .A .fwd 32).wellFormed = false := by decide

/-! ### Small states -/

/-- The reset state of the build with LOG2_KMAX = 4 (K_MAX = 16) and BASE = 0. -/
def small : State := { State.reset with build := ⟨3, 0⟩ }

/-- A state with binary64 words in a RAM, from word 0 on. -/
def load (s : State) (r : Ram) (ws : List F64) : State := s.putWords r (ws.map RamWord.ofF64)

/-- The first n words of a RAM after an outcome; `none` for poison. -/
def words (o : Host.Outcome State Fault Refusal) (r : Ram) (n : Nat) : List (Option F64) :=
  match o with
  | .next s => (List.range n).map fun w => (s.ramWord r w).val
  | _ => []

/-- STATUS, ERR_CODE and ERR_INFO after an outcome. -/
def report (o : Host.Outcome State Fault Refusal) : List Word32 :=
  match o with
  | .next s => [s.readReg .status, s.readReg .errCode, s.readReg .errInfo]
  | _ => []

/-- LOG2K, P_LEN and STATUS after an outcome. -/
def sizes (o : Host.Outcome State Fault Refusal) : List Nat :=
  match o with
  | .next s => [s.l, s.p, (s.readReg .status).toNat]
  | _ => []

/-- The bus response after an outcome. -/
def response (o : Host.Outcome State Fault Refusal) : Option BusResponse :=
  match o with
  | .next s => some s.bus
  | _ => none

/-- 1.0, 2.0, 3.0, 4.0 and -2.0. -/
abbrev f1 : F64 := 0x3FF0000000000000
abbrev f2 : F64 := 0x4000000000000000
abbrev f3 : F64 := 0x4008000000000000
abbrev f4 : F64 := 0x4010000000000000
abbrev fm2 : F64 := 0xC000000000000000

/-! ### Arithmetic (DP-4, SC-1, DP-1) -/

theorem test_fadd_dp4 :
    fadd 0 0x8000000000000000 = 0 ∧ fadd 0x8000000000000000 0x8000000000000000 = 0x8000000000000000 ∧
      fadd 0x7FE1CCF385EBC8A0 0x7FE1CCF385EBC8A0 = 0x7FF0000000000000 ∧
      fadd 0x7FF0000000000000 0xFFF0000000000000 = qNaN ∧ fadd 0x7FF0000000000001 f1 = qNaN ∧
      fneg 0x7FF0000000000001 = 0xFFF0000000000001 := by decide +kernel

theorem test_fmul_dp4 :
    fmul 0x8000000000000000 0x4018000000000000 = 0x8000000000000000 ∧ fmul 0x7FF0000000000000 0 = qNaN := by
  decide +kernel

theorem test_fdiv_sc1 :
    fdiv 0x4 (f64 4) = 0x1 ∧ fdiv 0x6 (f64 4) = 0x2 ∧ fdiv 0x3 (f64 4) = 0x1 ∧ fdiv 0x5 (f64 4) = 0x1 ∧
      fdiv 0x1 (f64 4) = 0x0 ∧ fdiv 0xC008000000000000 (f64 4) = 0xBFE8000000000000 := by decide +kernel

/-- DP-1, rows 1, 2, 5 and 7. -/
theorem test_twiddle_rom_dp1 :
    romC 4 1 = 0x3FED906BCF328D46 ∧ romS 4 1 = 0x3FD87DE2A6AEA963 ∧ romC 4 2 = 0x3FE6A09E667F3BCD ∧
      romC 4 5 = 0xBFD87DE2A6AEA963 ∧ romS 4 5 = 0x3FED906BCF328D46 ∧ romC 4 7 = 0xBFED906BCF328D46 := by
  decide +kernel

/-- DP-2: w(2, 1, FORWARD) and w(3, 3, INVERSE). -/
theorem test_twiddle_dp2 :
    twiddle 4 2 1 .fwd = Entry.ofF64 0 0xBFF0000000000000 ∧
      twiddle 4 3 3 .inv = Entry.ofF64 0xBFE6A09E667F3BCD 0x3FE6A09E667F3BCD := by decide +kernel

/-- DP-3: rev_3. -/
theorem test_bitrev_dp3 : (List.range 8).map (bitrev 3) = [0, 4, 2, 6, 1, 5, 3, 7] := by decide +kernel

/-! ### Commands, one step each -/

/-- EN-1: NOP at reset. -/
theorem test_nop_en1 : report (exec .nop small) = [2, 0, 0] := by decide +kernel

/-- SZ-1: M = 2, N = 8 in REFERENCE mode. -/
theorem test_size_reference_sz1 :
    sizes (exec .size { small with mLen := 2, nLen := 8 }) = [2, 9, 0x0A] := by decide +kernel

/-- SZ-1: M = 2, N = 8 in LINEAR mode. -/
theorem test_size_linear_sz1 :
    sizes (exec .size { small with mLen := 2, nLen := 8, sizeMode := .linear }) = [4, 9, 0x02] := by decide +kernel

/-- SZ-2: the capacity check of M, and L above LOG2_KMAX. -/
theorem test_size_errors_sz2 :
    report (exec .size { small with mLen := 17, nLen := 1 }) = [4, 0x0202, 17] ∧
      report (exec .size { small with mLen := 9, nLen := 1 }) = [4, 0x0402, 5] := by decide +kernel

/-- PAD-1. -/
theorem test_padx_pad1 :
    words (exec .padx (load { small with log2k := 2, mLen := 2 } .x [f1, 0x3FE0000000000000])) .bufA 8 =
      [some f1, some 0, some 0x3FE0000000000000, some 0, some 0, some 0, some 0, some 0] := by decide +kernel

/-- PAD-2: folding. -/
theorem test_padh_pad2 :
    words (exec .padh (load { small with log2k := 2, nLen := 6 } .h
      [f1, f2, f3, f4, 0x4014000000000000, 0x4018000000000000])) .bufB 8 =
      [some 0x4018000000000000, some 0, some 0x4020000000000000, some 0, some f3, some 0, some f4, some 0] := by
  decide +kernel

/-- CL-1: words past the active region keep their contents. -/
theorem test_clear_cl1 :
    words (exec (.clear .A) (load { small with log2k := 1 } .bufA [f1, f1, f1, f1, f2])) .bufA 6 =
      [some 0, some 0, some 0, some 0, some f2, none] := by decide +kernel

/-- BR-2: a signalling NaN and -0.0 move with their bits. -/
theorem test_bitrev_br2 :
    words (exec (.bitrev .A) (load { small with log2k := 2 } .bufA
      [f1, 0, 0x7FF0000000000001, 0x8000000000000000, f3, 0, f4, 0])) .bufA 8 =
      [some f1, some 0, some f3, some 0, some 0x7FF0000000000001, some 0x8000000000000000, some f4, some 0] := by
  decide +kernel

/-- ST-2. -/
theorem test_stage_st2 :
    words (exec (.stage .A .fwd 2) (load { small with log2k := 2 } .bufA
      [f4, 0, fm2, 0, 0x4018000000000000, 0, fm2, 0])) .bufA 8 =
      [some 0x4024000000000000, some 0, some fm2, some f2, some fm2, some 0, some fm2, some fm2] := by
  decide +kernel

/-- ST-5: a stage number above L, and the LOG2K check before it. -/
theorem test_stage_errors_st5 :
    report (exec (.stage .A .fwd 3) { small with log2k := 2 }) = [4, 0x0502, 3] ∧
      report (exec (.stage .A .fwd 1) { small with log2k := 21 }) = [4, 0x0402, 21] := by decide +kernel

/-- FFT-4. -/
theorem test_fft_fft4 :
    words (exec (.fft .A .fwd) (load { small with log2k := 2 } .bufA [f1, 0, f2, 0, f3, 0, f4, 0])) .bufA 8 =
      [some 0x4024000000000000, some 0, some fm2, some f2, some fm2, some 0, some fm2, some fm2] := by
  decide +kernel

/-- FFT-4i: the inverse transform of FFT-4's result is four times the input. -/
theorem test_fft_fft4i :
    words (exec (.fft .A .inv) (load { small with log2k := 2 } .bufA
      [0x4024000000000000, 0, fm2, f2, fm2, 0, fm2, fm2])) .bufA 8 =
      [some f4, some 0, some 0x4020000000000000, some 0, some 0x4028000000000000, some 0,
        some 0x4030000000000000, some 0] := by decide +kernel

/-- CM-1. -/
theorem test_cmul_cm1 :
    words (exec .cmul (load (load small .bufA [f1, f2]) .bufB [f3, f4])) .bufA 2 =
      [some 0xC014000000000000, some 0x4024000000000000] := by decide +kernel

/-- CM-4: infinity times one. -/
theorem test_cmul_cm4 :
    words (exec .cmul (load (load small .bufA [0x7FF0000000000000, 0]) .bufB [f1, 0])) .bufA 2 =
      [some 0x7FF0000000000000, some qNaN] := by decide +kernel

/-- SC-2: at K = 1 values stay, NaNs become canonical. -/
theorem test_scale_sc2 :
    words (exec (.scale .A) (load small .bufA [0xC008000000000000, 0x7FF0000000000001])) .bufA 2 =
      [some 0xC008000000000000, some qNaN] := by decide +kernel

/-- EX-1: extraction wraps modulo K and leaves later words. -/
theorem test_extract_ex1 :
    words (exec .extract (load { small with log2k := 1, pLen := 3 } .bufA [f1, 0, f2, 0])) .y 4 =
      [some f1, some f2, some f1, none] := by decide +kernel

/-- EX-2: P_LEN = Y_MAX + 1 = 32. -/
theorem test_extract_ex2 : report (exec .extract { small with pLen := 32 }) = [4, 0x0602, 32] := by decide +kernel

/-- CONV-7: h folds, ALIASED is set, Y wraps. -/
theorem test_conv_conv7 :
    words (exec .conv (load (load { small with mLen := 1, nLen := 4 } .x [f1]) .h [f1, f2, f3, f4])) .y 4 =
      [some f4, some 0x4018000000000000, some f4, some 0x4018000000000000] := by decide +kernel

/-- CONV-1: the source's known-value scenario. -/
theorem test_conv_conv1 :
    words (exec .conv (load (load { small with mLen := 2, nLen := 2 } .x [f1, 0x3FE0000000000000]) .h
      [f1, 0xBFF0000000000000])) .y 4 = [some f1, some 0xBFE0000000000000, some 0xBFE0000000000000, none] := by
  decide +kernel

/-! ### Steps: the engine's turn, the host's accesses and reset -/

/-- EN-6 as a step: an illegal word ends in the error completion. -/
theorem test_step_illegal_en6 :
    report (step { small with eng := .running 0x0000000C }) = [4, 0x0103, 0x0000000C] := by decide +kernel

/-- EN-2 as a step from the state that has accepted the word. -/
theorem test_step_withFetchWord : report (step (small.withFetchWord 32 0x00000104)) = [2, 0, 0] := by decide +kernel

/-- RS-1: ID, with BASE = 0. -/
theorem test_read_id_rs1 :
    response (step { small with inputs := [.access ⟨0x000, 32, true, .read⟩] }) = some (.data 0x43544646) := by
  decide +kernel

/-- RS-1: CONFIG with LOG2_KMAX = 16, at BASE = 0x0800_0000. -/
theorem test_read_config_rs1 :
    response (step { small with build := ⟨15, 1⟩, inputs := [.access ⟨0x08000004, 32, true, .read⟩] }) =
      some (.data 0x00000110) := by decide +kernel

/-- RS-2: a misaligned and a narrow read get an error response. -/
theorem test_bad_access_rs2 :
    response (step { small with inputs := [.access ⟨0x002, 32, true, .read⟩] }) = some .error ∧
      response (step { small with inputs := [.access ⟨0x000, 16, true, .read⟩] }) = some .error := by decide +kernel

/-- RS-2: a reserved offset reads 0. -/
theorem test_reserved_read_rs2 :
    response (step { small with inputs := [.access ⟨0x6000000, 32, true, .read⟩] }) = some (.data 0) := by
  decide +kernel

/-- ER-1: clearing ERR keeps ERR_CODE. -/
theorem test_clear_err_er1 :
    report (step { small with
      err := true, errCode := .invalidInput, errSource := .mLen
      inputs := [.access ⟨0x00C, 32, true, .write 4⟩] }) = [0, 0x0201, 0] := by decide +kernel

/-- ER-3: a write to M_LEN while busy is dropped and sets BUSY_WR. -/
theorem test_busy_write_er3 :
    report (step { small with eng := .running 0, inputs := [.access ⟨0x01C, 32, true, .write 5⟩] }) =
      [0x11, 0, 0] := by decide +kernel

/-! ### Witnesses: for every statement with hypotheses, a concrete state and operands that meet them together -/

/-- The state a step ends in. -/
def result (o : Host.Outcome State Fault Refusal) : State :=
  match o with
  | .next s => s
  | _ => small

/-- The step ends in a next state. -/
def isNext (o : Host.Outcome State Fault Refusal) : Bool :=
  match o with
  | .next _ => true
  | _ => false

theorem next_result (o : Host.Outcome State Fault Refusal) (h : isNext o = true) : o = .next (result o) := by
  cases o <;> simp_all [isNext, result]

/-- M = 2 and N = 2 with every input word written. -/
def inputsWritten : State :=
  load (load { small with mLen := 2, nLen := 2 } .x [f1, 0x3FE0000000000000]) .h [f1, 0xBFF0000000000000]

/-- The largest REFERENCE sizes of K_MAX = 16: 2M = 16 and N = 16. -/
def atReferenceLimit : State := { small with mLen := 8, nLen := 16 }

/-- The largest LINEAR sizes: M + N - 1 = 16, at either end of M. -/
def atLinearLimit : State := { small with mLen := 16, nLen := 1, sizeMode := .linear }

/-- A state with L at its limit, LOG2_KMAX. -/
def atLog2kLimit : State := { small with log2k := 4 }

/-- The premises of SizeComputesTheSizes, ConvCompletes and ConvIsNineCommands, as one Boolean. -/
def sizesFit (s : State) : Bool :=
  decide (0 < s.m) && decide (0 < s.n) && decide (s.m ≤ s.build.kMax) && decide (s.n ≤ s.build.kMax) &&
    (!decide (s.sizeMode = .reference) || decide (2 * s.m ≤ s.build.kMax)) &&
    (!decide (s.sizeMode = .linear) || decide (s.m + s.n - 1 ≤ s.build.kMax))

theorem witness_DecodeOfEncode :
    (Instr.stage .B .inv 0).wellFormed = true ∧ (Instr.stage .B .inv 31).wellFormed = true ∧
      Instr.conv.wellFormed = true := by decide

theorem witness_EncodeOfDecode : decode 0x001F0506 = .ok (.stage .B .inv 31) := by decide

/-- The clauses of a running and of an idle engine: no event pending, and the engine's turn pending. -/
theorem witness_StepRunsTheDecodedCommand :
    let s := { small with eng := .running 0x00000104 }
    s.eng = .running 0x00000104 ∧ decode 0x00000104 = .ok (.clear .B) ∧ s.inputs = [] ∧
      ({ s with inputs := [.engine] } : State).inputs = .engine :: [] ∧ small.eng = .idle ∧ small.inputs = [] ∧
      ({ small with inputs := [.engine] } : State).inputs = .engine :: [] := by
  refine ⟨rfl, by decide, rfl, rfl, rfl, rfl, rfl⟩

/-- Both clauses: no event pending, and the engine's turn pending. -/
theorem witness_IllegalWordIsReported :
    let s := { small with eng := .running 0x0000000C }
    s.eng = .running 0x0000000C ∧ decode 0x0000000C = .reject .reservedOpcode ∧ s.inputs = [] ∧
      ({ s with inputs := [.engine] } : State).inputs = .engine :: [] := by
  refine ⟨rfl, by decide, rfl, rfl⟩

theorem witness_WordsOfTheTableDecode : 31 < 32 := by decide

/-- Both clauses: no event pending, and the engine's turn pending. -/
theorem witness_RunningCommandCompletes :
    let s := { small with eng := .running 0x0000000B }
    s.eng = .running 0x0000000B ∧ s.done = false ∧ s.err = false ∧ s.inputs = [] ∧
      ({ s with inputs := [.engine] } : State).inputs = .engine :: [] := ⟨rfl, rfl, rfl, rfl, rfl⟩

/-- The idle clause and the running clause. -/
theorem witness_CommandIssue :
    small.eng = .idle ∧ ({ small with eng := .running 3 } : State).eng = .running 3 := ⟨rfl, rfl⟩

theorem witness_SizeComputesTheSizes :
    sizesFit atReferenceLimit = true ∧ sizesFit atLinearLimit = true ∧
      sizesFit { small with mLen := 1, nLen := 16, sizeMode := .linear } = true := by decide +kernel

/-- M one past the limit in REFERENCE mode, P one past it in LINEAR mode. -/
theorem witness_SizeReportsAnOversizedTransform :
    (let s := { small with mLen := 9, nLen := 16 }
     0 < s.m ∧ 0 < s.n ∧ s.m ≤ s.build.kMax ∧ s.n ≤ s.build.kMax ∧ s.build.kMax < 2 * s.m ∧ s.sizeMode ≠ .linear) ∧
    (let s := { small with mLen := 16, nLen := 2, sizeMode := .linear }
     0 < s.m ∧ 0 < s.n ∧ s.m ≤ s.build.kMax ∧ s.n ≤ s.build.kMax ∧ s.build.kMax < s.m + s.n - 1 ∧
       s.sizeMode ≠ .reference) := by decide +kernel

theorem witness_ReferenceSizingLaw : 1 ≤ 1 ∧ 2 * 1 ≤ 2 ^ 1 := by decide

theorem witness_LinearSizingLaw :
    1 ≤ 1 ∧ 1 ≤ 16 ∧ 1 + 16 - 1 ≤ 2 ^ 4 ∧ atLinearLimit.sizeMode = .linear ∧ atLinearLimit.done = false ∧
      exec .size atLinearLimit = .next (result (exec .size atLinearLimit)) ∧
      (result (exec .size atLinearLimit)).done = true := by
  exact ⟨by decide, by decide, by decide, rfl, rfl, next_result _ (by decide +kernel), by decide +kernel⟩

/-- L at both ends of its range, and the last entry of the active region. -/
theorem witness_ClearZeroesTheActiveRegion :
    atLog2kLimit.l ≤ atLog2kLimit.build.log2KMax ∧ 15 < atLog2kLimit.k ∧ small.l ≤ small.build.log2KMax ∧
      0 < small.k := by decide +kernel

/-- M = X_MAX, and N = H_MAX, with K = 2, so that samples fold. -/
theorem witness_PaddingPlacesAndFolds :
    (let s := { small with mLen := 16, log2k := 1 }
     0 < s.m ∧ s.m ≤ s.build.kMax ∧ s.l ≤ s.build.log2KMax ∧ 1 < s.k) ∧
    (let s := { small with nLen := 16, log2k := 1 }
     0 < s.n ∧ s.n ≤ s.build.kMax ∧ s.l ≤ s.build.log2KMax ∧ 1 < s.k) := by decide +kernel

theorem witness_BitrevPermutesEntries :
    atLog2kLimit.l ≤ atLog2kLimit.build.log2KMax ∧ 15 < atLog2kLimit.k := by decide +kernel

theorem witness_BitReversalLaw : 7 < 2 ^ 3 ∧ 2 < 3 := by decide

/-- The first and the last stage of K = 16, with the last butterfly of each. -/
theorem witness_StageAppliesButterflies :
    let s := atLog2kLimit
    s.l ≤ s.build.log2KMax ∧ 1 ≤ 1 ∧ 1 ≤ s.l ∧ 7 < s.k / 2 ^ 1 ∧ 0 < 2 ^ (1 - 1) ∧ 1 ≤ 4 ∧ 4 ≤ s.l ∧
      0 < s.k / 2 ^ 4 ∧ 7 < 2 ^ (4 - 1) := by decide +kernel

/-- K = 1 (the clause of L = 0) and K = K_MAX. -/
theorem witness_FftCompletesInPlace :
    small.l ≤ small.build.log2KMax ∧ small.l = 0 ∧ atLog2kLimit.l ≤ atLog2kLimit.build.log2KMax := by
  decide +kernel

theorem witness_FftIsBitrevThenStages : atLog2kLimit.l ≤ atLog2kLimit.build.log2KMax := by decide +kernel

theorem witness_CmulMultipliesEntries :
    atLog2kLimit.l ≤ atLog2kLimit.build.log2KMax ∧ 15 < atLog2kLimit.k := by decide +kernel

theorem witness_ScaleDividesByK :
    atLog2kLimit.l ≤ atLog2kLimit.build.log2KMax ∧ 15 < atLog2kLimit.k := by decide +kernel

/-- P = Y_MAX = 31, and P = 0. -/
theorem witness_ExtractCopiesRealParts :
    (let s := { small with log2k := 4, pLen := 31 }
     s.l ≤ s.build.log2KMax ∧ s.p ≤ 2 * s.build.kMax - 1 ∧ 30 < s.p) ∧
    small.l ≤ small.build.log2KMax ∧ small.p ≤ 2 * small.build.kMax - 1 := by decide +kernel

theorem witness_ConvCompletes : sizesFit atReferenceLimit = true ∧ sizesFit atLinearLimit = true := by
  decide +kernel

theorem witness_ConvIsNineCommands : sizesFit atReferenceLimit = true ∧ sizesFit atLinearLimit = true := by
  decide +kernel

/-- A memory that differs from the first one in BUF_A. -/
theorem witness_ConvDependsOnItsInputsOnly :
    let s := inputsWritten
    let mem' := (load s .bufA [f3]).mem
    sizesFit s = true ∧ mem' ≠ s.mem ∧ (∀ i < s.m, mem'.word (Ram.x.addr i) = s.mem.word (Ram.x.addr i)) ∧
      (∀ i < s.n, mem'.word (Ram.h.addr i) = s.mem.word (Ram.h.addr i)) := by decide +kernel

theorem witness_ConvOfWrittenInputsIsDefined :
    let s := inputsWritten
    sizesFit s = true ∧ (∀ i < s.m, (s.ramWord .x i).defined = true) ∧
      (∀ i < s.n, (s.ramWord .h i).defined = true) := by decide +kernel

/-- M = 1 and N = 2, and the two exchanged. -/
theorem witness_LinearConvIsCommutative :
    let s := load (load { small with mLen := 1, nLen := 2, sizeMode := .linear } .x [f1]) .h [f2, f3]
    let s' := load (load { small with mLen := 2, nLen := 1, sizeMode := .linear } .x [f2, f3]) .h [f1]
    s.sizeMode = .linear ∧ s'.sizeMode = .linear ∧ s'.build = s.build ∧ sizesFit s = true ∧ s'.m = s.n ∧
      s'.n = s.m ∧ (∀ i < s.m, s'.ramWord .h i = s.ramWord .x i) ∧ (∀ i < s.n, s'.ramWord .x i = s.ramWord .h i) := by
  decide +kernel

/-- A state for each of the four clauses. -/
theorem witness_SizeAndConvReportBadLengths :
    small.m = 0 ∧
    (let s := { small with mLen := 1 }; 0 < s.m ∧ s.n = 0) ∧
    (let s := { small with mLen := 17, nLen := 17 }; 0 < s.n ∧ s.build.kMax < s.m) ∧
    (let s := { small with mLen := 16, nLen := 17 }; 0 < s.m ∧ s.m ≤ s.build.kMax ∧ s.build.kMax < s.n) := by
  decide +kernel

/-- A state for each of the six clauses. -/
theorem witness_PadCommandsReportErrors :
    small.m = 0 ∧ small.n = 0 ∧
    (let s := { small with mLen := 17 }; s.build.kMax < s.m) ∧
    (let s := { small with nLen := 17 }; s.build.kMax < s.n) ∧
    (let s := { small with mLen := 16, log2k := 5 }; 0 < s.m ∧ s.m ≤ s.build.kMax ∧ s.build.log2KMax < s.l) ∧
    (let s := { small with nLen := 16, log2k := 5 }; 0 < s.n ∧ s.n ≤ s.build.kMax ∧ s.build.log2KMax < s.l) := by
  decide +kernel

theorem witness_OversizedLog2kIsReported :
    Instr.stage .A .fwd 1 ∈ [.clear .A, .bitrev .A, .stage .A .fwd 1, .fft .A .fwd, .cmul, .scale .A, .extract] ∧
      small.build.log2KMax < ({ small with log2k := 5 } : State).l := by decide +kernel

/-- Stage 0, the first stage past L, and P one past Y_MAX. -/
theorem witness_StageNumberAndExtractLengthAreChecked :
    let s := { small with log2k := 4, pLen := 32 }
    s.l ≤ s.build.log2KMax ∧ s.l < 5 ∧ 2 * s.build.kMax - 1 < s.p := by decide +kernel

theorem witness_FailedCommandLeavesNoPartialResult :
    small.err = false ∧ exec .conv small = .next (result (exec .conv small)) ∧
      (result (exec .conv small)).err = true :=
  ⟨rfl, next_result _ (by decide +kernel), by decide +kernel⟩

/-- A STATUS write that clears ERR and leaves DONE at 0. -/
theorem witness_ErrorStateEnds :
    let s := { small with err := true, errCode := .invalidInput, errSource := .mLen }
    s.err = true ∧ (0x00000004 : Word32).getLsbD 2 = true ∧ s.done = false ∧ s.eng = .idle := by decide

/-- The three forms of a bad access, at the first and the last offset of the aperture. -/
theorem witness_BadAccessHasNoEffect :
    (let a : Access := ⟨0x000, 16, true, .read⟩; a.addr = small.build.base + 0x000 ∧ a.width ≠ 32) ∧
    (let a : Access := ⟨0x010, 32, false, .write 0⟩; a.addr = small.build.base + 0x010 ∧ a.allStrobes = false) ∧
    (let a : Access := ⟨0x7FFFFFF, 32, true, .read⟩
     a.addr = small.build.base + 0x7FFFFFF ∧ 0x7FFFFFF < 0x8000000 ∧ 0x7FFFFFF % 4 ≠ 0) := by decide +kernel

theorem ramWord_ne (off : Nat) (h : ∀ r : Ram, off < r.base ∨ r.base + 8 * r.words small.build ≤ off) :
    ∀ (r : Ram) (w : Nat), w < r.words small.build → off ≠ r.addr w ∧ off ≠ r.addr w + 4 := by
  intro r w hw
  have := h r
  simp only [Ram.addr]; omega

/-- The first reserved register offset, the first offset past Y's last word, and the reserved range's ends. -/
theorem witness_ReservedOffsetsReadZero :
    ∀ off ∈ [0x02C, 0x50000F8, 0x6000000, 0x7FFFFFC], off < 0x8000000 ∧ off % 4 = 0 ∧ 0x028 < off ∧
      ∀ (r : Ram) (w : Nat), w < r.words small.build → off ≠ r.addr w ∧ off ≠ r.addr w + 4 := by
  intro off hoff
  refine ⟨?_, ?_, ?_, ramWord_ne off fun r => ?_⟩ <;>
    (fin_cases hoff <;> first | decide | (cases r <;> decide +kernel))

/-- The first and the last word of a RAM; both halves written. -/
theorem witness_HalvesOfADataWord :
    let s := load small .x [f1]
    s.eng = .idle ∧ 0 < Ram.x.words s.build ∧ 30 < Ram.y.words s.build ∧ (s.ramWord .x 0).lo = some 0 ∧
      (s.ramWord .x 0).hi = some 0x3FF00000 := by decide +kernel

theorem witness_PoisonReadsAsAFreeValue :
    small.eng = .idle ∧ 30 < Ram.y.words small.build ∧ (small.ramWord .y 30).lo = none ∧
      (small.ramWord .y 30).hi = none := by decide +kernel

theorem witness_IdleRegisterReads : small.eng = .idle := rfl

theorem witness_IdleRegisterWrites : small.eng = .idle := rfl

/-- A target that is a register, one that is a half of a RAM word, and one that is neither. -/
theorem witness_WritesWhileBusyAreDropped :
    ({ small with eng := .running 0 } : State).eng = .running 0 ∧ 0x010 ≠ 0x00C ∧ 0x010 ≤ 0x028 ∧
      (0 < Ram.bufA.words small.build ∧ 0x1000004 = Ram.bufA.addr 0 + 4) ∧
      ∀ (r : Ram) (w : Nat), w < r.words small.build → 0x6000000 ≠ r.addr w ∧ 0x6000000 ≠ r.addr w + 4 := by
  refine ⟨rfl, by decide, by decide, by decide +kernel, ramWord_ne _ fun r => ?_⟩
  cases r <;> decide +kernel

theorem witness_ReadsWhileBusy :
    ({ small with eng := .running 0 } : State).eng = .running 0 ∧
      ({ small with eng := .running 0 } : State).statusOk = true ∧ 0x028 ∈ [0x014, 0x018, 0x024, 0x028] ∧
      0 < Ram.bufA.words small.build ∧ 0x1000000 = Ram.bufA.addr 0 := by
  refine ⟨rfl, by decide, by decide, by decide +kernel, by decide +kernel⟩

theorem witness_CommandsKeepOtherRegisters :
    exec (.clear .A) small = .next (result (exec (.clear .A) small)) ∧ Instr.clear .A ≠ .size ∧
      Instr.clear .A ≠ .conv ∧ step small = .next (result (step small)) :=
  ⟨next_result _ (by decide +kernel), by decide, by decide, next_result _ (by decide +kernel)⟩

theorem witness_CommandsNeverWriteXOrH :
    exec .padx inputsWritten = .next (result (exec .padx inputsWritten)) ∧ 0x3000000 ≤ 0x4FFFFFF ∧
      0x4FFFFFF < 0x5000000 :=
  ⟨next_result _ (by decide +kernel), by decide, by decide⟩

/-- A SIZE that sets ALIASED. -/
theorem witness_AliasedIsWrittenBySizeAndConvOnly :
    let s := { small with mLen := 2, nLen := 8, eng := .running 0x00000001 }
    step s = .next (result (step s)) ∧ (result (step s)).aliased ≠ s.aliased ∧ s.done = false ∧
      exec .size s = .next (result (exec .size s)) ∧ (result (exec .size s)).done = true := by
  exact ⟨next_result _ (by decide +kernel), by decide +kernel, rfl, next_result _ (by decide +kernel),
    by decide +kernel⟩

/-- A dropped write that sets BUSY_WR, and a STATUS write that clears it. -/
theorem witness_BusyWrIsSticky :
    (let s := { small with eng := .running 0, inputs := [.access ⟨0x01C, 32, true, .write 5⟩] }
     s.eng = .running 0 ∧ 0x01C % 4 = 0 ∧ 0x01C ≠ 0x00C ∧ 0x01C ≤ 0x028 ∧ step s = .next (result (step s)) ∧
       s.busyWr = false ∧ (result (step s)).busyWr = true) ∧
    (let s := { small with busyWr := true, inputs := [.access ⟨0x00C, 32, true, .write 0x10⟩] }
     (0x10 : Word32).getLsbD 4 = true ∧ step s = .next (result (step s)) ∧ s.busyWr = true ∧
       (result (step s)).busyWr = false) := by
  exact ⟨⟨rfl, by decide, by decide, by decide, next_result _ (by decide +kernel), rfl, by decide +kernel⟩,
    by decide, next_result _ (by decide +kernel), rfl, by decide +kernel⟩

theorem witness_CompletionRaisesIrq :
    (let s := { small with irqEn := true, eng := .running 0 }
     s.eng = .running 0 ∧ s.done = false ∧ s.err = false ∧
       stepEvent .engine s = .next (result (stepEvent .engine s))) ∧ small.eng = .idle := by
  exact ⟨⟨rfl, rfl, rfl, next_result _ (by decide +kernel)⟩, rfl⟩

/-- The operands' ends: 1.0 and the least subnormal, which is no zero divisor. -/
theorem witness_RealOperationsAreCorrectlyRounded :
    fisFinite f1 = true ∧ fisFinite 1 = true ∧ fval 1 ≠ 0 := by
  refine ⟨by decide, by decide, ?_⟩
  have h : fint 1 = 1 := by decide +kernel
  rw [fval, h]
  positivity

/-- A NaN operand, a pair of operands that are none, and an infinity with a finite word, an agreeing infinity, an
opposite one, and a finite word that is not zero. -/
theorem witness_NaNResultsAreCanonical :
    fisNaN 0x7FF0000000000001 = true ∧ fisNaN (fadd 0x7FF0000000000001 f1) = true ∧
      fisNaN 0x7FF0000000000000 = false ∧ fisNaN 0 = false ∧ fisInf 0x7FF0000000000000 = true ∧
      fisFinite 1 = true ∧ fval 1 ≠ 0 ∧ fsign 0x7FF0000000000000 = fsign 0x7FF0000000000000 ∧
      fisInf 0xFFF0000000000000 = true ∧ fsign 0x7FF0000000000000 ≠ fsign 0xFFF0000000000000 := by
  exact ⟨by decide, by decide +kernel, by decide, by decide, by decide, by decide,
    witness_RealOperationsAreCorrectlyRounded.2.2, rfl, by decide, by decide⟩

/-- SCALE's corner case of 43_orchestrator.md R186: ±∞ / K = ±∞. -/
theorem test_fdiv_infinity :
    fdiv 0x7FF0000000000000 (f64 4) = 0x7FF0000000000000 ∧ fdiv 0xFFF0000000000000 (f64 4) = 0xFFF0000000000000 := by
  decide +kernel

theorem witness_SignsOfZeros :
    fisFinite f1 = true ∧ fisNaN (fmul f1 fm2) = false ∧ fisNaN (fdiv f1 fm2) = false := by decide +kernel

theorem witness_NegationAndPowersAreExact : 62 < 63 ∧ 20 ≤ 20 := by decide

/-- The smallest and the largest ROM, at its first and last index. -/
theorem witness_TwiddleRomIsCorrectlyRounded :
    1 ≤ 1 ∧ 0 < 2 ^ (1 - 1) ∧ 1 ≤ 20 ∧ 20 ≤ 20 ∧ 2 ≤ 20 ∧ 524287 < 2 ^ (20 - 1) ∧ fisFinite f1 = true := by decide

theorem witness_TwiddleSelection : 1 ≤ 20 ∧ 20 ≤ 20 ∧ 524287 < 2 ^ (20 - 1) := by decide

theorem witness_StepKeepsTheInvariant :
    let s := { inputsWritten with eng := .running 0x0000000B }
    s.memOk = true ∧ s.statusOk = true ∧ step s = .next (result (step s)) := by
  exact ⟨by decide +kernel, by decide +kernel, next_result _ (by decide +kernel)⟩

/-! ### Half-written words (70_reset_and_hazards.md R268) -/

/-- A word of which only the low half was written is moved as poison: EXTRACT leaves no value in either half of Y[0]. -/
theorem test_extract_half_written :
    (result (exec .extract { small with mem := small.mem.putHalf 0x1000000 (some 5), pLen := 1 })).ramWord .y 0 =
      RamWord.poison := by decide +kernel

/-- A half rewritten over a written word gives the mixed word, which is moved with its bits. -/
theorem test_extract_mixed_word :
    words (exec .extract { small with mem := (load small .bufA [f1]).mem.putHalf 0x1000000 (some 5), pLen := 1 }) .y 1 =
      [some 0x3FF0000000000005] := by decide +kernel

/-! ### The one fault -/

/-- An address past the aperture. -/
theorem test_outside_aperture :
    (match step { small with inputs := [.access ⟨0x8000000, 32, true, .read⟩] } with
      | .fault f => decide (f = .outsideAperture)
      | _ => false) = true := by decide +kernel

/-- R66: a read past the last word of Y (K_MAX = 16, so word 31) reads 0. -/
theorem test_read_past_y :
    response (step { small with inputs := [.access ⟨0x50000F8, 32, true, .read⟩] }) = some (.data 0) := by
  decide +kernel

/-- R62: the high half of X[0] is at +4. -/
theorem test_read_high_half :
    response (step { (load small .x [f1]) with inputs := [.access ⟨0x3000004, 32, true, .read⟩] }) =
      some (.data 0x3FF00000) := by decide +kernel

end Sys2Proof.Tests
end

section
/-! SUPPORT. The state's registers, memory and flags over commands, steps and host accesses (10_state.md). -/

namespace Sys2Proof.Machine

/-! ### A command as its checks and its body -/

/-- The checks of a command, in their order (60_exceptions.md R224). -/
def commandChecks : Instr → State → List (Option Err)
  | .nop, _ => []
  | .size, s => s.sizeChecks
  | .padx, s => [s.checkMNonzero, s.checkMCapacity, s.checkL s.l]
  | .padh, s => [s.checkNNonzero, s.checkNCapacity, s.checkL s.l]
  | .clear _, s => [s.checkL s.l]
  | .bitrev _, s => [s.checkL s.l]
  | .stage _ _ n, s => [s.checkL s.l, s.checkStage n]
  | .fft _ _, s => [s.checkL s.l]
  | .cmul, s => [s.checkL s.l]
  | .scale _, s => [s.checkL s.l]
  | .extract, s => [s.checkL s.l, s.checkPCapacity]
  | .conv, s => s.sizeChecks

/-- The writes of a command whose checks pass, without its completion. -/
def commandBody : Instr → State → State
  | .nop => id
  | .size => State.sizeBody
  | .padx => State.padxBody
  | .padh => State.padhBody
  | .clear b => fun s => s.putEntries b (List.replicate s.k Entry.zero)
  | .bitrev b => fun s => s.mapActive b (bitrevEntries s.l)
  | .stage b d n => fun s => s.mapActive b (stageEntries s.build.log2KMax s.l n d)
  | .fft b d => fun s => s.fftBody b d
  | .cmul => State.cmulBody
  | .scale b => fun s => s.scaleBody b
  | .extract => State.extractBody
  | .conv => State.convBody

/-- Every command has a next state: the outcome of its checks and its body. -/
theorem exec_eq_command (i : Instr) (s : State) :
    exec i s = .next (s.command (commandChecks i s) (commandBody i)) := by
  cases i <;> rfl

/-- Everything a command can do: the error completion of a check of its own, or, with all checks passed, its writes and
the successful completion (60_exceptions.md R223). -/
theorem exec_cases {i : Instr} {s t : State} (h : exec i s = .next t) :
    (∃ e, some e ∈ commandChecks i s ∧ t = s.raise e) ∨
      ((∀ c ∈ commandChecks i s, c = none) ∧ t = (commandBody i s).complete) := by
  rw [exec_eq_command, Host.Outcome.next.injEq] at h
  subst h
  exact State.command_cases s _ _

/-! What the body of every command leaves in each register. -/

@[simp] theorem commandBody_build (i : Instr) (s : State) : (commandBody i s).build = s.build := by
  cases i <;> simp [commandBody]
@[simp] theorem commandBody_sizeMode (i : Instr) (s : State) : (commandBody i s).sizeMode = s.sizeMode := by
  cases i <;> simp [commandBody]
@[simp] theorem commandBody_irqEn (i : Instr) (s : State) : (commandBody i s).irqEn = s.irqEn := by
  cases i <;> simp [commandBody]
@[simp] theorem commandBody_busyWr (i : Instr) (s : State) : (commandBody i s).busyWr = s.busyWr := by
  cases i <;> simp [commandBody]
@[simp] theorem commandBody_mLen (i : Instr) (s : State) : (commandBody i s).mLen = s.mLen := by
  cases i <;> simp [commandBody]
@[simp] theorem commandBody_nLen (i : Instr) (s : State) : (commandBody i s).nLen = s.nLen := by
  cases i <;> simp [commandBody]

/-- The registers that SIZE and CONV write are kept by the body of every other command. -/
theorem commandBody_keeps_sizes {i : Instr} (hs : i ≠ .size) (hc : i ≠ .conv) (s : State) :
    (commandBody i s).log2k = s.log2k ∧ (commandBody i s).pLen = s.pLen ∧
      (commandBody i s).aliased = s.aliased := by
  cases i <;> simp_all [commandBody]

/-- What SIZE and CONV write into LOG2K, P_LEN and ALIASED (43_orchestrator.md R181, R182). -/
theorem commandBody_writes_sizes {i : Instr} (hi : i = .size ∨ i = .conv) (s : State) :
    (commandBody i s).log2k = BitVec.ofNat 5 s.sizedL ∧ (commandBody i s).pLen = BitVec.ofNat 32 s.sizedP ∧
      (commandBody i s).aliased = aliasedFlag s.sizedP (2 ^ s.sizedL) := by
  rcases hi with rfl | rfl <;> simp [commandBody]

theorem Build.log2KMax_le (b : Build) : b.log2KMax ≤ 20 := by
  have := b.log2KMaxIndex.isLt
  simp only [Build.log2KMax]; omega

theorem State.checkL_eq_none_iff (s : State) (l : Nat) : s.checkL l = none ↔ l ≤ s.build.log2KMax := by
  simp [State.checkL]

/-- What passing all of SIZE's checks says (43_orchestrator.md R181). -/
theorem State.sizeChecks_pass_iff (s : State) :
    (∀ c ∈ s.sizeChecks, c = none) ↔
      0 < s.m ∧ 0 < s.n ∧ s.m ≤ s.build.kMax ∧ s.n ≤ s.build.kMax ∧ s.sizedL ≤ s.build.log2KMax := by
  simp [State.sizeChecks, State.checkMNonzero, State.checkNNonzero, State.checkMCapacity, State.checkNCapacity,
    State.checkL]
  exact fun _ _ => Iff.rfl

/-- After a SIZE or CONV that passed its checks, K and P are the computed ones: neither register truncates. -/
theorem sizes_fit_registers {i : Instr} {s : State} (hi : i = .size ∨ i = .conv)
    (hp : ∀ c ∈ s.sizeChecks, c = none) :
    (commandBody i s).k = 2 ^ s.sizedL ∧ (commandBody i s).p = s.sizedP := by
  obtain ⟨-, -, hm, hn, hl⟩ := (State.sizeChecks_pass_iff s).1 hp
  obtain ⟨hlog, hplen, -⟩ := commandBody_writes_sizes hi s
  have hL := s.build.log2KMax_le
  have hK := s.build.kMax_le
  have hP : s.sizedP < 2 ^ 32 := by simp only [State.sizedP, validLength]; omega
  constructor
  · rw [State.k, State.l, hlog, BitVec.toNat_ofNat, Nat.mod_eq_of_lt (by omega)]
  · rw [State.p, hplen, BitVec.toNat_ofNat, Nat.mod_eq_of_lt hP]

/-! ### What a step can do -/

/-- Everything an engine's turn can do: nothing while idle; else the running word is rejected, or is a command. -/
theorem engineTurn_cases {s t : State} (h : engineTurn s = .next t) :
    (s.eng = .idle ∧ t = s) ∨
      ∃ c, s.eng = .running c ∧
        ((∃ r, decode c = .reject r ∧ t = s.raise (illegalCommand c)) ∨ ∃ i, decode c = .ok i ∧ exec i s = .next t) := by
  unfold engineTurn at h
  split at h
  next he => exact .inl ⟨he, by simpa using h.symm⟩
  next c he =>
    refine .inr ⟨c, he, ?_⟩
    unfold runWord at h
    split at h
    next i hd => exact .inr ⟨i, hd, h⟩
    next r hd => exact .inl ⟨r, hd, by simpa using h.symm⟩

/-- Everything a host access in the aperture can do: the error response, or the read or write it asks for. -/
theorem hostAccess_cases {a : Access} {s t : State} (h : hostAccess a s = .next t) :
    ∃ off, s.build.offset a.addr = some off ∧
      (t = { s with bus := .error } ∨ (a.kind = .read ∧ t = s.busRead (targetAt s.build off)) ∨
        ∃ v, a.kind = .write v ∧ t = s.busWrite (targetAt s.build off) v) := by
  unfold hostAccess at h
  split at h
  · simp at h
  next off ho =>
    refine ⟨off, ho, ?_⟩
    split at h
    · rw [Host.Outcome.next.injEq] at h
      cases hk : a.kind with
      | read => exact .inr (.inl ⟨rfl, by rw [← h, hk]; rfl⟩)
      | write v => exact .inr (.inr ⟨v, rfl, by rw [← h, hk]; rfl⟩)
    · exact .inl (by simpa using h.symm)

/-- The engine has the turn: its own event is next, or none is (log entries 1, 19). `es` is what is left. -/
def State.engineHasTurn (s : State) (es : List Event) : Prop :=
  (s.inputs = [] ∧ es = []) ∨ s.inputs = .engine :: es

/-- Everything a step can do: a reset, a turn of the engine, or a host access. -/
theorem step_cases {s t : State} (h : step s = .next t) :
    (∃ es, s.inputs = .reset :: es ∧ t = ({ s with inputs := es } : State).afterReset) ∨
      (∃ es, s.engineHasTurn es ∧ engineTurn { s with inputs := es } = .next t) ∨
      ∃ a es, s.inputs = .access a :: es ∧ hostAccess a { s with inputs := es } = .next t := by
  unfold step at h
  split at h
  next he => exact .inr (.inl ⟨[], .inl ⟨he, rfl⟩, by rwa [← he]⟩)
  next e es he =>
    cases e with
    | access a => exact .inr (.inr ⟨a, es, he, h⟩)
    | engine => exact .inr (.inl ⟨es, .inr he, h⟩)
    | reset => exact .inl ⟨es, he, by simpa [runEvent] using h.symm⟩

/-- An engine's turn changes neither the parameters of the build nor BUSY_WR. -/
theorem engineTurn_keeps {s t : State} (h : engineTurn s = .next t) : t.build = s.build ∧ t.busyWr = s.busyWr := by
  obtain ⟨-, rfl⟩ | ⟨c, -, ⟨r, -, rfl⟩ | ⟨i, -, hx⟩⟩ := engineTurn_cases h
  · exact ⟨rfl, rfl⟩
  · exact ⟨rfl, rfl⟩
  · obtain ⟨e, -, rfl⟩ | ⟨-, rfl⟩ := exec_cases hx <;> simp

/-! ### What the host's accesses leave unchanged -/

/-- No read has a side effect (20_memory.md R67). -/
theorem State.busRead_arch (s : State) (t : Target) : (s.busRead t).arch = s.arch := by
  cases t with
  | reg r => simp only [State.busRead, State.busReadReg]; split_ifs <;> rfl
  | ram off => simp only [State.busRead, State.busReadRam]; split_ifs <;> [rfl; (split <;> rfl)]
  | reserved => rfl

@[simp] theorem State.busRead_build (s : State) (t : Target) : (s.busRead t).build = s.build :=
  (congrArg State.build (s.busRead_arch t) :)
@[simp] theorem State.busRead_aliased (s : State) (t : Target) : (s.busRead t).aliased = s.aliased :=
  (congrArg State.aliased (s.busRead_arch t) :)
@[simp] theorem State.busRead_busyWr (s : State) (t : Target) : (s.busRead t).busyWr = s.busyWr :=
  (congrArg State.busyWr (s.busRead_arch t) :)

/-- A write of STATUS does the same idle and busy (20_memory.md R71). -/
theorem State.busWrite_status (s : State) (v : Word32) :
    s.busWrite (.reg .status) v = { s.writeStatus v with bus := .written } := by
  unfold State.busWrite
  split <;> rfl

/-- What a write of anything but STATUS does while idle. -/
theorem State.busWrite_of_idle {s : State} (h : s.eng = .idle) (t : Target) (v : Word32) :
    s.busWrite t v = { s.writeIdle t v with bus := .written } := by
  simp [State.busWrite, State.busy, h]

/-- Everything a write can do while busy (20_memory.md R71). -/
theorem State.writeBusy_cases (s : State) (t : Target) (v : Word32) :
    (t = .reg .status ∧ s.writeBusy t v = s.writeStatus v) ∨ (t = .reserved ∧ s.writeBusy t v = s) ∨
      (t ≠ .reg .status ∧ t ≠ .reserved ∧ s.writeBusy t v = { s with busyWr := true }) := by
  unfold State.writeBusy
  split <;> simp_all

/-- No write changes the parameters of the build or STATUS.ALIASED. -/
theorem State.writeIdle_keeps (s : State) (t : Target) (v : Word32) :
    (s.writeIdle t v).build = s.build ∧ (s.writeIdle t v).aliased = s.aliased := by
  cases t with
  | reg r => cases r <;> exact ⟨rfl, rfl⟩
  | ram off => exact ⟨rfl, rfl⟩
  | reserved => exact ⟨rfl, rfl⟩

theorem State.writeBusy_keeps (s : State) (t : Target) (v : Word32) :
    (s.writeBusy t v).build = s.build ∧ (s.writeBusy t v).aliased = s.aliased := by
  rcases s.writeBusy_cases t v with ⟨-, h⟩ | ⟨-, h⟩ | ⟨-, -, h⟩ <;> rw [h] <;> exact ⟨rfl, rfl⟩

theorem State.busWrite_keeps (s : State) (t : Target) (v : Word32) :
    (s.busWrite t v).build = s.build ∧ (s.busWrite t v).aliased = s.aliased := by
  unfold State.busWrite
  split
  · exact s.writeBusy_keeps t v
  · exact s.writeIdle_keeps t v

/-- No host access changes the parameters of the build or STATUS.ALIASED. -/
theorem hostAccess_keeps {a : Access} {s t : State} (h : hostAccess a s = .next t) :
    t.build = s.build ∧ t.aliased = s.aliased := by
  obtain ⟨off, -, rfl | ⟨-, rfl⟩ | ⟨v, -, rfl⟩⟩ := hostAccess_cases h
  · exact ⟨rfl, rfl⟩
  · simp
  · exact s.busWrite_keeps _ v

/-- BUSY_WR after a host write (10_state.md R31, R32, 20_memory.md R71). -/
theorem State.busWrite_busyWr (s : State) (t : Target) (v : Word32) :
    (s.busWrite t v).busyWr =
      if t = .reg .status then s.busyWr && !v.getLsbD 4
      else if s.busy = true ∧ t ≠ .reserved then true
      else s.busyWr := by
  by_cases hb : s.busy = true
  · have e : (s.busWrite t v).busyWr = (s.writeBusy t v).busyWr := by simp [State.busWrite, hb]
    rw [e]
    rcases s.writeBusy_cases t v with ⟨ht, h⟩ | ⟨ht, h⟩ | ⟨ht, ht', h⟩ <;> rw [h] <;> simp [*]
  · have e : (s.busWrite t v).busyWr = (s.writeIdle t v).busyWr := by simp [State.busWrite, hb]
    rw [e]
    cases t with
    | reg r => cases r <;> simp [State.writeIdle, State.writeReg, hb]
    | ram off => simp [State.writeIdle, hb]
    | reserved => simp [State.writeIdle]

/-! ### Registers by their offsets -/

/-- The offset of a register (10_state.md R23). -/
def Reg.offset : Reg → Nat
  | .id => 0x000
  | .config => 0x004
  | .ctrl => 0x008
  | .status => 0x00C
  | .cmd => 0x010
  | .errCode => 0x014
  | .errInfo => 0x018
  | .mLen => 0x01C
  | .nLen => 0x020
  | .log2k => 0x024
  | .pLen => 0x028

theorem regAt_eq_some_iff (off : Nat) (r : Reg) : regAt off = some r ↔ off = r.offset := by
  constructor
  · intro h
    unfold regAt at h
    split at h <;> simp only [Option.some.injEq, reduceCtorEq] at h <;> subst h <;> rfl
  · rintro rfl; cases r <;> rfl

theorem targetAt_eq_reg_iff (b : Build) (off : Nat) (r : Reg) : targetAt b off = .reg r ↔ off = r.offset := by
  rw [← regAt_eq_some_iff, targetAt]
  cases regAt off with
  | some r' => simp
  | none => cases ramImplemented b off <;> simp

@[simp] theorem targetAt_offset (b : Build) (r : Reg) : targetAt b r.offset = .reg r :=
  (targetAt_eq_reg_iff b _ r).2 rfl

theorem Reg.offset_legal (r : Reg) : r.offset < 0x8000000 ∧ r.offset % 4 = 0 := by cases r <;> decide

/-- The host's write of a register. -/
theorem stepEvent_hostWrite_reg (s : State) (r : Reg) (v : Word32) :
    stepEvent (hostWrite s.build r.offset v) s = .next (s.busWrite (.reg r) v) := by
  rw [stepEvent_hostWrite s _ v r.offset_legal.1 r.offset_legal.2, targetAt_offset]

/-- The host's read of a register. -/
theorem stepEvent_hostRead_reg (s : State) (r : Reg) :
    stepEvent (hostRead s.build r.offset) s = .next (s.busReadReg r) := by
  rw [stepEvent_hostRead s _ r.offset_legal.1 r.offset_legal.2, targetAt_offset]; rfl

/-- The host's read of a register while idle returns what the register reads as, and has no side effect. -/
theorem hostRead_reg_of_idle {s : State} (h : s.eng = .idle) (r : Reg) (v : Word32) (hv : s.readReg r = v) :
    ∃ t, stepEvent (hostRead s.build r.offset) s = .next t ∧ t.bus = .data v ∧ t.arch = s.arch := by
  refine ⟨_, stepEvent_hostRead_reg s r, ?_, s.busRead_arch (.reg r)⟩
  simp [State.busReadReg, State.busy, h, hv]

/-- The host's write of a register while idle is acknowledged and does what the register does with it. -/
theorem hostWrite_reg_of_idle {s : State} (h : s.eng = .idle) (r : Reg) (v : Word32) :
    ∃ t, stepEvent (hostWrite s.build r.offset v) s = .next t ∧ t.bus = .written ∧ t.arch = (s.writeReg r v).arch :=
  ⟨_, stepEvent_hostWrite_reg s r v, rfl, by rw [State.busWrite_of_idle h]; rfl⟩

/-! ### STATUS and the other words as bits -/

/-- A flag placed at bit i has it there and nowhere else. -/
theorem flagBit_getLsbD (b : Bool) {i : Nat} (hi : i < 32) (j : Nat) :
    (flagBit b i).getLsbD j = (b && decide (j = i)) := by
  cases b with
  | false => simp [flagBit]
  | true =>
    change (BitVec.ofNat 32 (2 ^ i)).getLsbD j = _
    rw [BitVec.getLsbD_ofNat, Nat.testBit_two_pow]
    by_cases h : i = j
    · simp [← h, hi]
    · simp [h, Ne.symm h]

/-- STATUS bits 31:5 are zero (10_state.md R32). -/
theorem statusWord_getLsbD_of_ge (busy done err aliased busyWr : Bool) (j : Nat) (h : 5 ≤ j) :
    (statusWord busy done err aliased busyWr).getLsbD j = false := by
  simp [statusWord, flagBit_getLsbD, show j ≠ 0 by omega, show j ≠ 1 by omega, show j ≠ 2 by omega,
    show j ≠ 3 by omega, show j ≠ 4 by omega]

/-! ### Poison through arithmetic (10_state.md R45) -/

/-- A word holds a value exactly if both of its halves do. -/
theorem RamWord.defined_eq (w : RamWord) : w.defined = (w.lo.isSome && w.hi.isSome) := by
  obtain ⟨lo, hi⟩ := w
  cases lo <;> cases hi <;> rfl

/-- A command reads a word with a poison half as poison as a whole (70_reset_and_hazards.md R268). -/
theorem RamWord.loaded_eq (w : RamWord) :
    w.loaded = if w.lo.isSome ∧ w.hi.isSome then w else RamWord.poison := by
  obtain ⟨lo, hi⟩ := w
  cases lo <;> cases hi <;> rfl

@[simp] theorem RamWord.defined_ofF64 (v : F64) : (RamWord.ofF64 v).defined = true := by
  simp [RamWord.defined]

/-- An operation's result holds a value exactly if both operands do. -/
@[simp] theorem RamWord.defined_map₂ (f : F64 → F64 → F64) (a b : RamWord) :
    (a.map₂ f b).defined = (a.defined && b.defined) := by
  unfold RamWord.map₂ RamWord.defined
  cases a.val <;> cases b.val <;> simp

/-- Settles O56: each operation is one of two words, and a complex product is made of four words. -/
theorem poisonPropagates : Obligations.PoisonPropagates := by
  refine ⟨fun w => ⟨w.defined_eq, w.loaded_eq⟩, fun u v => ?_⟩
  refine ⟨RamWord.defined_map₂ .., RamWord.defined_map₂ .., RamWord.defined_map₂ .., RamWord.defined_map₂ .., ?_, ?_,
    fun k => ?_⟩
  · simp only [cmul, RamWord.sub, RamWord.mul, RamWord.defined_map₂]; ac_rfl
  · simp only [cmul, RamWord.add, RamWord.mul, RamWord.defined_map₂]; ac_rfl
  · simp [scaleEntry, RamWord.div]

/-! ### Registers over commands and steps -/

/-- Settles O44: a command is the error completion or its body and the completion, and a step a reset, an engine's turn
or a host access. -/
theorem commandsKeepOtherRegisters : Obligations.CommandsKeepOtherRegisters := by
  constructor
  · intro i s t h
    obtain ⟨e, -, rfl⟩ | ⟨-, rfl⟩ := exec_cases h
    · simp
    · simpa using commandBody_keeps_sizes (s := s)
  · intro s t h
    obtain ⟨es, -, rfl⟩ | ⟨es, -, he⟩ | ⟨a, es, -, ha⟩ := step_cases h
    · rfl
    · exact (engineTurn_keeps he).1
    · exact (hostAccess_keeps ha).1

/-! ### The bytes of X and H -/

/-- A body that leaves K and every byte of the X and H regions (20_memory.md R61) as they are, whenever K is no more
than any build's K_MAX. -/
def KeepsInputs (f : State → State) : Prop :=
  ∀ s : State, s.k ≤ 2 ^ 20 →
    (f s).k = s.k ∧ ∀ a, 0x3000000 ≤ a → a < 0x5000000 → (f s).mem.read a = s.mem.read a

theorem KeepsInputs.comp {f g : State → State} (hf : KeepsInputs f) (hg : KeepsInputs g) :
    KeepsInputs fun s => g (f s) := by
  intro s hk
  obtain ⟨hfk, hfr⟩ := hf s hk
  obtain ⟨hgk, hgr⟩ := hg (f s) (hfk ▸ hk)
  exact ⟨hgk.trans hfk, fun a h h' => (hgr a h h').trans (hfr a h h')⟩

/-- Storing the K entries of an active region stays within the buffer's region. -/
theorem keepsInputs_putEntries (b : Buf) (es : State → List Entry) (hl : ∀ s, (es s).length = s.k) :
    KeepsInputs fun s => s.putEntries b (es s) := by
  refine fun s hk => ⟨rfl, fun a h h' => State.read_putEntries_of_outside s b (es s) a ?_⟩
  rw [hl]
  cases b <;> simp only [ramOf, Ram.addr, Ram.base] <;> omega

theorem keepsInputs_mapActive (b : Buf) (f : State → List Entry → List Entry)
    (hl : ∀ s es, (f s es).length = es.length) : KeepsInputs fun s => s.mapActive b (f s) :=
  keepsInputs_putEntries b (fun s => f s (s.entries b s.k)) fun s => by simp [hl]

theorem keepsInputs_padxBody : KeepsInputs State.padxBody := keepsInputs_putEntries .A _ fun _ => padEntries_length ..
theorem keepsInputs_padhBody : KeepsInputs State.padhBody := keepsInputs_putEntries .B _ fun _ => padEntries_length ..
theorem keepsInputs_fftBody (b : Buf) (d : Dir) : KeepsInputs fun s => s.fftBody b d :=
  keepsInputs_mapActive b _ fun _ _ => fftEntries_length ..
theorem keepsInputs_cmulBody : KeepsInputs State.cmulBody := keepsInputs_putEntries .A _ fun s => by simp
theorem keepsInputs_scaleBody (b : Buf) : KeepsInputs fun s => s.scaleBody b :=
  keepsInputs_mapActive b _ fun _ _ => List.length_map ..

/-- The Y region lies past the X and H regions, so EXTRACT keeps them whatever P is. -/
theorem keepsInputs_extractBody : KeepsInputs State.extractBody :=
  fun s _ => ⟨rfl, fun a _ h' => State.read_putWords_of_outside s .y _ a (.inl h')⟩

/-- The steps of CONV after its sizing (43_orchestrator.md R188). -/
def convSteps (s : State) : State :=
  (((((((s.padxBody).padhBody).fftBody .A .fwd).fftBody .B .fwd).cmulBody).fftBody .A .inv).scaleBody .A).extractBody

theorem State.convBody_eq_convSteps (s : State) : s.convBody = convSteps s.sizeBody := rfl

theorem keepsInputs_convSteps : KeepsInputs convSteps :=
  (((((((keepsInputs_padxBody.comp keepsInputs_padhBody).comp (keepsInputs_fftBody .A .fwd)).comp
    (keepsInputs_fftBody .B .fwd)).comp keepsInputs_cmulBody).comp (keepsInputs_fftBody .A .inv)).comp
    (keepsInputs_scaleBody .A)).comp keepsInputs_extractBody :)

/-- A command whose checks pass leaves the X and H regions as they are: its active region fits the buffer. -/
theorem commandBody_keeps_inputs {i : Instr} {s : State} (hp : ∀ c ∈ commandChecks i s, c = none) {a : Nat}
    (h : 0x3000000 ≤ a) (h' : a < 0x5000000) : (commandBody i s).mem.read a = s.mem.read a := by
  have two_pow_le : ∀ l ≤ s.build.log2KMax, 2 ^ l ≤ 2 ^ 20 := fun l hl =>
    Nat.pow_le_pow_right (by omega) (hl.trans s.build.log2KMax_le)
  have of_body : s.checkL s.l ∈ commandChecks i s → KeepsInputs (commandBody i) →
      (commandBody i s).mem.read a = s.mem.read a := fun hc hk =>
    (hk s (two_pow_le _ ((s.checkL_eq_none_iff _).1 (hp _ hc)))).2 a h h'
  cases i with
  | nop => rfl
  | size => rfl
  | padx => exact of_body (by simp [commandChecks]) keepsInputs_padxBody
  | padh => exact of_body (by simp [commandChecks]) keepsInputs_padhBody
  | clear b => exact of_body (by simp [commandChecks]) (keepsInputs_putEntries b _ fun _ => List.length_replicate ..)
  | bitrev b => exact of_body (by simp [commandChecks]) (keepsInputs_mapActive b _ fun _ _ => bitrevEntries_length ..)
  | stage b d n =>
    exact of_body (by simp [commandChecks]) (keepsInputs_mapActive b _ fun _ _ => stageEntries_length ..)
  | fft b d => exact of_body (by simp [commandChecks]) (keepsInputs_fftBody b d)
  | cmul => exact of_body (by simp [commandChecks]) keepsInputs_cmulBody
  | scale b => exact of_body (by simp [commandChecks]) (keepsInputs_scaleBody b)
  | extract => exact of_body (by simp [commandChecks]) keepsInputs_extractBody
  | conv =>
    obtain ⟨-, -, -, -, hl⟩ := s.sizeChecks_pass_iff.1 hp
    have hk : s.sizeBody.k = 2 ^ s.sizedL := (sizes_fit_registers (.inl rfl) hp).1
    rw [commandBody, State.convBody_eq_convSteps]
    exact (keepsInputs_convSteps s.sizeBody (hk ▸ two_pow_le _ hl)).2 a h h'

/-- Settles O45: an error completion writes no memory, and a body only the buffers and Y. -/
theorem commandsNeverWriteXOrH : Obligations.CommandsNeverWriteXOrH := by
  intro i s t hx a h h'
  obtain ⟨e, -, rfl⟩ | ⟨hp, rfl⟩ := exec_cases hx
  · rfl
  · exact commandBody_keeps_inputs hp h h'

/-! ### ALIASED and BUSY_WR -/

/-- Decoding in terms of the opcode map (30_encoding.md R98). -/
theorem decode_eq_ok_iff (c : Word32) (i : Instr) :
    decode c = .ok i ↔
      instrOfOp (opField c) c = some i ∧ ∃ row, opcodeRow (opField c) = some row ∧ c &&& row.mask = row.pattern := by
  unfold decode
  cases opcodeRow (opField c) <;> cases instrOfOp (opField c) c <;> simp
  split_ifs <;> simp_all

theorem opcode_of_size_or_conv {op : Nat} {c : Word32} {i : Instr} (hi : i = .size ∨ i = .conv)
    (h : instrOfOp op c = some i) : op = 0x01 ∨ op = 0x0B := by
  unfold instrOfOp at h
  split at h <;> rcases hi with rfl | rfl <;> simp_all

/-- SIZE and CONV have no operand, so each has one command word. -/
theorem word_of_size_or_conv {c : Word32} {i : Instr} (hi : i = .size ∨ i = .conv) (h : decode c = .ok i) :
    c = 0x00000001 ∨ c = 0x0000000B := by
  obtain ⟨hop, ⟨mask, pattern⟩, hrow, hm⟩ := (decode_eq_ok_iff c i).1 h
  have whole : c &&& 0xFFFFFFFF = c := BitVec.and_allOnes
  rcases opcode_of_size_or_conv hi hop with hop | hop <;> rw [hop] at hrow <;>
    obtain ⟨rfl, rfl⟩ : 0xFFFFFFFF = mask ∧ _ = pattern := by simpa [opcodeRow] using hrow
  · exact .inl (whole.symm.trans hm)
  · exact .inr (whole.symm.trans hm)

/-- A command that changes ALIASED is SIZE or CONV and has completed successfully (10_state.md R30). -/
theorem exec_changes_aliased {i : Instr} {s t : State} (h : exec i s = .next t) (ha : t.aliased ≠ s.aliased) :
    (i = .size ∨ i = .conv) ∧ t.done = true := by
  obtain ⟨e, -, rfl⟩ | ⟨-, rfl⟩ := exec_cases h
  · exact absurd rfl ha
  · refine ⟨?_, rfl⟩
    by_contra hi
    rw [not_or] at hi
    exact ha (commandBody_keeps_sizes hi.1 hi.2 s).2.2

/-- An engine's turn that changes ALIASED completes a running SIZE or CONV successfully. -/
theorem engineTurn_changes_aliased {s t : State} (h : engineTurn s = .next t) (ha : t.aliased ≠ s.aliased) :
    (s.eng = .running 0x00000001 ∨ s.eng = .running 0x0000000B) ∧ t.done = true := by
  obtain ⟨-, rfl⟩ | ⟨c, hc, ⟨r, -, rfl⟩ | ⟨i, hd, hx⟩⟩ := engineTurn_cases h
  · exact absurd rfl ha
  · exact absurd rfl ha
  · obtain ⟨hi, hdone⟩ := exec_changes_aliased hx ha
    refine ⟨?_, hdone⟩
    rcases word_of_size_or_conv hi hd with rfl | rfl
    · exact .inl hc
    · exact .inr hc

/-- A SIZE or CONV that completes successfully sets ALIASED exactly if the computed P exceeds the computed K. -/
theorem exec_sets_aliased {i : Instr} {s t : State} (hi : i = .size ∨ i = .conv) (hs : s.done = false)
    (h : exec i s = .next t) (ht : t.done = true) : t.aliased = true ↔ t.k < t.p := by
  obtain ⟨e, -, rfl⟩ | ⟨hp, rfl⟩ := exec_cases h
  · simp [hs] at ht
  · have hp' : ∀ c ∈ s.sizeChecks, c = none := by rcases hi with rfl | rfl <;> exact hp
    obtain ⟨hk, hP⟩ := sizes_fit_registers hi hp'
    have ha := (commandBody_writes_sizes hi s).2.2
    change (commandBody i s).aliased = true ↔ (commandBody i s).k < (commandBody i s).p
    rw [hk, hP, ha, aliasedFlag, decide_eq_true_iff]

/-- Settles O46: of the three kinds of step, a host access keeps ALIASED, and an engine's turn changes it as
`engineTurn_changes_aliased` says. -/
theorem aliasedIsWrittenBySizeAndConvOnly : Obligations.AliasedIsWrittenBySizeAndConvOnly := by
  refine ⟨fun s t h ha => ?_, fun i s t hi hs h ht => exec_sets_aliased hi hs h ht⟩
  obtain ⟨es, hin, -⟩ | ⟨es, hturn, he⟩ | ⟨a, es, -, hacc⟩ := step_cases h
  · exact .inl ⟨es, hin⟩
  · obtain ⟨heng, hdone⟩ := engineTurn_changes_aliased he ha
    exact .inr ⟨hturn.imp And.left fun hin => ⟨es, hin⟩, heng, hdone⟩
  · exact absurd (hostAccess_keeps hacc).2 ha

/-- A step that changes BUSY_WR is a reset or a host write; the write's effect is that of `State.busWrite_busyWr`. -/
theorem step_changes_busyWr {s t : State} (h : step s = .next t) (hw : t.busyWr ≠ s.busyWr) :
    (t.busyWr = false ∧ ∃ es, s.inputs = .reset :: es) ∨
      ∃ a v es off, s.inputs = .access a :: es ∧ a.kind = .write v ∧ s.build.offset a.addr = some off ∧
        t = ({ s with inputs := es } : State).busWrite (targetAt s.build off) v := by
  obtain ⟨es, hin, rfl⟩ | ⟨es, -, he⟩ | ⟨a, es, hin, hacc⟩ := step_cases h
  · exact .inl ⟨rfl, es, hin⟩
  · exact absurd (engineTurn_keeps he).2 hw
  · obtain ⟨off, ho, rfl | ⟨-, rfl⟩ | ⟨v, hv, rfl⟩⟩ := hostAccess_cases hacc
    · exact absurd rfl hw
    · exact absurd (State.busRead_busyWr _ _) hw
    · exact .inr ⟨a, v, es, off, hin, hv, ho, rfl⟩

theorem State.busy_eq_true_iff (s : State) : s.busy = true ↔ ∃ c, s.eng = .running c := by
  unfold State.busy
  cases s.eng <;> simp

/-- An aligned offset of an implemented register or RAM word is no RAZ/WI location. -/
theorem targetAt_ne_reserved {b : Build} {off : Nat} (h4 : off % 4 = 0)
    (h : off ≤ 0x028 ∨ ∃ r w, w < Ram.words b r ∧ (off = r.addr w ∨ off = r.addr w + 4)) :
    targetAt b off ≠ .reserved := by
  rcases h with h | ⟨r, w, hw, rfl | rfl⟩
  · obtain ⟨r, hr⟩ := Option.isSome_iff_exists.1 (regAt_isSome off h h4)
    simp [targetAt, hr]
  · simp [targetAt_lo b r w hw]
  · simp [targetAt_hi b r w hw]

/-- Both halves of a RAM word lie in the aperture (20_memory.md R60, R61). -/
theorem Ram.addr_lt {b : Build} {r : Ram} {w : Nat} (h : w < r.words b) : r.addr w + 4 < 0x8000000 := by
  have := r.words_le b
  cases r <;> simp only [Ram.addr, Ram.base] <;> omega

theorem Ram.addr_aligned (r : Ram) (w : Nat) : r.addr w % 4 = 0 := by
  cases r <;> simp only [Ram.addr, Ram.base] <;> omega

theorem Build.addr_of_offset {b : Build} {addr off : Nat} (h : b.offset addr = some off) : addr = b.base + off := by
  unfold Build.offset at h
  split_ifs at h with hb
  simp only [Option.some.injEq] at h
  simp only [Build.base]; omega

/-- A write dropped while busy sets BUSY_WR, unless its target is STATUS or a RAZ/WI location. -/
theorem dropped_write_sets_busyWr {s : State} (hb : s.busy = true) {t : Target} (hs : t ≠ .reg .status)
    (hr : t ≠ .reserved) (v : Word32) : (s.busWrite t v).busyWr = true := by
  simp [State.busWrite_busyWr, hs, hr, hb]

/-- A write that raises BUSY_WR comes while busy. -/
theorem busy_of_write_raises_busyWr {s : State} {t : Target} {v : Word32} (h₀ : s.busyWr = false)
    (h₁ : (s.busWrite t v).busyWr = true) : s.busy = true := by
  rw [State.busWrite_busyWr] at h₁
  split_ifs at h₁ with hs hb
  · simp [h₀] at h₁
  · exact hb.1
  · simp [h₀] at h₁

/-- A write that clears BUSY_WR is a write of STATUS with bit 4. -/
theorem status_of_write_clears_busyWr {s : State} {t : Target} {v : Word32} (h₀ : s.busyWr = true)
    (h₁ : (s.busWrite t v).busyWr = false) : t = .reg .status ∧ v.getLsbD 4 = true := by
  rw [State.busWrite_busyWr] at h₁
  split_ifs at h₁ with hs hb
  · exact ⟨hs, by simpa [h₀] using h₁⟩
  · simp [h₀] at h₁

/-- Settles O47: only a reset or a host write changes BUSY_WR, and the law of a host write says how. -/
theorem busyWrIsSticky : Obligations.BusyWrIsSticky := by
  refine ⟨fun s c v off hc h4 hs h => ?_, fun s v hv => ?_, fun s t h h₀ h₁ => ?_, fun s t h h₀ h₁ => ?_,
    fun _ _ => rfl⟩
  · have hlt : off < 0x8000000 := by
      rcases h with h | ⟨r, w, hw, h⟩
      · omega
      · have := Ram.addr_lt hw; omega
    exact ⟨_, stepEvent_hostWrite s off v hlt h4, dropped_write_sets_busyWr (s.busy_eq_true_iff.2 ⟨c, hc⟩)
      (mt (targetAt_eq_reg_iff _ _ _).1 hs) (targetAt_ne_reserved h4 h) v⟩
  · exact ⟨_, stepEvent_hostWrite_reg s .status v, by simp [State.busWrite_status, -BitVec.getLsbD_eq_getElem, hv]⟩
  · obtain ⟨ht, -⟩ | ⟨a, v, es, off, hin, hv, -, rfl⟩ := step_changes_busyWr h (by simp [h₀, h₁])
    · simp [h₁] at ht
    · obtain ⟨c, hc⟩ := (State.busy_eq_true_iff _).1 
        (busy_of_write_raises_busyWr (s := { s with inputs := es }) h₀ h₁)
      exact ⟨c, a, v, es, hc, hin, hv⟩
  · obtain ⟨-, hin⟩ | ⟨a, v, es, off, hin, hv, ho, rfl⟩ := step_changes_busyWr h (by simp [h₀, h₁])
    · exact .inl hin
    · obtain ⟨hs, hbit⟩ :=
        status_of_write_clears_busyWr (s := { s with inputs := es }) h₀ h₁
      have hoff : off = 0x00C := (targetAt_eq_reg_iff _ _ _).1 hs
      exact .inr ⟨a, v, es, hin, hoff ▸ Build.addr_of_offset ho, hv, hbit⟩

/-! ### Reads and writes of the host -/

/-- While idle, a read of a half without a value draws a free value. -/
theorem busReadRam_of_poison {s : State} (hi : s.eng = .idle) {off : Nat} (h : s.mem.half off = none) :
    s.busReadRam off = s.respondFree := by
  simp [State.busReadRam, State.busy, hi, h]

/-- Settles O38, for both halves of a RAM word. -/
theorem poisonReadsAsAFreeValue : Obligations.PoisonReadsAsAFreeValue := by
  intro s r w hi hw
  have hlt := Ram.addr_lt hw
  have h4 := r.addr_aligned w
  refine ⟨fun h => ⟨s.respondFree, ?_, rfl, rfl, rfl⟩, fun h => ⟨s.respondFree, ?_, rfl, rfl, rfl⟩⟩
  · rw [stepEvent_hostRead s _ (by omega) h4, targetAt_lo _ r w hw, State.busRead, busReadRam_of_poison hi h]
  · rw [stepEvent_hostRead s _ hlt (by omega), targetAt_hi _ r w hw, State.busRead, busReadRam_of_poison hi h]

theorem Build.configWord_eq (b : Build) : b.configWord = BitVec.ofNat 32 (b.log2KMax + 256) := by
  rw [Build.configWord, Nat.add_comm]

theorem State.ctrlWord_eq (s : State) :
    s.ctrlWord = BitVec.ofNat 32 ((if s.sizeMode = .linear then 1 else 0) + (if s.irqEn then 2 else 0)) := by
  unfold State.ctrlWord
  cases s.sizeMode <;> cases s.irqEn <;> rfl

/-- STATUS of an idle block as the sum of its flags' weights. -/
theorem State.readReg_status_of_idle {s : State} (h : s.eng = .idle) :
    s.readReg .status = BitVec.ofNat 32 ((if s.done then 2 else 0) + (if s.err then 4 else 0) +
      (if s.aliased then 8 else 0) + (if s.busyWr then 16 else 0)) := by
  rw [State.readReg, State.busy, h]
  cases s.done <;> cases s.err <;> cases s.aliased <;> cases s.busyWr <;> rfl

theorem State.errCodeWord_eq (s : State) :
    s.errCodeWord = BitVec.ofNat 32 (256 * s.errSource.toNat + s.errCode.toNat) := by
  rw [State.errCodeWord, Nat.mul_comm]

/-- Settles O39: the idle read of each register, with the register's word written out. -/
theorem idleRegisterReads : Obligations.IdleRegisterReads := by
  intro s hi
  have read := hostRead_reg_of_idle hi
  simp only [List.forall_mem_cons, List.not_mem_nil, false_imp_iff, implies_true, and_true]
  exact ⟨read .id _ rfl, read .config _ s.build.configWord_eq, read .ctrl _ s.ctrlWord_eq, 
    read .status _ (State.readReg_status_of_idle hi),
    read .cmd _ rfl, read .errCode _ s.errCodeWord_eq, read .errInfo _ rfl, read .mLen _ rfl, read .nLen _ rfl,
    read .log2k _ rfl, read .pLen _ rfl⟩

theorem SizeMode.ofBool_eq (b : Bool) : SizeMode.ofBool b = if b then .linear else .reference := by
  cases b <;> rfl

/-- Settles O40: the idle write of each register, with what the register takes written out. -/
theorem idleRegisterWrites : Obligations.IdleRegisterWrites := by
  intro s v hi
  have write := fun r => hostWrite_reg_of_idle hi r v
  have ctrl : (s.writeReg .ctrl v).arch =
      { s.arch with sizeMode := if v.getLsbD 0 then .linear else .reference, irqEn := v.getLsbD 1 } := by
    rw [← SizeMode.ofBool_eq]; rfl
  simp only [List.forall_mem_cons, List.not_mem_nil, false_imp_iff, implies_true, and_true]
  exact ⟨write .id, write .config, write .errCode, write .errInfo, ctrl ▸ write .ctrl, write .mLen, write .nLen,
    write .log2k, write .pLen⟩

/-- Every read of STATUS, idle or busy, returns some STATUS word. -/
theorem busReadReg_status (s : State) : ∃ busy done err aliased busyWr,
    (s.busReadReg .status).bus = .data (statusWord busy done err aliased busyWr) := by
  unfold State.busReadReg
  split
  · exact ⟨_, _, _, _, _, rfl⟩
  · exact ⟨_, _, _, _, _, rfl⟩

/-- Settles O41: a STATUS write is `State.writeStatus` idle and busy, and a STATUS word has no bit from 5 on. -/
theorem statusWritesClearBits : Obligations.StatusWritesClearBits := by
  intro s
  refine ⟨fun v => ⟨_, stepEvent_hostWrite_reg s .status v, ?_⟩, ?_⟩
  · rw [State.busWrite_status]; rfl
  · obtain ⟨busy, done, err, aliased, busyWr, h⟩ := busReadReg_status s
    exact ⟨_, _, stepEvent_hostRead_reg s .status, h, statusWord_getLsbD_of_ge busy done err aliased busyWr⟩

/-- Settles O60: no byte is listed, no flag is set and no error is recorded. -/
theorem resetHasTheInvariant : Obligations.ResetHasTheInvariant := by
  have mem : State.reset.memOk = true := rfl
  have status : State.reset.statusOk = true := rfl
  exact ⟨mem, status⟩

end Sys2Proof.Machine
end

section
/-! SUPPORT. The invariant that every step keeps, and the host's accesses of the address map (20_memory.md). -/

namespace Sys2Proof.Machine

/-! ### The memory's invariant under the commands' stores -/

/-- The memory's invariant holds and K is no more than the K_MAX of the build: what lets a body store the K entries
of an active region. -/
def State.ActiveOk (s : State) : Prop := s.memOk = true ∧ s.k ≤ s.build.kMax

/-- What passing the LOG2K check says: the active region fits the buffers. -/
theorem State.k_le_kMax_of_checkL {s : State} (h : s.checkL s.l = none) : s.k ≤ s.build.kMax :=
  Nat.pow_le_pow_right (by omega) ((s.checkL_eq_none_iff _).1 h)

namespace State.ActiveOk

variable {s : State}

theorem putEntries (h : s.ActiveOk) (b : Buf) {es : List Entry} (hl : es.length = s.k) :
    (s.putEntries b es).ActiveOk :=
  ⟨s.memOk_putEntries b es h.1 (hl ▸ h.2), h.2⟩

theorem mapActive (h : s.ActiveOk) (b : Buf) {f : List Entry → List Entry} (hf : ∀ es, (f es).length = es.length) :
    (s.mapActive b f).ActiveOk :=
  h.putEntries b (by simp [hf])

theorem padxBody (h : s.ActiveOk) : s.padxBody.ActiveOk := h.putEntries .A (padEntries_length ..)
theorem padhBody (h : s.ActiveOk) : s.padhBody.ActiveOk := h.putEntries .B (padEntries_length ..)
theorem cmulBody (h : s.ActiveOk) : s.cmulBody.ActiveOk := h.putEntries .A (by simp)
theorem fftBody (h : s.ActiveOk) (b : Buf) (d : Dir) : (s.fftBody b d).ActiveOk :=
  h.mapActive b fun _ => fftEntries_length ..
theorem scaleBody (h : s.ActiveOk) (b : Buf) : (s.scaleBody b).ActiveOk := h.mapActive b fun _ => List.length_map ..

end State.ActiveOk

/-- EXTRACT keeps the memory's invariant if its P words fit Y. -/
theorem State.memOk_extractBody {s : State} (h : s.memOk = true) (hp : s.p ≤ s.build.yMax) :
    s.extractBody.memOk = true :=
  s.memOk_putWords .y _ h (by simpa [Ram.words] using hp)

/-- After SIZE's checks the computed P fits Y (43_orchestrator.md R181). -/
theorem State.sizedP_le_yMax {s : State} (hp : ∀ c ∈ s.sizeChecks, c = none) : s.sizedP ≤ s.build.yMax := by
  obtain ⟨-, -, hm, hn, -⟩ := s.sizeChecks_pass_iff.1 hp
  simp only [State.sizedP, validLength, Build.yMax]
  omega

/-- After SIZE's writes the active region fits the buffers. -/
theorem State.ActiveOk.sizeBody {s : State} (h : s.memOk = true) (hp : ∀ c ∈ s.sizeChecks, c = none) :
    s.sizeBody.ActiveOk := by
  obtain ⟨-, -, -, -, hl⟩ := s.sizeChecks_pass_iff.1 hp
  have hk : s.sizeBody.k = 2 ^ s.sizedL := (sizes_fit_registers (.inl rfl) hp).1
  exact ⟨h, hk ▸ Nat.pow_le_pow_right (by omega) hl⟩

/-- CONV's stores keep the memory's invariant: its steps work on the K and the P that it has just sized. -/
theorem State.memOk_convBody {s : State} (h : s.memOk = true) (hp : ∀ c ∈ s.sizeChecks, c = none) :
    s.convBody.memOk = true := by
  have hP : s.sizeBody.p = s.sizedP := (sizes_fit_registers (.inl rfl) hp).2
  have hfit : s.sizeBody.p ≤ s.sizeBody.build.yMax := hP.trans_le (State.sizedP_le_yMax hp)
  have hsteps := (((((((ActiveOk.sizeBody h hp).padxBody).padhBody).fftBody .A .fwd).fftBody .B .fwd).cmulBody).fftBody
    .A .inv).scaleBody .A
  rw [State.convBody]
  exact State.memOk_extractBody hsteps.1 (by simpa [State.p] using hfit)

/-- The body of a command whose checks pass keeps the memory's invariant. -/
theorem commandBody_memOk {i : Instr} {s : State} (hm : s.memOk = true) (hp : ∀ c ∈ commandChecks i s, c = none) :
    (commandBody i s).memOk = true := by
  have active : s.checkL s.l ∈ commandChecks i s → s.ActiveOk := fun hc =>
    ⟨hm, State.k_le_kMax_of_checkL (hp _ hc)⟩
  cases i with
  | nop => exact hm
  | size => exact hm
  | padx => exact (active (by simp [commandChecks])).padxBody.1
  | padh => exact (active (by simp [commandChecks])).padhBody.1
  | clear b => exact ((active (by simp [commandChecks])).putEntries b (List.length_replicate ..)).1
  | bitrev b => exact ((active (by simp [commandChecks])).mapActive b fun _ => bitrevEntries_length ..).1
  | stage b d n => exact ((active (by simp [commandChecks])).mapActive b fun _ => stageEntries_length ..).1
  | fft b d => exact ((active (by simp [commandChecks])).fftBody b d).1
  | cmul => exact (active (by simp [commandChecks])).cmulBody.1
  | scale b => exact ((active (by simp [commandChecks])).scaleBody b).1
  | extract =>
    have hP : s.checkPCapacity = none := hp _ (by simp [commandChecks])
    exact State.memOk_extractBody hm (by simpa [State.checkPCapacity] using hP)
  | conv => exact State.memOk_convBody hm hp

/-- The host's store of an aligned implemented half keeps the memory's invariant (20_memory.md R62). -/
theorem State.memOk_putHalf {s : State} (h : s.memOk = true) {off : Nat} (h4 : off % 4 = 0)
    (hoff : ramImplemented s.build off = true) (v : Word32) :
    ({ s with mem := s.mem.putHalf off (some v) } : State).memOk = true := by
  simp only [State.memOk, Bool.and_eq_true] at h ⊢
  obtain ⟨⟨hwf, himpl⟩, hhalves⟩ := h
  refine ⟨⟨Memory.wf_putHalf _ _ _ hwf, ?_⟩, Memory.halvesWhole_putHalf _ _ _ hhalves h4⟩
  simp only [State.memImplemented, List.all_eq_true] at himpl ⊢
  intro c hc
  rcases Memory.mem_putBytes _ _ _ _ hc with hc | hc
  · rw [halfBytes_length] at hc
    obtain ⟨r, hlo, hhi⟩ := (ramImplemented_iff _ _).1 hoff
    have hbase : r.base % 4 = 0 := by cases r <;> rfl
    exact (ramImplemented_iff _ _).2 ⟨r, by omega, by omega⟩
  · exact himpl c hc

/-! ### The status part of the invariant -/

/-- The invariant of the flags and the error record, clause by clause. -/
theorem State.statusOk_iff (s : State) : s.statusOk = true ↔
    ¬(s.done = true ∧ s.err = true) ∧
      (s.busy = true → s.done = false ∧ s.err = false ∧ s.errCode = .none) ∧
      (s.err = true → s.errCode ≠ .none) ∧ (s.done = true → s.errCode = .none) ∧
      (s.errCode = .none ↔ s.errSource = .none) := by
  simp [State.statusOk, imp_iff_not_or, and_assoc]

/-- The error completion of a running command keeps the status invariant: no flag was set before it. -/
theorem State.statusOk_raise {s : State} (h : s.statusOk = true) (hb : s.busy = true) {e : Err}
    (hc : e.code ≠ .none) (hs : e.source ≠ .none) : (s.raise e).statusOk = true := by
  rw [State.statusOk_iff] at h ⊢
  obtain ⟨-, hbusy, -⟩ := h
  obtain ⟨hdone, -⟩ := hbusy hb
  simp [State.busy, hdone, hc, hs]

/-- The successful completion of a running command keeps the status invariant: no error was recorded before it. -/
theorem State.statusOk_complete {s : State} (h : s.statusOk = true) (hb : s.busy = true) :
    s.complete.statusOk = true := by
  rw [State.statusOk_iff] at h ⊢
  obtain ⟨-, hbusy, -, -, hsource⟩ := h
  obtain ⟨-, herr, hcode⟩ := hbusy hb
  simp [State.busy, herr, hcode, hsource.1 hcode]

/-- Clearing flags keeps the status invariant. -/
theorem State.statusOk_writeStatus {s : State} (h : s.statusOk = true) (v : Word32) :
    (s.writeStatus v).statusOk = true := by
  rw [State.statusOk_iff] at h ⊢
  have hb : (s.writeStatus v).busy = s.busy := rfl
  obtain ⟨hexcl, hbusy, herr, hdone, hsource⟩ := h
  simp only [State.writeStatus_done, State.writeStatus_err, State.writeStatus_errCode, State.writeStatus_errSource, hb,
    Bool.and_eq_true]
  exact ⟨fun ⟨hd, he⟩ => hexcl ⟨hd.1, he.1⟩, fun hb => by simp [hbusy hb], fun he => herr he.1,
    fun hd => hdone hd.1, hsource⟩

/-- Issuing a command clears the flags and the error record (30_encoding.md R101). -/
theorem State.statusOk_issue (s : State) (c : Word32) : (s.issue c).statusOk = true := by
  simp [State.statusOk]

/-- The error of a failing check of a command has a code and a source (60_exceptions.md R220, R221). -/
theorem commandChecks_error {i : Instr} {s : State} {e : Err} (h : some e ∈ commandChecks i s) :
    e.code ≠ .none ∧ e.source ≠ .none := by
  have of_sub : ∀ l n, commandChecks i s ⊆ [s.checkMNonzero, s.checkNNonzero, s.checkMCapacity, s.checkNCapacity,
      s.checkL l, s.checkStage n, s.checkPCapacity] → e.code ≠ .none ∧ e.source ≠ .none := fun l n hs =>
    Err.of_checks s l n e (hs h)
  cases i with
  | size => exact of_sub s.sizedL 0 (by simp [commandChecks, State.sizeChecks])
  | conv => exact of_sub s.sizedL 0 (by simp [commandChecks, State.sizeChecks])
  | stage b d n => exact of_sub s.l n (by simp [commandChecks])
  | _ => exact of_sub s.l 0 (by simp [commandChecks])

/-- The body of a command leaves the flags DONE and ERR, the error record and the engine alone. -/
theorem commandBody_keeps_status (i : Instr) (s : State) :
    (commandBody i s).done = s.done ∧ (commandBody i s).err = s.err ∧ (commandBody i s).errCode = s.errCode ∧
      (commandBody i s).errSource = s.errSource ∧ (commandBody i s).eng = s.eng := by
  cases i <;> simp [commandBody]

theorem commandBody_busy (i : Instr) (s : State) : (commandBody i s).busy = s.busy := by
  obtain ⟨-, -, -, -, heng⟩ := commandBody_keeps_status i s
  rw [State.busy, State.busy, heng]

theorem commandBody_statusOk (i : Instr) (s : State) : (commandBody i s).statusOk = s.statusOk := by
  obtain ⟨hdone, herr, hcode, hsource, -⟩ := commandBody_keeps_status i s
  simp only [State.statusOk, commandBody_busy, hdone, herr, hcode, hsource]

/-! ### The invariant over every step -/

/-- The invariant speaks of the architectural state alone. -/
theorem State.Inv.of_arch {s t : State} (h : s.Inv) (ht : t.arch = s.arch) : t.Inv := by
  change t.arch.Inv
  rw [ht]
  exact h

/-- A command that runs keeps the invariant, however it ends. -/
theorem State.Inv.exec {i : Instr} {s t : State} (h : s.Inv) (hb : s.busy = true) (hx : exec i s = .next t) :
    t.Inv := by
  obtain ⟨hmem, hstatus⟩ := h
  obtain ⟨e, he, rfl⟩ | ⟨hp, rfl⟩ := exec_cases hx
  · obtain ⟨hc, hs⟩ := commandChecks_error he
    exact ⟨hmem, State.statusOk_raise hstatus hb hc hs⟩
  · exact ⟨commandBody_memOk hmem hp, State.statusOk_complete ((commandBody_statusOk i s).trans hstatus)
      ((commandBody_busy i s).trans hb)⟩

theorem State.Inv.engineTurn {s t : State} (h : s.Inv) (he : engineTurn s = .next t) : t.Inv := by
  obtain ⟨-, rfl⟩ | ⟨c, hc, ⟨r, -, rfl⟩ | ⟨i, -, hx⟩⟩ := engineTurn_cases he
  · exact h
  · exact ⟨h.1, State.statusOk_raise h.2 (s.busy_eq_true_iff.2 ⟨c, hc⟩) (by simp [illegalCommand])
      (by simp [illegalCommand])⟩
  · exact h.exec (s.busy_eq_true_iff.2 ⟨c, hc⟩) hx

/-- A register write while idle: only STATUS and CMD touch what the invariant speaks of. -/
theorem State.Inv.writeReg {s : State} (h : s.Inv) (r : Reg) (v : Word32) : (s.writeReg r v).Inv := by
  cases r with
  | status => exact ⟨h.1, State.statusOk_writeStatus h.2 v⟩
  | cmd => exact ⟨h.1, s.statusOk_issue v⟩
  | _ => exact h

/-- What an offset that selects a RAM half says of it. -/
theorem targetAt_eq_ram {b : Build} {off o : Nat} (h : targetAt b off = .ram o) :
    o = off ∧ ramImplemented b off = true := by
  unfold targetAt at h
  cases hr : regAt off <;> cases hi : ramImplemented b off <;> simp [hr, hi] at h
  exact ⟨h.symm, rfl⟩

/-- A write while idle keeps the invariant. -/
theorem State.Inv.writeIdle {s : State} (h : s.Inv) {off : Nat} (h4 : off % 4 = 0) (v : Word32) :
    (s.writeIdle (targetAt s.build off) v).Inv := by
  cases ht : targetAt s.build off with
  | reg r => exact h.writeReg r v
  | ram o =>
    obtain ⟨rfl, hi⟩ := targetAt_eq_ram ht
    exact ⟨State.memOk_putHalf h.1 h4 hi v, h.2⟩
  | reserved => exact h

/-- A write while busy keeps the invariant, whatever it targets. -/
theorem State.Inv.writeBusy {s : State} (h : s.Inv) (t : Target) (v : Word32) : (s.writeBusy t v).Inv := by
  obtain ⟨-, e⟩ | ⟨-, e⟩ | ⟨-, -, e⟩ := s.writeBusy_cases t v <;> rw [e]
  · exact ⟨h.1, State.statusOk_writeStatus h.2 v⟩
  · exact h
  · exact h

/-- A write of an aligned offset keeps the invariant. -/
theorem State.Inv.busWrite {s : State} (h : s.Inv) {off : Nat} (h4 : off % 4 = 0) (v : Word32) :
    (s.busWrite (targetAt s.build off) v).Inv := by
  unfold State.busWrite
  split
  · exact h.writeBusy _ v
  · exact h.writeIdle h4 v

/-- A host access in the aperture: carried out if its form is legal, else the error response. -/
theorem hostAccess_of_offset {s : State} {a : Access} {off : Nat} (ho : s.build.offset a.addr = some off) :
    hostAccess a s = .next (if a.legal off then s.busAccess off a.kind else { s with bus := .error }) := by
  simp only [hostAccess, ho]
  split_ifs <;> rfl

theorem Access.aligned_of_legal {a : Access} {off : Nat} (h : a.legal off = true) : off % 4 = 0 := by
  simp only [Access.legal, Bool.and_eq_true, decide_eq_true_eq] at h
  exact h.2

theorem State.Inv.hostAccess {s t : State} {a : Access} (h : s.Inv) (ha : hostAccess a s = .next t) : t.Inv := by
  obtain ⟨off, ho, -⟩ := hostAccess_cases ha
  rw [hostAccess_of_offset ho, Host.Outcome.next.injEq] at ha
  subst ha
  split
  next hl =>
    cases a.kind with
    | read => exact h.of_arch (s.busRead_arch _)
    | write v => exact h.busWrite (Access.aligned_of_legal hl) v
  · exact h

/-- Settles O59: a reset clears what the invariant speaks of, and an engine's turn and a host access keep it. -/
theorem stepKeepsTheInvariant : Obligations.StepKeepsTheInvariant := by
  intro s t h hstep
  obtain ⟨es, -, rfl⟩ | ⟨es, -, he⟩ | ⟨a, es, -, ha⟩ := step_cases hstep
  · exact ⟨rfl, rfl⟩
  · exact State.Inv.engineTurn (s := { s with inputs := es }) h he
  · exact State.Inv.hostAccess (s := { s with inputs := es }) h ha

/-! ### The form of an access, and the offsets that hold nothing -/

/-- Settles O35: an access of another form is not carried out. -/
theorem badAccessHasNoEffect : Obligations.BadAccessHasNoEffect := by
  intro s a off haddr hoff hbad
  have ho : s.build.offset a.addr = some off := haddr ▸ s.build.offset_base_add off hoff
  have hillegal : a.legal off = false := by
    rcases hbad with h | h | h <;> simp [Access.legal, h]
  refine ⟨{ s with bus := .error }, ?_, rfl, rfl⟩
  rw [stepEvent_eq, runEvent, hostAccess_of_offset ho, hillegal]
  rfl

/-- A write of a RAZ/WI location is acknowledged and does nothing, idle and busy (20_memory.md R66). -/
theorem State.busWrite_reserved (s : State) (v : Word32) : s.busWrite .reserved v = { s with bus := .written } := by
  unfold State.busWrite
  split <;> rfl

/-- Settles O36: such an offset selects nothing. -/
theorem reservedOffsetsReadZero : Obligations.ReservedOffsetsReadZero := by
  intro s off hoff h4 hreg hram
  have ht : targetAt s.build off = .reserved := targetAt_reserved _ off h4 hreg fun ⟨r, w, hw, h⟩ =>
    h.elim (hram r w hw).1 (hram r w hw).2
  refine ⟨⟨s.respond 0, ?_, rfl, rfl⟩, fun v => ⟨{ s with bus := .written }, ?_, rfl, rfl⟩⟩
  · rw [stepEvent_hostRead s off hoff h4, ht]; rfl
  · rw [stepEvent_hostWrite s off v hoff h4, ht, State.busWrite_reserved]

/-! ### Halves of data words -/

/-- The halves of a binary64 word determine it and are determined by it (20_memory.md R62). -/
theorem halves_append_eq_iff (hi lo : Word32) (v : F64) :
    hi ++ lo = v ↔ lo = v.extractLsb' 0 32 ∧ hi = v.extractLsb' 32 32 := by
  constructor
  · rintro rfl
    exact ⟨BitVec.extractLsb'_append_eq_right.symm, BitVec.extractLsb'_append_eq_left.symm⟩
  · rintro ⟨rfl, rfl⟩
    exact word64_of_halves v

/-- A data word has the value v exactly if its halves are v's. -/
theorem RamWord.val_eq_some_iff (w : RamWord) (v : F64) :
    w.val = some v ↔ w.lo = some (v.extractLsb' 0 32) ∧ w.hi = some (v.extractLsb' 32 32) := by
  obtain ⟨lo, hi⟩ := w
  cases lo <;> cases hi <;> simp [RamWord.val, halves_append_eq_iff]

/-- While idle, a read of a half with a value returns it. -/
theorem busReadRam_of_value {s : State} (hi : s.eng = .idle) {off : Nat} {v : Word32} (h : s.mem.half off = some v) :
    s.busReadRam off = s.respond v := by
  simp [State.busReadRam, State.busy, hi, h]

/-- While idle, the host's write of an aligned offset that selects a RAM half stores the half and does nothing else. -/
theorem hostWrite_ram_of_idle {s : State} (hi : s.eng = .idle) {off : Nat} (hoff : off < 0x8000000) (h4 : off % 4 = 0)
    (ht : targetAt s.build off = .ram off) (v : Word32) :
    stepEvent (hostWrite s.build off v) s =
      .next { s with mem := s.mem.putHalf off (some v), bus := .written } := by
  rw [stepEvent_hostWrite s off v hoff h4, ht, State.busWrite_of_idle hi]
  rfl

/-- While idle, the host's read of a RAM half that holds a value returns it. -/
theorem hostRead_ram_of_idle {s : State} (hi : s.eng = .idle) {off : Nat} (hoff : off < 0x8000000) (h4 : off % 4 = 0)
    (ht : targetAt s.build off = .ram off) {v : Word32} (h : s.mem.half off = some v) :
    stepEvent (hostRead s.build off) s = .next (s.respond v) := by
  rw [stepEvent_hostRead s off hoff h4, ht, State.busRead, busReadRam_of_value hi h]

/-- Storing the low half of a data word keeps its high half. -/
theorem Memory.word_putHalf_lo (m : Memory) (a : Nat) (h : Option Word32) :
    (m.putHalf a h).word a = ⟨h, (m.word a).hi⟩ := by
  rw [Memory.word, Memory.half_putHalf, Memory.half_putHalf_of_ne _ _ _ _ (.inr (Nat.le_refl _))]
  rfl

/-- Storing the high half of a data word keeps its low half. -/
theorem Memory.word_putHalf_hi (m : Memory) (a : Nat) (h : Option Word32) :
    (m.putHalf (a + 4) h).word a = ⟨(m.word a).lo, h⟩ := by
  rw [Memory.word, Memory.half_putHalf, Memory.half_putHalf_of_ne _ _ _ _ (.inl (Nat.le_refl _))]
  rfl

/-- Settles O37: the address map is as defined, and each half of a RAM word is a target of its own. -/
theorem halvesOfADataWord : Obligations.HalvesOfADataWord := by
  refine ⟨fun _ => ⟨rfl, rfl, rfl, rfl, rfl⟩, fun b => ⟨rfl, rfl, rfl, rfl, rfl, rfl, ?_, b.log2KMax_le, ?_⟩,
    fun _ _ => ⟨rfl, rfl⟩, fun _ => rfl, RamWord.val_eq_some_iff, fun s r w hi hw => ?_⟩
  · exact Nat.le_add_left 1 _
  · exact Nat.mul_mod_left ..
  have hlt := Ram.addr_lt hw
  have hlt' : r.addr w < 0x8000000 := by omega
  have h4 := r.addr_aligned w
  have h4' : (r.addr w + 4) % 4 = 0 := by omega
  have hlo := targetAt_lo _ r w hw
  have hhi := targetAt_hi _ r w hw
  refine ⟨fun v => ⟨_, hostWrite_ram_of_idle hi hlt' h4 hlo v, rfl, Memory.word_putHalf_lo .., fun a =>
      Memory.read_putHalf_of_outside _ _ _ a⟩,
    fun v => ⟨_, hostWrite_ram_of_idle hi hlt h4' hhi v, rfl, Memory.word_putHalf_hi .., fun a =>
      Memory.read_putHalf_of_outside _ _ _ a⟩,
    fun v h => ⟨_, hostRead_ram_of_idle hi hlt' h4 hlo h, rfl, rfl⟩,
    fun v h => ⟨_, hostRead_ram_of_idle hi hlt h4' hhi h, rfl, rfl⟩⟩

/-! ### Accesses while a command runs -/

/-- A write while busy whose target is implemented and is not STATUS is dropped and recorded in BUSY_WR. -/
theorem State.busWrite_dropped {s : State} (hb : s.busy = true) {t : Target} (hs : t ≠ .reg .status)
    (hr : t ≠ .reserved) (v : Word32) : s.busWrite t v = { s with busyWr := true, bus := .written } := by
  obtain ⟨ht, -⟩ | ⟨ht, -⟩ | ⟨-, -, e⟩ := s.writeBusy_cases t v
  · exact absurd ht hs
  · exact absurd ht hr
  · rw [State.busWrite, if_pos hb, e]

/-- Settles O42: an aligned offset is implemented, or selects nothing. -/
theorem writesWhileBusyAreDropped : Obligations.WritesWhileBusyAreDropped := by
  intro s c v off hc hoff h4 hs
  have hb : s.busy = true := s.busy_eq_true_iff.2 ⟨c, hc⟩
  refine ⟨_, stepEvent_hostWrite s off v hoff h4, fun himpl => ?_, fun hres => ?_⟩
  · rw [State.busWrite_dropped hb (mt (targetAt_eq_reg_iff _ _ _).1 hs) (targetAt_ne_reserved h4 himpl)]
    rfl
  · rw [not_or] at hres
    rw [targetAt_reserved _ off h4 (by omega) hres.2, State.busWrite_reserved]
    rfl

/-- A STATUS word bit by bit (10_state.md R27 to R31). -/
theorem statusWord_getLsbD (busy done err aliased busyWr : Bool) :
    (statusWord busy done err aliased busyWr).getLsbD 0 = busy ∧
      (statusWord busy done err aliased busyWr).getLsbD 1 = done ∧
      (statusWord busy done err aliased busyWr).getLsbD 2 = err ∧
      (statusWord busy done err aliased busyWr).getLsbD 3 = aliased ∧
      (statusWord busy done err aliased busyWr).getLsbD 4 = busyWr := by
  simp [statusWord, flagBit_getLsbD, -BitVec.getLsbD_eq_getElem]

/-- While busy, a register that the running command does not change reads as ever. -/
theorem hostRead_reg_unchanging {s : State} (hb : s.busy = true) {r : Reg} (hs : r ≠ .status)
    (hr : r.changing = false) :
    ∃ t, stepEvent (hostRead s.build r.offset) s = .next t ∧ t.bus = .data (s.readReg r) ∧ t.arch = s.arch := by
  refine ⟨_, stepEvent_hostRead_reg s r, ?_, s.busRead_arch (.reg r)⟩
  simp [State.busReadReg, hb, hs, hr]

/-- While busy, a register that the running command may be changing reads a free value (20_memory.md R71). -/
theorem State.busReadReg_changing {s : State} (hb : s.busy = true) {r : Reg} (hr : r.changing = true) :
    s.busReadReg r = s.respondFree := by
  have hs : r ≠ .status := by rintro rfl; simp [Reg.changing] at hr
  rw [State.busReadReg, if_pos hb, if_neg hs, if_pos hr]

/-- While busy, a read of a target that the running command may be changing draws a free value. -/
theorem hostRead_free_of_changing {s : State} (hb : s.busy = true) {off : Nat}
    (h : off ∈ [0x014, 0x018, 0x024, 0x028] ∨
      ∃ r w, w < Ram.words s.build r ∧ (off = r.addr w ∨ off = r.addr w + 4)) :
    stepEvent (hostRead s.build off) s = .next s.respondFree := by
  have reg : ∀ r : Reg, r.changing = true → stepEvent (hostRead s.build r.offset) s = .next s.respondFree :=
    fun r hr => by rw [stepEvent_hostRead_reg, State.busReadReg_changing hb hr]
  have ram : ∀ o, s.busRead (.ram o) = s.respondFree := fun _ => if_pos hb
  rcases h with h | ⟨r, w, hw, rfl | rfl⟩
  · simp only [List.mem_cons, List.not_mem_nil, or_false] at h
    rcases h with rfl | rfl | rfl | rfl
    exacts [reg .errCode rfl, reg .errInfo rfl, reg .log2k rfl, reg .pLen rfl]
  · have hlt := Ram.addr_lt hw
    rw [stepEvent_hostRead s _ (by omega) (r.addr_aligned w), targetAt_lo _ r w hw, ram]
  · have h4 := r.addr_aligned w
    rw [stepEvent_hostRead s _ (Ram.addr_lt hw) (by omega), targetAt_hi _ r w hw, ram]

/-- Settles O43: by the kind of location read. -/
theorem readsWhileBusy : Obligations.ReadsWhileBusy := by
  intro s c hc
  have hb : s.busy = true := s.busy_eq_true_iff.2 ⟨c, hc⟩
  refine ⟨?_, ?_, fun _ h => ⟨_, hostRead_free_of_changing hb h, rfl, rfl, rfl⟩⟩
  · have read := fun (r : Reg) => hostRead_reg_unchanging hb (r := r)
    simp only [List.forall_mem_cons, List.not_mem_nil, false_imp_iff, implies_true, and_true]
    exact ⟨read .id (by simp) rfl, s.build.configWord_eq ▸ read .config (by simp) rfl, read .ctrl (by simp) rfl,
      read .cmd (by simp) rfl, read .mLen (by simp) rfl, read .nLen (by simp) rfl⟩
  · obtain ⟨hbusy, hdone, herr, haliased, hbusyWr⟩ :=
      statusWord_getLsbD s.busy s.done s.err (Config.freeBit s.draws) s.busyWr
    have hread : stepEvent (hostRead s.build 0x00C) s = .next s.respondBusyStatus := by
      rw [← show s.busReadReg .status = s.respondBusyStatus by simp [State.busReadReg, hb]]
      exact stepEvent_hostRead_reg s .status
    refine ⟨_, _, hread, rfl, rfl, hbusy.trans hb, hdone, herr, haliased, hbusyWr, rfl, fun hok => ?_⟩
    obtain ⟨-, hclear, -⟩ := s.statusOk_iff.1 hok
    obtain ⟨hd, he, -⟩ := hclear hb
    exact ⟨hdone.trans hd, herr.trans he⟩

end Sys2Proof.Machine
end

section
/-! SUPPORT. The command words of the encoding table, and a command's life from its issue to its completion
(30_encoding.md). -/

namespace Sys2Proof.Machine

/-! ### The word of a command decodes to the command -/

/-- The word of a STAGE with a 5-bit number has the opcode of STAGE and the command's operands in their fields. -/
theorem instrOfOp_encode_stage (b : Buf) (d : Dir) : ∀ n < 32,
    instrOfOp (opField (encode (.stage b d n))) (encode (.stage b d n)) = some (.stage b d n) := by
  cases b <;> cases d <;> decide

/-- The opcode and the fields of a command's word select the command itself. -/
theorem instrOfOp_encode {i : Instr} (h : i.wellFormed = true) :
    instrOfOp (opField (encode i)) (encode i) = some i := by
  cases i with
  | stage b d n =>
    have hn : n ≤ 31 := by simpa [Instr.wellFormed] using h
    exact instrOfOp_encode_stage b d n (Nat.lt_succ_of_le hn)
  | fft b d => cases b <;> cases d <;> rfl
  | clear b | bitrev b | scale b => cases b <;> rfl
  | nop | size | padx | padh | cmul | extract | conv => rfl

/-- The word of every command matches the row of its opcode (30_encoding.md R96, R97). -/
theorem encode_matches_row (i : Instr) : Laws.EncodeMatch.Statement i := by
  cases i with
  | nop => exact Laws.EncodeMatch.nop
  | size => exact Laws.EncodeMatch.size
  | padx => exact Laws.EncodeMatch.padx
  | padh => exact Laws.EncodeMatch.padh
  | clear b => exact Laws.EncodeMatch.clear b
  | bitrev b => exact Laws.EncodeMatch.bitrev b
  | stage b d n => exact Laws.EncodeMatch.stage b d n
  | fft b d => exact Laws.EncodeMatch.fft b d
  | cmul => exact Laws.EncodeMatch.cmul
  | scale b => exact Laws.EncodeMatch.scale b
  | extract => exact Laws.EncodeMatch.extract
  | conv => exact Laws.EncodeMatch.conv

/-- Settles O1: the word matches the row of its opcode, and its opcode and fields select the command. -/
theorem decodeOfEncode : Obligations.DecodeOfEncode := by
  intro i h
  obtain ⟨row, hrow, hmatch, -⟩ := encode_matches_row i h
  exact (decode_eq_ok_iff _ i).2 ⟨instrOfOp_encode h, row, hrow, hmatch⟩

/-! ### A word that decodes is the word of its command -/

/-- Bit 8 of a word is its BUF operand in place (30_encoding.md R93, R104). -/
theorem and_bufMask (c : Word32) : c &&& 0x100#32 = bufBits (bufField c) := by
  have h : c &&& 0x100#32 = if c.getLsbD 8 then 0x100 else 0 := BitVec.and_twoPow c 8
  rw [h, bufField]
  cases c.getLsbD 8 <;> rfl

/-- Bit 10 of a word is its DIR operand in place (30_encoding.md R94, R104). -/
theorem and_dirMask (c : Word32) : c &&& 0x400#32 = dirBits (dirField c) := by
  have h : c &&& 0x400#32 = if c.getLsbD 10 then 0x400 else 0 := BitVec.and_twoPow c 10
  rw [h, dirField]
  cases c.getLsbD 10 <;> rfl

/-- Masking n bits of a word from bit k on leaves that field in place. -/
theorem and_fieldMask (c : Word32) (k n : Nat) :
    c &&& BitVec.setWidth 32 (BitVec.allOnes n) <<< k = BitVec.setWidth 32 (c.extractLsb' k n) <<< k := by
  ext i hi
  by_cases h : i < k
  · simp [h]
  · simp [h, hi, Nat.add_sub_cancel' (Nat.le_of_not_lt h), Bool.and_comm]

/-- Bits 20:16 of a word are its STAGE number in place (30_encoding.md R95, R104). -/
theorem and_stageMask (c : Word32) : c &&& 0x1F0000#32 = BitVec.ofNat 32 (stageField c) <<< 16 := by
  rw [stageField, BitVec.ofNat_toNat]
  exact and_fieldMask c 16 5

/-- The word of the command that an opcode and the fields of c select is the row's pattern with those bits of c that
the row leaves free: the free bits are the command's operand fields, and all of them. -/
theorem encode_of_instrOfOp {op : Nat} {c : Word32} {i : Instr} {row : TableRow} (hi : instrOfOp op c = some i)
    (hrow : opcodeRow op = some row) : encode i = row.pattern ||| (c &&& ~~~row.mask) := by
  have hbuf := and_bufMask c
  have hbufDir : c &&& 0x500#32 = bufBits (bufField c) ||| dirBits (dirField c) := by
    rw [← hbuf, ← and_dirMask, ← BitVec.and_or_distrib_left]; rfl
  have hbufDirStage : c &&& 0x1F0500#32 =
      bufBits (bufField c) ||| dirBits (dirField c) ||| BitVec.ofNat 32 (stageField c) <<< 16 := by
    rw [← hbufDir, ← and_stageMask, ← BitVec.and_or_distrib_left]; rfl
  unfold instrOfOp at hi
  split at hi <;> cases hi <;> cases hrow <;>
    simp [encode, hbuf, hbufDir, hbufDirStage, BitVec.or_assoc]

/-- A command read from a word is well formed: its STAGE field is 5 bits wide. -/
theorem instrOfOp_wellFormed {op : Nat} {c : Word32} {i : Instr} (h : instrOfOp op c = some i) :
    i.wellFormed = true := by
  have hstage : stageField c ≤ 31 := Nat.le_of_lt_succ (BitVec.isLt _)
  unfold instrOfOp at h
  split at h <;> cases h <;> simp [Instr.wellFormed, hstage]

/-- Settles O2: the bits that the row of the word's opcode fixes are the row's pattern, and the free ones are the
operands. -/
theorem encodeOfDecode : Obligations.EncodeOfDecode := by
  intro c i h
  obtain ⟨hi, row, hrow, hmatch⟩ := (decode_eq_ok_iff c i).1 h
  refine ⟨?_, instrOfOp_wellFormed hi⟩
  calc encode i = (c &&& row.mask) ||| (c &&& ~~~row.mask) := hmatch ▸ encode_of_instrOfOp hi hrow
    _ = c &&& (row.mask ||| ~~~row.mask) := BitVec.and_or_distrib_left.symm
    _ = c := by rw [BitVec.or_not_self, BitVec.and_allOnes]

/-! ### The words that decode -/

/-- MASK and MATCH of every row of the opcode map (30_encoding.md R97); `opcodeRow` selects from these rows. -/
def opcodeMap : List (Word32 × Word32) :=
  [(0xFFFFFFFF, 0x00000000), (0xFFFFFFFF, 0x00000001), (0xFFFFFFFF, 0x00000002), (0xFFFFFFFF, 0x00000003),
    (0xFFFFFEFF, 0x00000004), (0xFFFFFEFF, 0x00000005), (0xFFE0FAFF, 0x00000006), (0xFFFFFAFF, 0x00000007),
    (0xFFFFFFFF, 0x00000008), (0xFFFFFEFF, 0x00000009), (0xFFFFFFFF, 0x0000000A), (0xFFFFFFFF, 0x0000000B)]

/-- The row of an assigned opcode is a row of the opcode map. -/
theorem mem_opcodeMap_of_opcodeRow {op : Nat} {row : TableRow} (h : opcodeRow op = some row) :
    (row.mask, row.pattern) ∈ opcodeMap := by
  unfold opcodeRow at h
  split at h <;> cases h <;> decide

/-- Every row of the opcode map fixes all of OP, and is the row of the opcode it fixes. -/
theorem opcodeRow_of_mem_opcodeMap : ∀ row ∈ opcodeMap,
    row.1.extractLsb' 0 8 = BitVec.allOnes 8 ∧ opcodeRow (opField row.2) = some ⟨row.1, row.2⟩ := by
  simp [opcodeMap, opField, opcodeRow]

/-- A mask that covers OP keeps it. -/
theorem opField_and_of_low_ones {c m : Word32} (hm : m.extractLsb' 0 8 = BitVec.allOnes 8) :
    opField (c &&& m) = opField c := by
  rw [opField, BitVec.extractLsb'_and, hm, BitVec.and_allOnes, opField]

/-- Every opcode with a row selects a command. -/
theorem instrOfOp_of_opcodeRow {op : Nat} {row : TableRow} (h : opcodeRow op = some row) (c : Word32) :
    ∃ i, instrOfOp op c = some i := by
  unfold opcodeRow at h
  split at h <;> cases h <;> exact ⟨_, rfl⟩

/-- A word decodes exactly if it matches a row of the opcode map (30_encoding.md R97, R99). -/
theorem decode_isOk_iff (c : Word32) :
    (∃ i, decode c = .ok i) ↔ ∃ row ∈ opcodeMap, c &&& row.1 = row.2 := by
  constructor
  · rintro ⟨i, h⟩
    obtain ⟨-, row, hrow, hmatch⟩ := (decode_eq_ok_iff c i).1 h
    exact ⟨_, mem_opcodeMap_of_opcodeRow hrow, hmatch⟩
  · rintro ⟨row, hmem, hmatch⟩
    obtain ⟨hones, hrow⟩ := opcodeRow_of_mem_opcodeMap row hmem
    rw [← hmatch, opField_and_of_low_ones hones, hmatch] at hrow
    obtain ⟨i, hi⟩ := instrOfOp_of_opcodeRow hrow c
    exact ⟨i, (decode_eq_ok_iff c i).2 ⟨hi, _, hrow, hmatch⟩⟩

/-- The value of the BUF field (30_encoding.md R93). -/
def bufValue : Buf → Nat
  | .A => 0
  | .B => 1

/-- The value of the DIR field (30_encoding.md R94). -/
def dirValue : Dir → Nat
  | .fwd => 0
  | .inv => 1

/-- The word of a STAGE as the sum of its fields in place (30_encoding.md R104). -/
theorem encode_stage_eq_sum (b : Buf) (d : Dir) : ∀ n < 32,
    encode (.stage b d n) = BitVec.ofNat 32 (6 + bufValue b * 2 ^ 8 + dirValue d * 2 ^ 10 + n * 2 ^ 16) := by
  cases b <;> cases d <;> decide

/-- A well-formed command's word, however it is written, decodes to the command. -/
theorem decode_of_encode_eq {c : Word32} {i : Instr} (hc : encode i = c) (hi : i.wellFormed = true) :
    decode c = .ok i :=
  hc ▸ decodeOfEncode i hi

/-- Settles O3: a word of the table is the word of its row's command, which decodes to that command. -/
theorem wordsOfTheTableDecode : Obligations.WordsOfTheTableDecode := by
  have word := @decode_of_encode_eq
  refine ⟨decode_isOk_iff, word rfl rfl, word rfl rfl, word rfl rfl, word rfl rfl, word rfl rfl, word rfl rfl,
    word rfl rfl, fun b d n hn => ?_⟩
  have hstage : decode (BitVec.ofNat 32 (6 + bufValue b * 2 ^ 8 + dirValue d * 2 ^ 10 + n * 2 ^ 16)) =
      .ok (.stage b d n) :=
    word (encode_stage_eq_sum b d n hn) (decide_eq_true (Nat.le_of_lt_succ hn))
  cases b <;> cases d <;> exact ⟨word rfl rfl, word rfl rfl, hstage, word rfl rfl, word rfl rfl⟩

/-- Settles O4: each word is a literal, which the decoder evaluates. -/
theorem sampleWordsDecode : Obligations.SampleWordsDecode := by
  unfold Obligations.SampleWordsDecode
  decide

/-! ### The turn of the engine -/

/-- With no event pending, a step is the engine's turn (log entry 19). -/
theorem step_of_no_event {s : State} (h : s.inputs = []) : step s = engineTurn s := by
  simp only [step, h]

/-- With the engine's event next, a step uses it up and is the engine's turn (log entry 1). -/
theorem step_of_engine_event {s : State} {es : List Event} (h : s.inputs = .engine :: es) :
    step s = engineTurn { s with inputs := es } := by
  simp only [step, h, runEvent]

/-- An idle engine's turn does nothing (60_exceptions.md R239). -/
theorem engineTurn_of_idle {s : State} (h : s.eng = .idle) : engineTurn s = .next s := by
  simp [engineTurn, h]

/-- The turn of an engine whose running word decodes is the command's. -/
theorem engineTurn_of_ok {s : State} {c : Word32} {i : Instr} (h : s.eng = .running c) (hd : decode c = .ok i) :
    engineTurn s = exec i s := by
  simp [engineTurn, h, runWord, hd]

/-- The turn of an engine whose running word does not decode is the error completion (30_encoding.md R99). -/
theorem engineTurn_of_reject {s : State} {c : Word32} {r : DecodeReject} (h : s.eng = .running c)
    (hd : decode c = .reject r) : engineTurn s = .next (s.raise (illegalCommand c)) := by
  simp [engineTurn, h, runWord, hd]

/-- Settles O5: a step in which the engine has the turn is the engine's turn, in both forms. -/
theorem stepRunsTheDecodedCommand : Obligations.StepRunsTheDecodedCommand := by
  refine ⟨fun s c i hc hd => ⟨fun h => ?_, fun es h => ?_⟩, fun s hi => ⟨fun h => ?_, fun es h => ?_⟩⟩
  · rw [step_of_no_event h, engineTurn_of_ok hc hd]
  · rw [step_of_engine_event h]; exact engineTurn_of_ok hc hd
  · rw [step_of_no_event h, engineTurn_of_idle hi]
  · rw [step_of_engine_event h]; exact engineTurn_of_idle hi

/-- Settles O6: the error completion of the engine's turn writes out as stated. -/
theorem illegalWordIsReported : Obligations.IllegalWordIsReported := by
  refine fun s c r hc hd => ⟨fun h => ?_, fun es h => ?_⟩
  · rw [step_of_no_event h]; exact engineTurn_of_reject hc hd
  · rw [step_of_engine_event h]; exact engineTurn_of_reject (s := { s with inputs := es }) hc hd

/-! ### Completion and issue -/

@[simp] theorem commandBody_inputs (i : Instr) (s : State) : (commandBody i s).inputs = s.inputs := by
  cases i <;> simp [commandBody]

/-- A command ends with the engine idle, with exactly one of DONE and ERR set if neither was, and leaves the pending
events alone. -/
theorem exec_completes (i : Instr) {s : State} (hdone : s.done = false) (herr : s.err = false) :
    ∃ t, exec i s = .next t ∧ t.inputs = s.inputs ∧ t.eng = .idle ∧ (t.done = !t.err) := by
  refine ⟨_, exec_eq_command i s, ?_⟩
  obtain ⟨e, -, ht⟩ | ⟨-, ht⟩ := State.command_cases s (commandChecks i s) (commandBody i) <;> rw [ht]
  · simp [hdone]
  · obtain ⟨-, hbody, -⟩ := commandBody_keeps_status i s
    simp [hbody, herr]

/-- The engine's turn completes a running word, whatever it is (30_encoding.md R102, R103). -/
theorem engineTurn_completes {s : State} {c : Word32} (h : s.eng = .running c) (hdone : s.done = false)
    (herr : s.err = false) :
    ∃ t, engineTurn s = .next t ∧ t.inputs = s.inputs ∧ t.eng = .idle ∧ (t.done = !t.err) := by
  cases hd : decode c with
  | ok i => rw [engineTurn_of_ok h hd]; exact exec_completes i hdone herr
  | reject r => exact ⟨_, engineTurn_of_reject h hd, by simp [hdone]⟩

/-- Settles O7: the step is the engine's turn, which completes the running word. -/
theorem runningCommandCompletes : Obligations.RunningCommandCompletes := by
  refine fun s c hc hdone herr => ⟨fun h => ?_, fun es h => ?_⟩
  · rw [step_of_no_event h, ← h]; exact engineTurn_completes hc hdone herr
  · rw [step_of_engine_event h]; exact engineTurn_completes (s := { s with inputs := es }) hc hdone herr

/-- Settles O8: while idle a write of CMD is an issue, and while busy it is dropped. -/
theorem commandIssue : Obligations.CommandIssue := by
  refine fun s c => ⟨fun hi => hostWrite_reg_of_idle hi .cmd c, fun c' hc => ⟨_, stepEvent_hostWrite_reg s .cmd c, ?_⟩⟩
  have hb : s.busy = true := s.busy_eq_true_iff.2 ⟨c', hc⟩
  rw [State.busWrite_dropped hb (by simp) (by simp)]
  rfl

end Sys2Proof.Machine
end

section
/-! SUPPORT. The integer laws of the datapath: the sizing rules and the bit reversal (40_datapath.md R131, R134,
R135). -/

namespace Sys2Proof.Machine

/-! ### Sizing -/

/-- The bit length of n fits in j bits exactly if n is below 2^j. -/
theorem bitlen_le_iff (n j : Nat) : bitlen n ≤ j ↔ n < 2 ^ j := by
  rcases eq_or_ne n 0 with rfl | hn
  · simp [bitlen]
  · rw [bitlen, if_neg hn, Nat.succ_le_iff, Nat.log2_lt hn]

theorem lt_two_pow_bitlen (n : Nat) : n < 2 ^ bitlen n := (bitlen_le_iff n _).1 le_rfl

/-- Settles O12: L is the bit length of 2M - 1, so K is the least power of two above it. -/
theorem referenceSizingLaw : Obligations.ReferenceSizingLaw := by
  refine ⟨fun m n hm => ?_, by decide +kernel⟩
  have hlt : 2 * m - 1 < 2 ^ sizeExponent .reference m n := lt_two_pow_bitlen _
  refine ⟨?_, by omega, fun j hj => (bitlen_le_iff _ j).2 (by omega), by omega, by omega⟩
  rw [sizeExponent, bitlen, if_neg (by omega), Nat.log2_eq_log_two]

/-- In LINEAR mode K is at least P (40_datapath.md R135). -/
theorem validLength_le_linear (m n : Nat) : validLength m n ≤ 2 ^ sizeExponent .linear m n := by
  have hlt : validLength m n - 1 < 2 ^ sizeExponent .linear m n := lt_two_pow_bitlen _
  omega

/-- A SIZE or CONV that ends with DONE, where DONE was not set before, has passed its checks. -/
theorem exec_size_or_conv_done {i : Instr} (hi : i = .size ∨ i = .conv) {s t : State} (h : exec i s = .next t)
    (hs : s.done = false) (ht : t.done = true) :
    (∀ c ∈ s.sizeChecks, c = none) ∧ t = (commandBody i s).complete := by
  obtain ⟨e, -, rfl⟩ | hp := exec_cases h
  · simp [hs] at ht
  · rcases hi with rfl | rfl <;> exact hp

/-- Settles O13: L is the bit length of P - 1, so K is the least power of two not below P; and P ≤ K clears the
ALIASED flag. -/
theorem linearSizingLaw : Obligations.LinearSizingLaw := by
  refine ⟨fun m n hm hn => ⟨validLength_le_linear m n, fun j hj => ?_⟩, by decide +kernel,
    fun s t i hi hmode hs h ht => ?_⟩
  · exact (bitlen_le_iff _ j).2 (by rw [validLength]; omega)
  · obtain ⟨hp, rfl⟩ := exec_size_or_conv_done hi h hs ht
    obtain ⟨hk, hP⟩ := sizes_fit_registers hi hp
    obtain ⟨-, -, haliased⟩ := commandBody_writes_sizes hi s
    have hfit : s.sizedP ≤ 2 ^ s.sizedL := by
      rw [State.sizedL, hmode]; exact validLength_le_linear s.m s.n
    refine ⟨?_, ?_⟩
    · simpa [haliased, aliasedFlag] using hfit
    · exact (hP.trans_le hfit).trans_eq hk.symm

/-! ### Bit reversal -/

/-- Reversing one more bit shifts the reversed bits up and puts the new one below them. -/
theorem bitrev_succ (l i : Nat) : bitrev (l + 1) i = 2 * bitrev l i + i / 2 ^ l % 2 := by
  rw [bitrev, bitrev, List.range_succ, List.map_append, List.sum_append, ← List.sum_map_mul_left]
  congr 1
  · refine congrArg List.sum (List.map_congr_left fun t ht => ?_)
    have hlt := List.mem_range.1 ht
    rw [show l + 1 - 1 - t = l - 1 - t + 1 by omega, pow_succ]
    ring
  · simp

/-- The bits of rev_L(i): bit t is bit L - 1 - t of i, and there are none from L on. -/
theorem testBit_bitrev (l i t : Nat) : (bitrev l i).testBit t = (decide (t < l) && i.testBit (l - 1 - t)) := by
  induction l generalizing t with
  | zero => simp [bitrev]
  | succ l ih =>
    rw [bitrev_succ]
    cases t with
    | zero => simp [Nat.testBit_eq_decide_div_mod_eq]
    | succ t =>
      rw [Nat.testBit_succ, show (2 * bitrev l i + i / 2 ^ l % 2) / 2 = bitrev l i by omega, ih,
        show l + 1 - 1 - (t + 1) = l - 1 - t by omega]
      simp

theorem bitrev_lt (l i : Nat) : bitrev l i < 2 ^ l :=
  Nat.lt_pow_two_of_testBit _ fun t ht => by simp [testBit_bitrev, Nat.not_lt.2 ht]

/-- Settles O17: reversing twice takes bit t to L - 1 - t and back, and a number below 2^L has no other bits. -/
theorem bitReversalLaw : Obligations.BitReversalLaw := by
  refine ⟨fun l i hi => ⟨bitrev_lt l i, Nat.eq_of_testBit_eq fun t => ?_, fun t ht => ?_⟩, by decide +kernel,
    by decide +kernel⟩
  · rw [testBit_bitrev, testBit_bitrev]
    by_cases ht : t < l
    · simp [ht, show l - 1 - t < l by omega, show l - 1 - (l - 1 - t) = t by omega]
    · simp [ht, Nat.testBit_lt_two_pow (hi.trans_le (Nat.pow_le_pow_right (by omega) (Nat.not_lt.1 ht)))]
  · rw [testBit_bitrev, show l - 1 - (l - 1 - t) = t by omega]
    simp [show l - 1 - t < l by omega]

end Sys2Proof.Machine
end

section
/-! SUPPORT. A binary64 word as its sign and its bits 62:0, and the operations' results in these terms
(40_datapath.md R120 to R123, R125). -/

namespace Sys2Proof.Machine

/-! ### A word is its sign and its magnitude bits -/

/-- Bits 62:0 of a word: exponent and fraction together. -/
def fbits (w : F64) : Nat := w.toNat % 2 ^ 63

/-- Bits 62:0 of an infinity. -/
def infBits : Nat := 0x7FF0000000000000

/-- The word of a sign and bits 62:0. -/
def signedWord (sign : Bool) (b : Nat) : F64 := BitVec.ofNat 64 ((bif sign then 2 ^ 63 else 0) + b)

theorem fbits_lt (w : F64) : fbits w < 2 ^ 63 := Nat.mod_lt _ (by norm_num)

theorem fsign_eq (w : F64) : fsign w = decide (2 ^ 63 ≤ w.toNat) := by
  have h := w.isLt
  rw [fsign, BitVec.getLsbD, Nat.testBit_eq_decide_div_mod_eq]
  exact decide_eq_decide.2 (by omega)

theorem fexp_eq (w : F64) : fexp w = fbits w / 2 ^ 52 := by
  rw [fexp, fbits, BitVec.extractLsb'_toNat, Nat.shiftRight_eq_div_pow]
  omega

theorem ffrac_eq (w : F64) : ffrac w = fbits w % 2 ^ 52 := by
  rw [ffrac, fbits, BitVec.extractLsb'_toNat, Nat.shiftRight_eq_div_pow]
  omega

theorem toNat_eq (w : F64) : w.toNat = (bif fsign w then 2 ^ 63 else 0) + fbits w := by
  have h := w.isLt
  rw [fsign_eq, fbits]
  by_cases hs : 2 ^ 63 ≤ w.toNat
  · rw [decide_eq_true hs, cond_true]; omega
  · rw [decide_eq_false hs, cond_false]; omega

@[simp] theorem signedWord_fbits (w : F64) : signedWord (fsign w) (fbits w) = w := by
  rw [signedWord, ← toNat_eq, BitVec.ofNat_toNat, BitVec.setWidth_eq]

theorem toNat_signedWord (s : Bool) {b : Nat} (hb : b < 2 ^ 63) :
    (signedWord s b).toNat = (bif s then 2 ^ 63 else 0) + b := by
  rw [signedWord, BitVec.toNat_ofNat]
  cases s <;> simp only [cond_true, cond_false] <;> omega

@[simp] theorem fsign_signedWord (s : Bool) {b : Nat} (hb : b < 2 ^ 63) : fsign (signedWord s b) = s := by
  rw [fsign_eq, toNat_signedWord s hb]
  cases s <;> simp only [cond_true, cond_false, decide_eq_true_eq, decide_eq_false_iff_not] <;> omega

@[simp] theorem fbits_signedWord (s : Bool) {b : Nat} (hb : b < 2 ^ 63) : fbits (signedWord s b) = b := by
  rw [fbits, toNat_signedWord s hb]
  cases s <;> simp only [cond_true, cond_false] <;> omega

theorem infBits_lt : infBits < 2 ^ 63 := by decide

theorem fzero_eq (s : Bool) : fzero s = signedWord s 0 := by cases s <;> rfl
theorem finf_eq (s : Bool) : finf s = signedWord s infBits := by cases s <;> rfl
theorem roundF64_eq (s : Bool) (n d : Nat) : roundF64 s n d = signedWord s (roundMag n d) := rfl

/-! ### The three kinds of words (40_datapath.md R120) -/

theorem fisNaN_iff (w : F64) : fisNaN w = true ↔ infBits < fbits w := by
  have := fbits_lt w
  simp only [fisNaN, fexp_eq, ffrac_eq, infBits, Bool.and_eq_true, beq_iff_eq, Bool.not_eq_true', beq_eq_false_iff_ne]
  omega

theorem fisInf_iff (w : F64) : fisInf w = true ↔ fbits w = infBits := by
  have := fbits_lt w
  simp only [fisInf, fexp_eq, ffrac_eq, infBits, Bool.and_eq_true, beq_iff_eq]
  omega

theorem fisFinite_iff (w : F64) : fisFinite w = true ↔ fbits w < infBits := by
  have := fbits_lt w
  simp only [fisFinite, fexp_eq, infBits, Bool.not_eq_true', beq_eq_false_iff_ne]
  omega

/-- A finite word is neither a NaN nor an infinity. -/
theorem kinds_of_finite {w : F64} (h : fisFinite w = true) : fisNaN w = false ∧ fisInf w = false := by
  have hw := (fisFinite_iff w).1 h
  rw [Bool.eq_false_iff, Bool.eq_false_iff, Ne, Ne, fisNaN_iff, fisInf_iff]
  omega

/-- An infinity is neither a NaN nor finite. -/
theorem kinds_of_inf {w : F64} (h : fisInf w = true) : fisNaN w = false ∧ fisFinite w = false := by
  have hw := (fisInf_iff w).1 h
  rw [Bool.eq_false_iff, Bool.eq_false_iff, Ne, Ne, fisNaN_iff, fisFinite_iff]
  omega

/-- Every word is a NaN, an infinity or finite. -/
theorem kind_cases (w : F64) : fisNaN w = true ∨ fisInf w = true ∨ fisFinite w = true := by
  rw [fisNaN_iff, fisInf_iff, fisFinite_iff]
  omega

/-- An infinity is the infinity of its sign. -/
theorem eq_finf_of_inf {w : F64} (h : fisInf w = true) : w = finf (fsign w) := by
  rw [finf_eq, ← (fisInf_iff w).1 h, signedWord_fbits]

@[simp] theorem fisInf_finf (s : Bool) : fisInf (finf s) = true := by cases s <;> decide
@[simp] theorem fisNaN_finf (s : Bool) : fisNaN (finf s) = false := (kinds_of_inf (fisInf_finf s)).1
@[simp] theorem fisNaN_qNaN : fisNaN qNaN = true := by decide
@[simp] theorem fsign_finf (s : Bool) : fsign (finf s) = s := by cases s <;> decide
@[simp] theorem fsign_fzero (s : Bool) : fsign (fzero s) = s := by cases s <;> decide
@[simp] theorem fisNaN_fzero (s : Bool) : fisNaN (fzero s) = false := by cases s <;> decide

/-! ### Rounded words -/

theorem roundMag_le (n d : Nat) : roundMag n d ≤ infBits := min_le_right _ _

@[simp] theorem fsign_roundF64 (s : Bool) (n d : Nat) : fsign (roundF64 s n d) = s :=
  fsign_signedWord s ((roundMag_le n d).trans_lt infBits_lt)

@[simp] theorem fbits_roundF64 (s : Bool) (n d : Nat) : fbits (roundF64 s n d) = roundMag n d :=
  fbits_signedWord s ((roundMag_le n d).trans_lt infBits_lt)

@[simp] theorem fisNaN_roundF64 (s : Bool) (n d : Nat) : fisNaN (roundF64 s n d) = false := by
  rw [Bool.eq_false_iff, Ne, fisNaN_iff, fbits_roundF64]
  exact (roundMag_le n d).not_gt

/-- The magnitude zero rounds to the zero of the sign. -/
theorem roundF64_zero (s : Bool) (d : Nat) : roundF64 s 0 d = fzero s := by
  rw [fzero_eq, roundF64_eq, roundMag]
  simp [quantumLog, roundQuotient]

/-! ### Negation (40_datapath.md R125) -/

/-- fneg flips the sign bit and no other. -/
theorem getLsbD_fneg (a : F64) (j : Nat) : (fneg a).getLsbD j = (a.getLsbD j ^^ decide (j = 63)) := by
  rw [fneg, BitVec.getLsbD_xor, show (0x8000000000000000 : F64) = BitVec.twoPow 64 63 from rfl, BitVec.getLsbD_twoPow]
  simp [eq_comm]

@[simp] theorem fsign_fneg (a : F64) : fsign (fneg a) = !fsign a := by
  rw [fsign, getLsbD_fneg, fsign]
  simp

@[simp] theorem fbits_fneg (a : F64) : fbits (fneg a) = fbits a := by
  refine Nat.eq_of_testBit_eq fun j => ?_
  rw [fbits, fbits, Nat.testBit_mod_two_pow, Nat.testBit_mod_two_pow]
  by_cases hj : j < 63
  · have hbit := getLsbD_fneg a j
    simpa [hj, hj.ne, BitVec.getLsbD] using hbit
  · simp [hj]

@[simp] theorem fisNaN_fneg (a : F64) : fisNaN (fneg a) = fisNaN a := by
  rw [Bool.eq_iff_iff, fisNaN_iff, fisNaN_iff, fbits_fneg]
@[simp] theorem fisInf_fneg (a : F64) : fisInf (fneg a) = fisInf a := by
  rw [Bool.eq_iff_iff, fisInf_iff, fisInf_iff, fbits_fneg]
@[simp] theorem fisFinite_fneg (a : F64) : fisFinite (fneg a) = fisFinite a := by
  rw [Bool.eq_iff_iff, fisFinite_iff, fisFinite_iff, fbits_fneg]

/-! ### Magnitude and value -/

/-- The magnitude of a finite word with the given bits 62:0, in units of 2^-1074 (40_datapath.md R120). -/
def bitsMag (b : Nat) : Nat := if b / 2 ^ 52 = 0 then b else (2 ^ 52 + b % 2 ^ 52) * 2 ^ (b / 2 ^ 52 - 1)

theorem fmag_eq (w : F64) : fmag w = bitsMag (fbits w) := by
  rw [fmag, bitsMag, fexp_eq, ffrac_eq]
  split
  · rw [Nat.mod_eq_of_lt (by omega)]
  · rfl

@[simp] theorem fmag_fneg (a : F64) : fmag (fneg a) = fmag a := by rw [fmag_eq, fmag_eq, fbits_fneg]

@[simp] theorem fint_fneg (a : F64) : fint (fneg a) = -fint a := by
  rw [fint, fint, fmag_fneg, fsign_fneg]
  cases fsign a <;> simp

@[simp] theorem fval_fneg (a : F64) : fval (fneg a) = -fval a := by
  rw [fval, fval, fint_fneg, Int.cast_neg, neg_div]

/-- A value is zero exactly if the magnitude is. -/
theorem fval_eq_zero_iff (a : F64) : fval a = 0 ↔ fmag a = 0 := by
  rw [fval, fint, div_eq_zero_iff, or_iff_left (pow_ne_zero _ two_ne_zero), Int.cast_eq_zero]
  split <;> omega

/-! ### The operations by the kinds of their operands (40_datapath.md R121, R122) -/

theorem fadd_of_nan {a b : F64} (h : fisNaN a = true ∨ fisNaN b = true) : fadd a b = qNaN := by
  rw [fadd, if_pos (by simpa using h)]

theorem fmul_of_nan {a b : F64} (h : fisNaN a = true ∨ fisNaN b = true) : fmul a b = qNaN := by
  rw [fmul, if_pos (by simpa using h)]

theorem fdiv_of_nan {a b : F64} (h : fisNaN a = true ∨ fisNaN b = true) : fdiv a b = qNaN := by
  rw [fdiv, if_pos (by simpa using h)]

/-- The exact sum, rounded: an exact zero takes the sign that both operands have (40_datapath.md R123). -/
theorem fadd_of_finite {a b : F64} (ha : fisFinite a = true) (hb : fisFinite b = true) :
    fadd a b = if fint a + fint b = 0 then fzero (fsign a && fsign b)
      else roundF64 (decide (fint a + fint b < 0)) (fint a + fint b).natAbs 1 := by
  simp [fadd, kinds_of_finite ha, kinds_of_finite hb]

theorem fmul_of_finite {a b : F64} (ha : fisFinite a = true) (hb : fisFinite b = true) :
    fmul a b = roundF64 (fsign a != fsign b) (fmag a * fmag b) (2 ^ 1074) := by
  simp [-Nat.reducePow, fmul, kinds_of_finite ha, kinds_of_finite hb]

theorem fdiv_of_finite {a b : F64} (ha : fisFinite a = true) (hb : fisFinite b = true) (h0 : fmag b ≠ 0) :
    fdiv a b = roundF64 (fsign a != fsign b) (fmag a * 2 ^ 1074) (fmag b) := by
  simp [-Nat.reducePow, fdiv, kinds_of_finite ha, kinds_of_finite hb, h0]

theorem fadd_inf_finite {a b : F64} (ha : fisInf a = true) (hb : fisFinite b = true) : fadd a b = a := by
  simp [fadd, kinds_of_inf ha, kinds_of_finite hb, ha]

theorem fadd_finite_inf {a b : F64} (ha : fisFinite a = true) (hb : fisInf b = true) : fadd a b = b := by
  simp [fadd, kinds_of_inf hb, kinds_of_finite ha, hb]

theorem fadd_inf_inf {a b : F64} (ha : fisInf a = true) (hb : fisInf b = true) :
    fadd a b = if fsign a = fsign b then a else qNaN := by
  by_cases hs : fsign a = fsign b <;> simp [fadd, kinds_of_inf ha, kinds_of_inf hb, ha, hb, hs]

theorem fmul_inf_left {a b : F64} (ha : fisInf a = true) (hb : fisNaN b = false) :
    fmul a b = if fisInf b = false ∧ fmag b = 0 then qNaN else finf (fsign a != fsign b) := by
  simp [fmul, kinds_of_inf ha, ha, hb]

theorem fdiv_inf_finite {a b : F64} (ha : fisInf a = true) (hb : fisFinite b = true) :
    fdiv a b = finf (fsign a != fsign b) := by
  simp [fdiv, kinds_of_inf ha, kinds_of_finite hb, ha]

/-! ### Commutativity -/

theorem fmul_comm (a b : F64) : fmul a b = fmul b a := by
  simp only [fmul, Bool.or_comm (fisNaN a), Bool.or_comm (fisInf a), Bool.or_comm (!fisInf a && _),
    Nat.mul_comm (fmag a), bne_comm (a := fsign a)]

/-- Agreeing infinities are one word, so that the sum does not depend on which operand it returns. -/
theorem fadd_comm (a b : F64) : fadd a b = fadd b a := by
  rcases kind_cases a with ha | ha | ha
  · rw [fadd_of_nan (.inl ha), fadd_of_nan (.inr ha)]
  all_goals rcases kind_cases b with hb | hb | hb
  · rw [fadd_of_nan (.inr hb), fadd_of_nan (.inl hb)]
  · rw [fadd_inf_inf ha hb, fadd_inf_inf hb ha]
    by_cases hs : fsign a = fsign b
    · rw [if_pos hs, if_pos hs.symm, eq_finf_of_inf ha, eq_finf_of_inf hb, hs]
    · rw [if_neg hs, if_neg (Ne.symm hs)]
  · rw [fadd_inf_finite ha hb, fadd_finite_inf hb ha]
  · rw [fadd_of_nan (.inr hb), fadd_of_nan (.inl hb)]
  · rw [fadd_finite_inf ha hb, fadd_inf_finite hb ha]
  · rw [fadd_of_finite ha hb, fadd_of_finite hb ha, add_comm (fint a), Bool.and_comm]

/-! ### NaN results (40_datapath.md R122) -/

/-- An operation gives the canonical NaN or no NaN. -/
theorem fadd_nan_canonical (a b : F64) : fadd a b = qNaN ∨ fisNaN (fadd a b) = false := by
  rcases kind_cases a with ha | ha | ha
  · exact .inl (fadd_of_nan (.inl ha))
  all_goals rcases kind_cases b with hb | hb | hb
  · exact .inl (fadd_of_nan (.inr hb))
  · rw [fadd_inf_inf ha hb]
    split <;> simp [kinds_of_inf ha]
  · exact .inr (by rw [fadd_inf_finite ha hb, (kinds_of_inf ha).1])
  · exact .inl (fadd_of_nan (.inr hb))
  · exact .inr (by rw [fadd_finite_inf ha hb, (kinds_of_inf hb).1])
  · refine .inr ?_
    rw [fadd_of_finite ha hb]
    split <;> simp

theorem fmul_nan_canonical (a b : F64) : fmul a b = qNaN ∨ fisNaN (fmul a b) = false := by
  unfold fmul
  split_ifs <;> simp [-Nat.reducePow]

theorem fdiv_nan_canonical (a b : F64) : fdiv a b = qNaN ∨ fisNaN (fdiv a b) = false := by
  unfold fdiv
  split_ifs <;> simp [-Nat.reducePow]

/-- A sum of words that are no NaN is a NaN exactly if it is one of opposite infinities. -/
theorem fisNaN_fadd_iff {a b : F64} (ha : fisNaN a = false) (hb : fisNaN b = false) :
    fisNaN (fadd a b) = true ↔ fisInf a = true ∧ fisInf b = true ∧ fsign a ≠ fsign b := by
  rcases kind_cases a with h | ha' | ha'
  · simp [ha] at h
  all_goals rcases kind_cases b with h | hb' | hb'
  · simp [hb] at h
  · rw [fadd_inf_inf ha' hb']
    split <;> simp [*]
  · simp [fadd_inf_finite ha' hb', ha, kinds_of_finite hb']
  · simp [hb] at h
  · simp [fadd_finite_inf ha' hb', hb, kinds_of_finite ha']
  · rw [fadd_of_finite ha' hb']
    split <;> simp [kinds_of_finite ha']

/-- A product with an infinity is a NaN exactly if the other operand is a zero. -/
theorem fisNaN_fmul_inf_iff {a b : F64} (ha : fisInf a = true) (hb : fisNaN b = false) :
    fisNaN (fmul a b) = true ↔ fisFinite b = true ∧ fval b = 0 := by
  rw [fmul_inf_left ha hb, fval_eq_zero_iff]
  rcases kind_cases b with h | h | h
  · simp [hb] at h
  · simp [h, kinds_of_inf h]
  · by_cases hz : fmag b = 0 <;> simp [h, kinds_of_finite h, hz]

theorem fisNaN_fmul_iff {a b : F64} (ha : fisNaN a = false) (hb : fisNaN b = false) :
    fisNaN (fmul a b) = true ↔
      (fisInf a = true ∧ fisFinite b = true ∧ fval b = 0) ∨ (fisFinite a = true ∧ fval a = 0 ∧ fisInf b = true) := by
  rcases kind_cases a with h | h | h
  · simp [ha] at h
  · simp [fisNaN_fmul_inf_iff h hb, h, kinds_of_inf h]
  · rcases kind_cases b with h' | h' | h'
    · simp [hb] at h'
    · simp [fmul_comm a, fisNaN_fmul_inf_iff h' ha, h', kinds_of_finite h]
    · simp [-Nat.reducePow, fmul_of_finite h h', kinds_of_finite h, kinds_of_finite h']

/-- The infinity of two signs, as the words of R120. -/
theorem finf_bne (s s' : Bool) :
    finf (s != s') = if s = s' then 0x7FF0000000000000 else 0xFFF0000000000000 := by
  cases s <;> cases s' <;> rfl

/-- A product of an infinity with an operand that is neither a NaN nor zero is the infinity of the operands' signs. -/
theorem fmul_inf_nonzero {a b : F64} (ha : fisInf a = true)
    (hb : fisInf b = true ∨ (fisFinite b = true ∧ fval b ≠ 0)) : fmul a b = finf (fsign a != fsign b) := by
  rcases hb with hb | ⟨hb, h0⟩
  · simp [fmul_inf_left ha (kinds_of_inf hb).1, hb]
  · rw [Ne, fval_eq_zero_iff] at h0
    simp [fmul_inf_left ha (kinds_of_finite hb).1, h0]

/-- What the two parts of O52 say of one operation: its NaNs are canonical, and a NaN operand gives one. -/
theorem nan_rules {f : F64 → F64 → F64} {a b : F64} (hc : f a b = qNaN ∨ fisNaN (f a b) = false)
    (hn : fisNaN a = true ∨ fisNaN b = true → f a b = qNaN) :
    (fisNaN (f a b) = true → f a b = 0x7FF8000000000000) ∧
      (fisNaN a = true ∨ fisNaN b = true → f a b = 0x7FF8000000000000) :=
  ⟨fun h => hc.resolve_right (by simp [h]), hn⟩

/-- Settles O52, by the kinds of the operands. -/
theorem naNResultsAreCanonical : Obligations.NaNResultsAreCanonical := by
  refine ⟨fun w => ⟨?_, ?_, rfl⟩, fun a b => ⟨?_, fun ha hb => ⟨fisNaN_fadd_iff ha hb, ?_, fisNaN_fmul_iff ha hb⟩⟩,
    fun a b ha => ⟨fun hb => ⟨fadd_inf_finite ha hb, fadd_finite_inf hb ha, ?_, ?_⟩, fun hb => ⟨fun hs => ?_,
      fun hs => ?_⟩, fun hb => ⟨?_, ?_⟩, fun hb _ => ?_⟩⟩
  · simp [fisNaN, fexp, ffrac, BitVec.toNat_eq]
  · constructor
    · intro h
      rw [eq_finf_of_inf h]
      cases fsign w
      · exact .inl rfl
      · exact .inr rfl
    · rintro (rfl | rfl) <;> decide
  · simp only [List.forall_mem_cons, List.not_mem_nil, false_imp_iff, implies_true, and_true]
    exact ⟨nan_rules (fadd_nan_canonical a b) fadd_of_nan,
      nan_rules (f := fsub) (fadd_nan_canonical a _) fun h => fadd_of_nan (by simpa using h),
      nan_rules (fmul_nan_canonical a b) fmul_of_nan, nan_rules (fdiv_nan_canonical a b) fdiv_of_nan⟩
  · rw [fsub, fisNaN_fadd_iff ha (by simpa using hb)]
    simp [Bool.eq_not_iff]
  · exact fadd_inf_finite ha (by simpa using hb)
  · exact fadd_finite_inf hb (by simpa using ha)
  · rw [fadd_inf_inf ha hb, if_pos hs]
  · rw [fsub, fadd_inf_inf ha (by simpa using hb), if_pos (by simpa [Bool.eq_not_iff] using hs)]
  · rw [fmul_inf_nonzero ha hb, finf_bne]
  · rw [fmul_comm, fmul_inf_nonzero ha hb, finf_bne]
  · rw [fdiv_inf_finite ha hb, finf_bne]

/-! ### Signs (40_datapath.md R123) -/

/-- A finite word and its negation add up to +0.0. -/
theorem fadd_fneg_self {x : F64} (hx : fisFinite x = true) : fadd x (fneg x) = 0 := by
  rw [fadd_of_finite hx (by simpa using hx), fint_fneg, if_pos (by omega)]
  cases h : fsign x <;> simp [h, fzero]

theorem fsign_fmul {a b : F64} (h : fisNaN (fmul a b) = false) : fsign (fmul a b) = (fsign a != fsign b) := by
  revert h
  unfold fmul
  split_ifs <;> simp [-Nat.reducePow]

theorem fsign_fdiv {a b : F64} (h : fisNaN (fdiv a b) = false) : fsign (fdiv a b) = (fsign a != fsign b) := by
  revert h
  unfold fdiv
  split_ifs <;> simp [-Nat.reducePow]

/-- Settles O53: the sums of zeros are evaluated, and every product or quotient that is no NaN is made with the
exclusive OR of the signs. -/
theorem signsOfZeros : Obligations.SignsOfZeros := by
  refine ⟨fun x hx => ⟨fadd_fneg_self hx, fadd_fneg_self hx⟩, by decide +kernel, by decide +kernel, by decide +kernel,
    by decide +kernel, by decide +kernel, by decide +kernel, by decide +kernel, by decide +kernel,
    fun a b => ⟨fun h => ?_, fun h => ?_⟩⟩
  · simpa using fsign_fmul h
  · simpa using fsign_fdiv h

end Sys2Proof.Machine
end

section
/-! SUPPORT. Complex arithmetic on entries (40_datapath.md R126 to R128). -/

namespace Sys2Proof.Machine

/-- An operation of words that hold values is the real one. -/
@[simp] theorem RamWord.map₂_ofF64 (f : F64 → F64 → F64) (a b : F64) :
    (RamWord.ofF64 a).map₂ f (RamWord.ofF64 b) = RamWord.ofF64 (f a b) := by
  simp [RamWord.map₂]

/-- An operation that commutes on values commutes on data words, poison included. -/
theorem RamWord.map₂_comm {f : F64 → F64 → F64} (hf : ∀ x y, f x y = f y x) (a b : RamWord) :
    a.map₂ f b = b.map₂ f a := by
  unfold RamWord.map₂
  cases a.val <;> cases b.val <;> simp [hf]

theorem RamWord.mul_comm (a b : RamWord) : a.mul b = b.mul a := RamWord.map₂_comm fmul_comm a b

theorem RamWord.add_comm (a b : RamWord) : a.add b = b.add a := RamWord.map₂_comm fadd_comm a b

/-- The complex product commutes bit for bit: its four products do, and so does the sum of the imaginary part
(40_datapath.md R128). -/
theorem cmul_comm (u v : Entry) : cmul u v = cmul v u := by
  rw [cmul, cmul, u.re.mul_comm v.re, u.im.mul_comm v.im, u.re.mul_comm v.im, u.im.mul_comm v.re, RamWord.add_comm]

/-- Settles O55: the operations on words that hold values are the real ones. -/
theorem complexArithmetic : Obligations.ComplexArithmetic :=
  ⟨fun a b => ⟨RamWord.map₂_ofF64 fadd a b, RamWord.map₂_ofF64 fsub a b, RamWord.map₂_ofF64 fmul a b,
      RamWord.map₂_ofF64 fdiv a b⟩,
    fun a b c d => by simp [cadd, csub, cmul, Entry.ofF64, RamWord.add, RamWord.sub, RamWord.mul], cmul_comm,
    by decide +kernel⟩

end Sys2Proof.Machine
end

section
/-! SUPPORT. Rounding: the magnitudes of words, in the order of their bits, and the word nearest to a number
(40_datapath.md R121). -/

namespace Sys2Proof.Machine

/-! ### The magnitudes in the order of their bits -/

/-- Bits 62:0 are a quantum and a mantissa that counts it, normalized above the smallest quantum. -/
theorem exists_quantum (b : Nat) : ∃ e m, b = e * 2 ^ 52 + m ∧ (e = 0 ∨ 2 ^ 52 ≤ m) ∧ m < 2 ^ 53 :=
  ⟨b / 2 ^ 52 - 1, b - (b / 2 ^ 52 - 1) * 2 ^ 52, by omega, by omega, by omega⟩

/-- A mantissa m that counts quanta of 2^e units has the magnitude m 2^e. -/
theorem bitsMag_encode_lt {e m : Nat} (he : e = 0 ∨ 2 ^ 52 ≤ m) (hm : m < 2 ^ 53) :
    bitsMag (e * 2 ^ 52 + m) = m * 2 ^ e := by
  rw [bitsMag]
  by_cases hn : 2 ^ 52 ≤ m
  · rw [if_neg (by omega), show (e * 2 ^ 52 + m) / 2 ^ 52 - 1 = e by omega,
      show 2 ^ 52 + (e * 2 ^ 52 + m) % 2 ^ 52 = m by omega]
  · obtain rfl : e = 0 := he.resolve_right hn
    rw [if_pos (by omega)]
    omega

/-- So has a mantissa that reached 2^53 and carries into the exponent. -/
theorem bitsMag_encode {e m : Nat} (he : e = 0 ∨ 2 ^ 52 ≤ m) (hm : m ≤ 2 ^ 53) :
    bitsMag (e * 2 ^ 52 + m) = m * 2 ^ e := by
  obtain hm | rfl := hm.lt_or_eq
  · exact bitsMag_encode_lt he hm
  · rw [show e * 2 ^ 52 + 2 ^ 53 = (e + 1) * 2 ^ 52 + 2 ^ 52 by ring, bitsMag_encode_lt (by simp) (by norm_num)]
    ring

theorem bitsMag_zero : bitsMag 0 = 0 := by decide

/-- Larger bits are a larger magnitude. -/
theorem bitsMag_strictMono : StrictMono bitsMag := by
  refine strictMono_nat_of_lt_succ fun b => ?_
  obtain ⟨e, m, rfl, he, hm⟩ := exists_quantum b
  rw [bitsMag_encode_lt he hm, add_assoc, bitsMag_encode (he.imp_right (·.trans m.le_succ)) hm]
  exact (Nat.mul_lt_mul_right (by positivity)).2 m.lt_succ_self

/-- The magnitudes on both sides of the overflow threshold: the largest finite one and its successor. -/
theorem bitsMag_at_infBits :
    bitsMag (infBits - 1) = (2 ^ 53 - 1) * 2 ^ 2045 ∧ bitsMag infBits = 2 ^ 53 * 2 ^ 2045 := by
  constructor
  · rw [show infBits - 1 = 2045 * 2 ^ 52 + (2 ^ 53 - 1) by decide, bitsMag_encode (by norm_num) (by norm_num)]
  · rw [show infBits = 2045 * 2 ^ 52 + 2 ^ 53 by decide, bitsMag_encode (by norm_num) le_rfl]

/-- The overflow threshold is their midpoint. -/
theorem overflow_midpoint {K : Type} [Field K] :
    (bitsMag (infBits - 1) + bitsMag infBits : K) = 2 * ((2 ^ 54 - 1) * 2 ^ 2044) := by
  obtain ⟨hlast, hinf⟩ := bitsMag_at_infBits
  rw [hlast, hinf, show 2045 = 2044 + 1 from rfl]
  generalize 2044 = e
  push_cast
  ring

/-! ### The nearest magnitude -/

section
variable {K : Type} [Field K] [LinearOrder K] [IsStrictOrderedRing K]

theorem bitsMag_cast_le {b c : Nat} (h : b ≤ c) : (bitsMag b : K) ≤ bitsMag c := by
  exact_mod_cast bitsMag_strictMono.monotone h

/-- u lies between the magnitudes of the bits lo and lo + 1, and b is the one of the two on u's side of their
midpoint. -/
structure IsNearest (u : K) (lo b : Nat) : Prop where
  low : (bitsMag lo : K) ≤ u
  high : u < bitsMag (lo + 1)
  side : (b = lo ∧ 2 * u ≤ bitsMag lo + bitsMag (lo + 1)) ∨ (b = lo + 1 ∧ bitsMag lo + bitsMag (lo + 1) ≤ 2 * u)

variable {u : K} {lo b : Nat}

/-- No magnitude lies strictly between those that enclose u. -/
theorem IsNearest.le_or_ge (h : IsNearest u lo b) (c : Nat) :
    ((bitsMag c : K) ≤ bitsMag lo ∧ (bitsMag c : K) ≤ u) ∨ ((bitsMag (lo + 1) : K) ≤ bitsMag c ∧ u < bitsMag c) := by
  rcases Nat.lt_or_ge lo c with hc | hc
  · exact .inr ⟨bitsMag_cast_le hc, h.high.trans_le (bitsMag_cast_le hc)⟩
  · exact .inl ⟨bitsMag_cast_le hc, (bitsMag_cast_le hc).trans h.low⟩

/-- The distance of the magnitude of b from u. -/
theorem IsNearest.dist_eq (h : IsNearest u lo b) :
    |(bitsMag b : K) - u| = min (u - bitsMag lo) (bitsMag (lo + 1) - u) := by
  obtain ⟨hlow, hhigh, ⟨rfl, hs⟩ | ⟨rfl, hs⟩⟩ := h
  · rw [abs_of_nonpos (by linarith), min_eq_left (by linarith), neg_sub]
  · rw [abs_of_nonneg (by linarith), min_eq_right (by linarith)]

/-- No magnitude lies nearer to u than that of b. -/
theorem IsNearest.dist_le (h : IsNearest u lo b) (c : Nat) : |(bitsMag b : K) - u| ≤ |(bitsMag c : K) - u| := by
  rw [h.dist_eq, min_le_iff]
  rcases h.le_or_ge c with ⟨hc, hu⟩ | ⟨hc, hu⟩
  · rw [abs_of_nonpos (by linarith)]; exact .inl (by linarith)
  · rw [abs_of_pos (by linarith)]; exact .inr (by linarith)

/-- If another magnitude lies as near to u as that of b, then u is the midpoint. -/
theorem IsNearest.tie (h : IsNearest u lo b) {c : Nat} (hne : (bitsMag c : K) ≠ bitsMag b)
    (hc : |(bitsMag c : K) - u| = |(bitsMag b : K) - u|) : 2 * u = bitsMag lo + bitsMag (lo + 1) := by
  have hlow := h.low
  have hhigh := h.high
  rcases h.le_or_ge c with ⟨hle, hu⟩ | ⟨hle, hu⟩ <;> rcases h.side with ⟨rfl, hs⟩ | ⟨rfl, hs⟩
  · rw [abs_of_nonpos (by linarith), abs_of_nonpos (by linarith)] at hc
    exact absurd (by linarith) hne
  · rw [abs_of_nonpos (by linarith), abs_of_pos (by linarith)] at hc
    linarith
  · rw [abs_of_pos (by linarith), abs_of_nonpos (by linarith)] at hc
    linarith
  · rw [abs_of_pos (by linarith), abs_of_pos (by linarith)] at hc
    exact absurd (by linarith) hne

/-- Zero is a candidate, so the distance is at most u. -/
theorem IsNearest.dist_le_self (h : IsNearest u lo b) : |(bitsMag b : K) - u| ≤ u := by
  have hz := h.dist_le 0
  rwa [bitsMag_zero, Nat.cast_zero, zero_sub, abs_neg, abs_of_nonneg ((Nat.cast_nonneg _).trans h.low)] at hz

/-- The same with signed candidates: no signed magnitude lies nearer to u than that of b. -/
theorem IsNearest.dist_le_signed (h : IsNearest u lo b) {v : K} {c : Nat} (hv : v = bitsMag c ∨ v = -bitsMag c) :
    |(bitsMag b : K) - u| ≤ |v - u| := by
  rcases hv with rfl | rfl
  · exact h.dist_le c
  · have h0 : (0 : K) ≤ bitsMag c := Nat.cast_nonneg _
    have hz := h.dist_le_self
    have hu := (abs_nonneg _).trans hz
    rw [abs_of_nonpos (a := -_ - u) (by linarith)]
    linarith

/-- If another signed magnitude lies as near to u as that of b, then u is the midpoint. -/
theorem IsNearest.tie_signed (h : IsNearest u lo b) {v : K} {c : Nat} (hv : v = bitsMag c ∨ v = -bitsMag c)
    (hne : v ≠ bitsMag b) (hc : |v - u| = |(bitsMag b : K) - u|) : 2 * u = bitsMag lo + bitsMag (lo + 1) := by
  rcases hv with rfl | rfl
  · exact h.tie hne hc
  · have h0 : (0 : K) ≤ bitsMag c := Nat.cast_nonneg _
    have hz := h.dist_le_self
    have hu := (abs_nonneg _).trans hz
    rw [← hc, abs_of_nonpos (by linarith)] at hz
    have hc0 : -(bitsMag c : K) = bitsMag 0 := by rw [bitsMag_zero, Nat.cast_zero]; linarith
    rw [hc0] at hne hc
    exact h.tie hne hc

/-- With ties to even the nearest bits reach those of infinity exactly from the midpoint above the largest finite
magnitude on, for that one is odd. -/
theorem IsNearest.infBits_le_iff (h : IsNearest u lo b)
    (heven : 2 * u = bitsMag lo + bitsMag (lo + 1) → b % 2 = 0) :
    infBits ≤ b ↔ (2 ^ 54 - 1) * 2 ^ 2044 ≤ u := by
  have hmid := overflow_midpoint (K := K)
  have hodd : (infBits - 1) % 2 = 1 := by decide
  have hsucc : infBits - 1 + 1 = infBits := by decide
  have hmono : (bitsMag (infBits - 1) : K) ≤ bitsMag infBits := bitsMag_cast_le (Nat.sub_le _ _)
  generalize ((2 : K) ^ 54 - 1) * 2 ^ 2044 = T at hmid ⊢
  have hlow := h.low
  have hhigh := h.high
  rcases lt_trichotomy lo (infBits - 1) with hlo | rfl | hlo
  · have hle : (bitsMag (lo + 1) : K) ≤ bitsMag (infBits - 1) := bitsMag_cast_le hlo
    refine iff_of_false (not_le.2 ?_) (not_le.2 (by linarith))
    rcases h.side with ⟨rfl, hs⟩ | ⟨rfl, hs⟩ <;> omega
  · rw [hsucc] at hhigh heven
    rcases h.side with ⟨rfl, hs⟩ | ⟨rfl, hs⟩ <;> rw [hsucc] at hs
    · refine iff_of_false (by omega) fun hT => ?_
      have := heven (by linarith)
      omega
    · exact iff_of_true hsucc.ge (by linarith)
  · have hle : (bitsMag infBits : K) ≤ bitsMag lo := bitsMag_cast_le (by omega)
    refine iff_of_true ?_ (by linarith)
    rcases h.side with ⟨rfl, hs⟩ | ⟨rfl, hs⟩ <;> omega

end

/-! ### The rounding of a quotient -/

/-- `roundQuotient` gives the floor of n/d or its successor, on n/d's side of their midpoint, and at the midpoint the
even one. -/
theorem roundQuotient_cases (n d : Nat) :
    ((roundQuotient n d = n / d ∧ 2 * (n % d) ≤ d) ∨ (roundQuotient n d = n / d + 1 ∧ d ≤ 2 * (n % d))) ∧
      (2 * (n % d) = d → roundQuotient n d % 2 = 0) := by
  simp only [roundQuotient]
  split_ifs <;> omega

/-- The quantum of a magnitude leaves a mantissa below 2^53, normalized above the smallest quantum. -/
theorem mantissa_of_quantumLog (q : Nat) :
    (quantumLog q = 0 ∨ 2 ^ 52 ≤ q / 2 ^ quantumLog q) ∧ q / 2 ^ quantumLog q < 2 ^ 53 := by
  rw [quantumLog]
  rcases Nat.lt_or_ge q (2 ^ 53) with hq | hq
  · have hlog : Nat.log2 q ≤ 52 := by
      rcases eq_or_ne q 0 with rfl | h0
      · simp
      · exact Nat.le_of_lt_succ ((Nat.log2_lt h0).2 hq)
    rw [Nat.sub_eq_zero_of_le hlog]
    simpa using hq
  · have h0 : q ≠ 0 := by omega
    obtain ⟨e, he⟩ : ∃ e, Nat.log2 q = 52 + e := Nat.exists_eq_add_of_le ((Nat.le_log2 h0).2 (by omega))
    have hlow := Nat.log2_self_le h0
    have hhigh := Nat.lt_log2_self (n := q)
    rw [he] at hlow hhigh ⊢
    rw [Nat.add_sub_cancel_left, Nat.le_div_iff_mul_le (by positivity), Nat.div_lt_iff_lt_mul (by positivity)]
    exact ⟨.inr (by rwa [← pow_add]), by rwa [← pow_add, show 53 + e = 52 + e + 1 by omega]⟩

/-- The bits that `roundMag` cuts off at infinity's. -/
def roundBits (n d : Nat) : Nat :=
  quantumLog (n / d) * 2 ^ 52 + roundQuotient n (d * 2 ^ quantumLog (n / d))

theorem roundMag_eq (n d : Nat) : roundMag n d = min (roundBits n d) infBits := rfl

/-- m quanta and a remainder t below one quantum lie between the magnitudes of the mantissas m and m + 1, and half a
quantum tells on which side of their midpoint. -/
theorem isNearest_of_remainder {e m b : Nat} (he : e = 0 ∨ 2 ^ 52 ≤ m) (hm : m < 2 ^ 53) {t : ℚ} (h0 : 0 ≤ t)
    (ht : t < 2 ^ e) (hb : (b = e * 2 ^ 52 + m ∧ 2 * t ≤ 2 ^ e) ∨ (b = e * 2 ^ 52 + m + 1 ∧ 2 ^ e ≤ 2 * t)) :
    IsNearest (m * 2 ^ e + t) (e * 2 ^ 52 + m) b ∧
      (2 * (m * 2 ^ e + t) = bitsMag (e * 2 ^ 52 + m) + bitsMag (e * 2 ^ 52 + m + 1) → 2 * t = 2 ^ e) := by
  have hlo : (bitsMag (e * 2 ^ 52 + m) : ℚ) = m * 2 ^ e := by
    rw [bitsMag_encode_lt he hm]
    push_cast
    rfl
  have hhi : (bitsMag (e * 2 ^ 52 + m + 1) : ℚ) = m * 2 ^ e + 2 ^ e := by
    rw [add_assoc, bitsMag_encode (by omega) hm, Nat.succ_mul]
    push_cast
    rfl
  refine ⟨⟨?_, ?_, hb.imp (And.imp_right fun h => ?_) (And.imp_right fun h => ?_)⟩, fun htie => ?_⟩ <;>
    simp only [hlo, hhi] at * <;> linarith

/-- `roundBits` is the nearest to n/d, ties to even. -/
theorem isNearest_roundBits (n : Nat) {d : Nat} (hd : 0 < d) : ∃ lo, IsNearest ((n : ℚ) / d) lo (roundBits n d) ∧
    (2 * ((n : ℚ) / d) = bitsMag lo + bitsMag (lo + 1) → roundBits n d % 2 = 0) := by
  obtain ⟨he, hm⟩ := mantissa_of_quantumLog (n / d)
  rw [roundBits]
  generalize quantumLog (n / d) = e at he hm ⊢
  rw [Nat.div_div_eq_div_mul] at he hm
  obtain ⟨hcases, heven⟩ := roundQuotient_cases n (d * 2 ^ e)
  have hmod := Nat.mod_lt n (y := d * 2 ^ e) (by positivity)
  have hdiv := Nat.div_add_mod n (d * 2 ^ e)
  generalize n / (d * 2 ^ e) = m, n % (d * 2 ^ e) = r at *
  -- the remainder r/d and half a quantum, in the rationals and in the integers
  have hd' : (0 : ℚ) < d := Nat.cast_pos.2 hd
  have hu : (n : ℚ) / d = m * 2 ^ e + r / d := by rw [← hdiv]; push_cast; field_simp
  have hlt : (r : ℚ) / d < 2 ^ e := by rw [div_lt_iff₀' hd']; exact_mod_cast hmod
  have hle : 2 * ((r : ℚ) / d) ≤ 2 ^ e ↔ 2 * r ≤ d * 2 ^ e := by
    rw [← mul_div_assoc, div_le_iff₀' hd']; exact_mod_cast Iff.rfl
  have hge : 2 ^ e ≤ 2 * ((r : ℚ) / d) ↔ d * 2 ^ e ≤ 2 * r := by
    rw [← mul_div_assoc, le_div_iff₀' hd']; exact_mod_cast Iff.rfl
  obtain ⟨hnear, htie⟩ := isNearest_of_remainder (b := e * 2 ^ 52 + roundQuotient n (d * 2 ^ e)) he hm
    (div_nonneg r.cast_nonneg hd'.le) hlt
    (hcases.imp (fun ⟨hq, hr⟩ => ⟨by omega, hle.2 hr⟩) fun ⟨hq, hr⟩ => ⟨by omega, hge.2 hr⟩)
  refine ⟨_, hu ▸ hnear, fun h => ?_⟩
  have hhalf := htie (hu ▸ h)
  have := heven (le_antisymm (hle.1 hhalf.le) (hge.1 hhalf.ge))
  omega

/-! ### Rounded words are correctly rounded -/

section
variable {K : Type} [Field K]

/-- The value of v units of 2^-1074 with a sign. -/
def unitsValue (s : Bool) (v : K) : K := (if s then -v else v) / 2 ^ 1074

@[simp] theorem unitsValue_zero (s : Bool) : unitsValue s (0 : K) = 0 := by
  rw [unitsValue, neg_zero, ite_self, zero_div]

/-- A signed magnitude, seen from either sign, is a magnitude or its negative. -/
theorem unitsValue_eq_signed (s s' : Bool) (m : K) :
    ∃ v, unitsValue s' m = unitsValue s v ∧ (v = m ∨ v = -m) := by
  by_cases h : s' = s
  · exact ⟨_, by rw [h], .inl rfl⟩
  · refine ⟨_, ?_, .inr rfl⟩
    rw [Bool.eq_not_of_ne h]
    cases s <;> simp [unitsValue]

variable [LinearOrder K] [IsStrictOrderedRing K]

/-- Distances of values of one sign are those of their units. -/
theorem abs_unitsValue_sub (s : Bool) (v u : K) : |unitsValue s v - unitsValue s u| = |v - u| / 2 ^ 1074 := by
  rw [unitsValue, unitsValue, ← sub_div, abs_div, abs_of_pos (pow_pos (two_pos (α := K)) 1074)]
  cases s
  · rfl
  · simp only [if_true, neg_sub_neg, abs_sub_comm]

/-- No signed magnitude lies nearer to a signed number of units than the nearest one with its sign. -/
theorem IsNearest.unitsValue_dist_le {u : K} {lo b : Nat} (h : IsNearest u lo b) (s s' : Bool) (c : Nat) :
    |unitsValue s (bitsMag b : K) - unitsValue s u| ≤ |unitsValue s' (bitsMag c : K) - unitsValue s u| := by
  obtain ⟨v, hc, hv⟩ := unitsValue_eq_signed s s' (bitsMag c : K)
  rw [hc, abs_unitsValue_sub, abs_unitsValue_sub]
  exact (div_le_div_iff_of_pos_right (pow_pos two_pos _)).2 (h.dist_le_signed hv)

/-- And another one as near makes the number the midpoint. -/
theorem IsNearest.unitsValue_tie {u : K} {lo b : Nat} (h : IsNearest u lo b) {s s' : Bool} {c : Nat}
    (hne : unitsValue s' (bitsMag c : K) ≠ unitsValue s (bitsMag b : K))
    (htie : |unitsValue s' (bitsMag c : K) - unitsValue s u| = |unitsValue s (bitsMag b : K) - unitsValue s u|) :
    2 * u = bitsMag lo + bitsMag (lo + 1) := by
  obtain ⟨v, hc, hv⟩ := unitsValue_eq_signed s s' (bitsMag c : K)
  rw [hc, abs_unitsValue_sub, abs_unitsValue_sub, div_left_inj' (pow_ne_zero _ two_ne_zero)] at htie
  exact h.tie_signed hv (fun hvb => hne (by rw [hc, hvb])) htie

end

theorem fval_eq (w : F64) : fval w = unitsValue (fsign w) (bitsMag (fbits w) : ℚ) := by
  rw [fval, fint, fmag_eq, unitsValue]
  split <;> push_cast <;> rfl

theorem unitsValue_lt_zero_iff (s : Bool) {u : ℚ} (hu : 0 < u) : unitsValue s u < 0 ↔ s = true := by
  rw [unitsValue, div_lt_iff₀ (pow_pos two_pos 1074), zero_mul]
  cases s
  · simpa using hu.le
  · simpa using hu

/-- The overflow threshold in units. -/
theorem overflow_iff (s : Bool) {u : ℚ} (hu : 0 ≤ u) :
    (2 ^ 54 - 1) * 2 ^ 970 ≤ |unitsValue s u| ↔ (2 ^ 54 - 1) * 2 ^ 2044 ≤ u := by
  have habs : |unitsValue s u| = u / 2 ^ 1074 := by
    have h := abs_unitsValue_sub s u 0
    rwa [unitsValue_zero, sub_zero, sub_zero, abs_of_nonneg hu] at h
  rw [habs, le_div_iff₀ (pow_pos two_pos 1074), mul_assoc, ← pow_add]

/-- The last bit of a word is that of its magnitude bits. -/
theorem getLsbD_zero_eq_false {w : F64} (h : fbits w % 2 = 0) : w.getLsbD 0 = false := by
  rw [fbits] at h
  rw [BitVec.getLsbD, Nat.testBit_zero, decide_eq_false_iff_not]
  omega

/-- The value of a word made of a sign and finite bits. -/
theorem fval_signedWord (s : Bool) {b : Nat} (hb : b < infBits) :
    fval (signedWord s b) = unitsValue s (bitsMag b : ℚ) := by
  rw [fval_eq, fsign_signedWord s (hb.trans infBits_lt), fbits_signedWord s (hb.trans infBits_lt)]

theorem fisFinite_signedWord (s : Bool) {b : Nat} (hb : b < infBits) : fisFinite (signedWord s b) = true :=
  (fisFinite_iff _).2 (by rwa [fbits_signedWord s (hb.trans infBits_lt)])

/-- `roundF64` rounds the magnitude of n/d units with the given sign correctly. -/
theorem correctlyRounded_roundF64 (s : Bool) (n : Nat) {d : Nat} (hd : 0 < d) :
    CorrectlyRounded (unitsValue s (n / d)) (roundF64 s n d) := by
  obtain ⟨lo, hnear, heven⟩ := isNearest_roundBits n hd
  have hinf := hnear.infBits_le_iff heven
  have hu : (0 : ℚ) ≤ n / d := by positivity
  have hover := overflow_iff s hu
  rw [CorrectlyRounded, roundF64_eq, roundMag_eq]
  split
  next hx =>
    rw [hover] at hx
    have hpos : (0 : ℚ) < n / d := (mul_pos (by norm_num) (pow_pos two_pos 2044)).trans_le hx
    have hsign := unitsValue_lt_zero_iff s hpos
    rw [min_eq_right (hinf.2 hx), finf_eq, show decide (unitsValue s (n / d : ℚ) < 0) = s by simp [hsign]]
  next hx =>
    rw [hover, ← hinf, not_le] at hx
    rw [min_eq_left hx.le]
    refine ⟨fisFinite_signedWord s hx, fun c _ => ?_⟩
    rw [fval_signedWord s hx, fval_eq c]
    exact ⟨hnear.unitsValue_dist_le s _ _, fun hne htie => getLsbD_zero_eq_false <|
      (fbits_signedWord s (hx.trans infBits_lt)).symm ▸ heven (hnear.unitsValue_tie hne htie)⟩

/-! ### The operations on finite words (40_datapath.md R121) -/

theorem fval_eq_fmag (a : F64) : fval a = unitsValue (fsign a) (fmag a : ℚ) := by rw [fval_eq, fmag_eq]

/-- A whole number of units, by its sign and its magnitude. -/
theorem unitsValue_natAbs (t : Int) : unitsValue (decide (t < 0)) ((t.natAbs : ℚ) / (1 : Nat)) = t / 2 ^ 1074 := by
  rw [unitsValue, Nat.cast_one, div_one, Nat.cast_natAbs]
  congr 1
  rcases lt_or_ge t 0 with h | h
  · simp [h, abs_of_neg h]
  · simp [not_lt.2 h, abs_of_nonneg h]

theorem unitsValue_mul (s s' : Bool) (x y : ℚ) :
    unitsValue s x * unitsValue s' y = unitsValue (s != s') (x * y / 2 ^ 1074) := by
  rw [unitsValue, unitsValue, unitsValue, div_mul_div_comm, ← div_div, div_left_inj' (pow_ne_zero _ two_ne_zero)]
  cases s <;> cases s' <;> simp [-Nat.reducePow, neg_div]

theorem unitsValue_div (s s' : Bool) (x y : ℚ) :
    unitsValue s x / unitsValue s' y = unitsValue (s != s') (x * 2 ^ 1074 / y) := by
  have hunit : (2 : ℚ) ^ 1074 ≠ 0 := pow_ne_zero _ two_ne_zero
  rw [unitsValue, unitsValue, unitsValue, div_div_div_cancel_right₀ hunit, eq_div_iff hunit]
  cases s <;> cases s' <;> simp [-Nat.reducePow, neg_div, div_neg, mul_div_right_comm]

theorem correctlyRounded_fadd {a b : F64} (ha : fisFinite a = true) (hb : fisFinite b = true) :
    CorrectlyRounded (fval a + fval b) (fadd a b) := by
  have hsum : fval a + fval b = ((fint a + fint b : Int) : ℚ) / 2 ^ 1074 := by
    rw [fval, fval, ← add_div, Int.cast_add]
  rw [fadd_of_finite ha hb, hsum]
  generalize fint a + fint b = t
  split
  next h0 =>
    have h := correctlyRounded_roundF64 (fsign a && fsign b) 0 one_pos
    rwa [roundF64_zero, Nat.cast_zero, zero_div, unitsValue_zero, ← zero_div (2 ^ 1074 : ℚ), ← Int.cast_zero,
      ← h0] at h
  next h0 => exact unitsValue_natAbs t ▸ correctlyRounded_roundF64 (decide (t < 0)) t.natAbs one_pos

theorem correctlyRounded_fmul {a b : F64} (ha : fisFinite a = true) (hb : fisFinite b = true) :
    CorrectlyRounded (fval a * fval b) (fmul a b) := by
  have h := correctlyRounded_roundF64 (fsign a != fsign b) (fmag a * fmag b) (d := 2 ^ 1074) (pow_pos two_pos _)
  rwa [← fmul_of_finite ha hb, Nat.cast_mul, Nat.cast_pow, Nat.cast_ofNat, ← unitsValue_mul, ← fval_eq_fmag,
    ← fval_eq_fmag] at h

theorem correctlyRounded_fdiv {a b : F64} (ha : fisFinite a = true) (hb : fisFinite b = true) (h0 : fval b ≠ 0) :
    CorrectlyRounded (fval a / fval b) (fdiv a b) := by
  have hmag : fmag b ≠ 0 := fun h => h0 ((fval_eq_zero_iff b).2 h)
  have h := correctlyRounded_roundF64 (fsign a != fsign b) (fmag a * 2 ^ 1074) (Nat.pos_of_ne_zero hmag)
  rwa [← fdiv_of_finite ha hb hmag, Nat.cast_mul, Nat.cast_pow, Nat.cast_ofNat, ← unitsValue_div, ← fval_eq_fmag,
    ← fval_eq_fmag] at h

/-- The magnitude of a word by its fields (40_datapath.md R120). -/
theorem fmag_div_eq_fields (w : F64) : (fmag w : ℚ) / 2 ^ 1074 =
    if fexp w = 0 then (ffrac w : ℚ) / 2 ^ 1074 else (2 ^ 52 + (ffrac w : ℚ)) * 2 ^ fexp w / 2 ^ 1075 := by
  rw [fmag]
  split
  · rfl
  next h =>
    obtain ⟨e, he⟩ := Nat.exists_eq_succ_of_ne_zero h
    rw [he, Nat.succ_sub_one, pow_succ _ e, pow_succ _ 1074, ← mul_assoc, mul_div_mul_right _ _ two_ne_zero]
    push_cast
    rfl

/-- Settles O51: each operation rounds its exact result in units once. -/
theorem realOperationsAreCorrectlyRounded : Obligations.RealOperationsAreCorrectlyRounded := by
  refine ⟨fun w => ⟨?_, ?_⟩, fun a b ha hb => ⟨correctlyRounded_fadd ha hb, ?_,
    correctlyRounded_fmul ha hb, correctlyRounded_fdiv ha hb⟩⟩
  · simp [fisFinite, fexp, BitVec.toNat_eq]
  · have hexp : w.extractLsb' 52 11 = 0 ↔ fexp w = 0 := BitVec.toNat_inj.symm
    have hmag := fmag_div_eq_fields w
    simp only [← hexp] at hmag
    rw [fval_eq_fmag, unitsValue, ite_div, neg_div, hmag, fsign, ite_mul, neg_one_mul, one_mul]
    rfl
  · have h := correctlyRounded_fadd (a := a) (b := fneg b) ha (by simpa using hb)
    rwa [fval_fneg, ← sub_eq_add_neg] at h

/-! ### Numbers that are representable -/

/-- A correctly rounded word has exactly the number's value if some finite word has, and is finite. -/
theorem CorrectlyRounded.exact {x : ℚ} {w : F64} (h : CorrectlyRounded x w) {c : F64} (hc : fisFinite c = true)
    (hx : fval c = x) (hlt : |x| < (2 ^ 54 - 1) * 2 ^ 970) : fisFinite w = true ∧ fval w = x := by
  rw [CorrectlyRounded, if_neg (not_le.2 hlt)] at h
  obtain ⟨hw, hnear⟩ := h
  have hle := (hnear c hc).1
  rw [hx, sub_self, abs_zero] at hle
  exact ⟨hw, sub_eq_zero.1 (abs_nonpos_iff.1 hle)⟩

/-- The word of 2^l. -/
def powerWord (l : Nat) : F64 := signedWord false ((1023 + l) * 2 ^ 52)

theorem bitsMag_power (l : Nat) : bitsMag ((1023 + l) * 2 ^ 52) = 2 ^ l * 2 ^ 1074 := by
  rw [show (1023 + l) * 2 ^ 52 = (1022 + l) * 2 ^ 52 + 2 ^ 52 by ring,
    bitsMag_encode (.inr le_rfl) (by norm_num), ← pow_add, ← pow_add]
  congr 1
  omega

theorem powerWord_exact {l : Nat} (hl : l ≤ 20) : fisFinite (powerWord l) = true ∧ fval (powerWord l) = 2 ^ l := by
  have hfin : (1023 + l) * 2 ^ 52 < infBits := by rw [infBits]; omega
  refine ⟨fisFinite_signedWord false hfin, ?_⟩
  rw [powerWord, fval_signedWord false hfin, bitsMag_power, Nat.cast_mul, Nat.cast_pow, Nat.cast_pow, Nat.cast_ofNat]
  exact mul_div_cancel_right₀ _ (pow_ne_zero _ two_ne_zero)

/-- f64 rounds n correctly. -/
theorem correctlyRounded_f64 (n : Nat) : CorrectlyRounded n (f64 n) := by
  have h := correctlyRounded_roundF64 false (n * 2 ^ 1074) one_pos
  rwa [Nat.cast_one, div_one, Nat.cast_mul, Nat.cast_pow, Nat.cast_ofNat,
    show unitsValue false ((n : ℚ) * 2 ^ 1074 : ℚ) = n from mul_div_cancel_right₀ _ (pow_ne_zero _ two_ne_zero)] at h

/-- Settles O54: a power of two is the value of a word, so rounding keeps it. -/
theorem negationAndPowersAreExact : Obligations.NegationAndPowersAreExact := by
  refine ⟨fun a => ⟨fsign_fneg a, fun j hj => ?_⟩, fun l hl => ?_⟩
  · rw [getLsbD_fneg, decide_eq_false hj.ne, Bool.xor_false]
  · obtain ⟨hfin, hval⟩ := powerWord_exact hl
    have h := correctlyRounded_f64 (2 ^ l)
    rw [Nat.cast_pow, Nat.cast_ofNat] at h
    refine h.exact hfin hval ?_
    rw [abs_of_pos (pow_pos two_pos l)]
    calc (2 : ℚ) ^ l ≤ 2 ^ 20 := pow_le_pow_right₀ one_le_two hl
      _ < 2 ^ 54 - 1 := by norm_num
      _ ≤ (2 ^ 54 - 1) * 2 ^ 970 := le_mul_of_one_le_right (by norm_num) (one_le_pow₀ one_le_two)

end Sys2Proof.Machine
end

section
/-! SUPPORT. The entries of the buffers over the steps of CONV, and the Y that CONV leaves (43_orchestrator.md R188,
90_conflicts.md C4). -/

namespace Sys2Proof.Machine

/-! ### The entries of a buffer after a step's stores -/

/-- A list of entries as a command reads it back from a buffer (70_reset_and_hazards.md R268). -/
def loadEntries (es : List Entry) : List Entry := es.map Entry.loaded

/-- Stored entries are read back as the command reads them. -/
theorem State.entries_putEntries (s : State) (b : Buf) {es : List Entry} {k : Nat} (hl : es.length = k) :
    (s.putEntries b es).entries b k = loadEntries es := by
  refine List.ext_getElem (by simp [loadEntries, hl]) fun i h _ => ?_
  rw [State.entries_length] at h
  rw [State.entries_getElem, State.entry_putEntries s b es i (hl ▸ h)]
  exact (List.getElem_map ..).symm

/-- Words of another RAM are unchanged when entries are stored. -/
theorem State.ramWord_putEntries_of_ne (s : State) {b : Buf} {r : Ram} (hr : r ≠ ramOf b) {es : List Entry}
    (hl : es.length ≤ 2 ^ 20) {w : Nat} (hw : w < 2 ^ 21) : (s.putEntries b es).ramWord r w = s.ramWord r w :=
  s.ramWord_putWords_of_ne _ r hr _ w (by rw [flatMap_words_length]; omega) hw

/-- Entries of the other buffer are unchanged when entries are stored. -/
theorem State.entries_putEntries_of_ne (s : State) {b b' : Buf} (hb : b' ≠ b) {es : List Entry} {k : Nat}
    (hl : es.length = k) (hk : k ≤ 2 ^ 20) : (s.putEntries b es).entries b' k = s.entries b' k := by
  have hr : ramOf b' ≠ ramOf b := by cases b <;> cases b' <;> simp_all [ramOf]
  refine List.map_congr_left fun i hi => ?_
  have hik := List.mem_range.1 hi
  rw [State.entry, State.entry, s.ramWord_putEntries_of_ne hr (by omega) (by omega),
    s.ramWord_putEntries_of_ne hr (by omega) (by omega)]

/-- The real word of an entry, as a command reads it from BUF_A. -/
theorem State.loadWord_bufA (s : State) {i k : Nat} (hi : i < k) :
    s.loadWord .bufA (2 * i) = (entryAt (s.entries .A k) i).re := by
  rw [entryAt_eq _ _ (by simpa using hi), State.entries_getElem]
  rfl

/-! ### Zero-padding reads its samples only -/

theorem padEntries_congr (k : Nat) {len : Nat} {f g : Nat → RamWord} (h : ∀ i < len, f i = g i) :
    padEntries k len f = padEntries k len g := by
  refine List.foldl_ext _ _ _ fun es i hi => ?_
  rw [padSample, padSample, h i (List.mem_range.1 hi)]

/-! ### CONV's steps on the buffers -/

/-- The active regions of size 2^l hold the entries ea and eb, as a command reads them. -/
structure State.Holds (s : State) (log2KMax l : Nat) (ea eb : List Entry) : Prop where
  log2KMax_eq : s.build.log2KMax = log2KMax
  l_eq : s.l = l
  small : 2 ^ l ≤ 2 ^ 20
  entries_A : s.entries .A (2 ^ l) = ea
  entries_B : s.entries .B (2 ^ l) = eb

namespace State.Holds

variable {s : State} {log2KMax l : Nat} {ea eb : List Entry}

theorem k_eq (h : s.Holds log2KMax l ea eb) : s.k = 2 ^ l := by rw [State.k, h.l_eq]

theorem putEntries_A (h : s.Holds log2KMax l ea eb) {es : List Entry} (hl : es.length = 2 ^ l) :
    (s.putEntries .A es).Holds log2KMax l (loadEntries es) eb :=
  ⟨h.log2KMax_eq, h.l_eq, h.small, s.entries_putEntries .A hl,
    (s.entries_putEntries_of_ne (by simp) hl h.small).trans h.entries_B⟩

theorem putEntries_B (h : s.Holds log2KMax l ea eb) {es : List Entry} (hl : es.length = 2 ^ l) :
    (s.putEntries .B es).Holds log2KMax l ea (loadEntries es) :=
  ⟨h.log2KMax_eq, h.l_eq, h.small, (s.entries_putEntries_of_ne (by simp) hl h.small).trans h.entries_A,
    s.entries_putEntries .B hl⟩

theorem mapActive_A (h : s.Holds log2KMax l ea eb) {f : List Entry → List Entry}
    (hf : ∀ es, (f es).length = es.length) : (s.mapActive .A f).Holds log2KMax l (loadEntries (f ea)) eb := by
  rw [State.mapActive, h.k_eq, h.entries_A]
  exact h.putEntries_A (by rw [hf, ← h.entries_A, State.entries_length])

theorem mapActive_B (h : s.Holds log2KMax l ea eb) {f : List Entry → List Entry}
    (hf : ∀ es, (f es).length = es.length) : (s.mapActive .B f).Holds log2KMax l ea (loadEntries (f eb)) := by
  rw [State.mapActive, h.k_eq, h.entries_B]
  exact h.putEntries_B (by rw [hf, ← h.entries_B, State.entries_length])

theorem fftBody_A (h : s.Holds log2KMax l ea eb) (d : Dir) :
    (s.fftBody .A d).Holds log2KMax l (loadEntries (fftEntries log2KMax l d ea)) eb := by
  rw [State.fftBody, h.log2KMax_eq, h.l_eq]
  exact h.mapActive_A fun _ => fftEntries_length ..

theorem fftBody_B (h : s.Holds log2KMax l ea eb) (d : Dir) :
    (s.fftBody .B d).Holds log2KMax l ea (loadEntries (fftEntries log2KMax l d eb)) := by
  rw [State.fftBody, h.log2KMax_eq, h.l_eq]
  exact h.mapActive_B fun _ => fftEntries_length ..

theorem cmulBody (h : s.Holds log2KMax l ea eb) :
    s.cmulBody.Holds log2KMax l (loadEntries (List.zipWith cmul ea eb)) eb := by
  rw [State.cmulBody, h.k_eq, h.entries_A, h.entries_B]
  exact h.putEntries_A (by rw [List.length_zipWith, ← h.entries_A, ← h.entries_B, State.entries_length,
    State.entries_length, min_self])

theorem scaleBody_A (h : s.Holds log2KMax l ea eb) :
    (s.scaleBody .A).Holds log2KMax l (loadEntries (ea.map (scaleEntry (2 ^ l)))) eb := by
  rw [State.scaleBody, h.k_eq]
  exact h.mapActive_A fun _ => List.length_map ..

theorem padxBody (h : s.Holds log2KMax l ea eb) :
    s.padxBody.Holds log2KMax l (loadEntries (padEntries (2 ^ l) s.m (s.loadWord .x))) eb := by
  rw [State.padxBody, h.k_eq]
  exact h.putEntries_A (padEntries_length ..)

theorem padhBody (h : s.Holds log2KMax l ea eb) :
    s.padhBody.Holds log2KMax l ea (loadEntries (padEntries (2 ^ l) s.n (s.loadWord .h))) := by
  rw [State.padhBody, h.k_eq]
  exact h.putEntries_B (padEntries_length ..)

/-- EXTRACT takes the real words of the entries of BUF_A, read modulo K (43_orchestrator.md R187). -/
theorem ramWord_y_extractBody (h : s.Holds log2KMax l ea eb) {i : Nat} (hi : i < s.p) :
    s.extractBody.ramWord .y i = (entryAt ea (i % 2 ^ l)).re := by
  rw [State.extractBody, State.ramWord_putWords _ _ _ _ (by simpa using hi), List.getElem_map, List.getElem_range,
    h.k_eq, s.loadWord_bufA (Nat.mod_lt i (Nat.two_pow_pos l)), h.entries_A]

end State.Holds

/-- PADX leaves the samples of h as they are. -/
theorem State.loadWord_h_padxBody (s : State) (hk : s.k ≤ 2 ^ 20) {i : Nat} (hi : i < 2 ^ 21) :
    s.padxBody.loadWord .h i = s.loadWord .h i := by
  rw [State.loadWord, State.padxBody, s.ramWord_putEntries_of_ne (by simp [ramOf]) (by rwa [padEntries_length]) hi,
    State.loadWord]

/-- What CONV makes of the padded entries of x and of h: the transforms, the product, the inverse transform and the
scaling, each result as the next step reads it. -/
def convResult (log2KMax l : Nat) (ex eh : List Entry) : List Entry :=
  let spectrum := fun es => loadEntries (fftEntries log2KMax l .fwd (loadEntries es))
  let product := loadEntries (List.zipWith cmul (spectrum ex) (spectrum eh))
  loadEntries ((loadEntries (fftEntries log2KMax l .inv product)).map (scaleEntry (2 ^ l)))

/-- The product of the spectra commutes, and with it all that follows. -/
theorem convResult_comm (log2KMax l : Nat) (ex eh : List Entry) :
    convResult log2KMax l ex eh = convResult log2KMax l eh ex := by
  simp only [convResult, List.zipWith_comm_of_comm cmul_comm]

/-- The Y that CONV's steps leave (43_orchestrator.md R187). -/
theorem ramWord_y_convSteps (s : State) {log2KMax l : Nat} (hlog : s.build.log2KMax = log2KMax) (hl : s.l = l)
    (hk : 2 ^ l ≤ 2 ^ 20) (hn : s.n ≤ 2 ^ 20) {i : Nat} (hi : i < s.p) :
    (convSteps s).ramWord .y i = (entryAt (convResult log2KMax l (padEntries (2 ^ l) s.m (s.loadWord .x))
      (padEntries (2 ^ l) s.n (s.loadWord .h))) (i % 2 ^ l)).re := by
  have hstart : s.Holds log2KMax l _ _ := ⟨hlog, hl, hk, rfl, rfl⟩
  have hend := ((((((hstart.padxBody).padhBody).fftBody_A .fwd).fftBody_B .fwd).cmulBody).fftBody_A .inv).scaleBody_A
  have hh : padEntries (2 ^ l) s.padxBody.n (s.padxBody.loadWord .h) = padEntries (2 ^ l) s.n (s.loadWord .h) :=
    padEntries_congr _ fun j (hj : j < s.n) => s.loadWord_h_padxBody (hstart.k_eq.trans_le hk) (by omega)
  rw [hh] at hend
  exact hend.ramWord_y_extractBody (by simpa [State.p] using hi)

/-- The completion leaves the RAMs as they are. -/
@[simp] theorem State.ramWord_complete (s : State) (r : Ram) (w : Nat) : s.complete.ramWord r w = s.ramWord r w := rfl

/-- The sizes and the Y of a CONV whose checks pass. -/
theorem exec_conv_of_checks {s : State} (hp : ∀ c ∈ s.sizeChecks, c = none) :
    ∃ t, exec .conv s = .next t ∧ t.l = s.sizedL ∧ t.p = s.sizedP ∧
      ∀ i < s.sizedP, t.ramWord .y i =
        (entryAt (convResult s.build.log2KMax s.sizedL (padEntries (2 ^ s.sizedL) s.m (s.loadWord .x))
          (padEntries (2 ^ s.sizedL) s.n (s.loadWord .h))) (i % 2 ^ s.sizedL)).re := by
  obtain ⟨-, -, -, hn, hL⟩ := s.sizeChecks_pass_iff.1 hp
  have hlog := s.build.log2KMax_le
  have hl : s.sizeBody.l = s.sizedL := by
    rw [State.l, State.sizeBody_log2k, BitVec.toNat_ofNat, Nat.mod_eq_of_lt (by omega)]
  have hP : s.sizeBody.p = s.sizedP := (sizes_fit_registers (.inl rfl) hp).2
  refine ⟨s.convBody.complete, ?_, ?_, ?_, fun i hi => ?_⟩
  · rw [exec_eq_command, commandChecks, commandBody, State.command_of_passes hp]
  · rw [← hl, State.l, State.l]
    simp
  · rw [← hP, State.p, State.p]
    simp
  · have hy := ramWord_y_convSteps s.sizeBody rfl hl (Nat.pow_le_pow_right two_pos (hL.trans hlog))
      (hn.trans s.build.kMax_le) (hi.trans_eq hP.symm)
    rw [← State.convBody_eq_convSteps] at hy
    rw [State.ramWord_complete, hy]
    rfl

/-- Settles O28: both CONVs have the same sizes, each pads what the other pads into the other buffer, and the product
of the spectra commutes. -/
theorem linearConvIsCommutative : Obligations.LinearConvIsCommutative := by
  intro s s' hmode hmode' hbuild hm0 hn0 hm hn hP hm' hn' hx hh
  have hL : s.sizedL ≤ s.build.log2KMax := by
    rw [State.sizedL, hmode]
    exact (bitlen_le_iff _ _).2 (by rw [validLength]; exact (Nat.sub_lt (by omega) one_pos).trans_le hP)
  have hl : s'.sizedL = s.sizedL := by
    rw [State.sizedL, State.sizedL, hmode, hmode', hm', hn', sizeExponent, sizeExponent, validLength, validLength,
      Nat.add_comm]
  have hp : s'.sizedP = s.sizedP := by
    rw [State.sizedP, State.sizedP, hm', hn', validLength, validLength, Nat.add_comm]
  obtain ⟨t, ht, htl, htp, hty⟩ := exec_conv_of_checks (s.sizeChecks_pass_iff.2 ⟨hm0, hn0, hm, hn, hL⟩)
  obtain ⟨t', ht', htl', htp', hty'⟩ := exec_conv_of_checks (s := s') (s'.sizeChecks_pass_iff.2 (by
    rw [hm', hn', hbuild, hl]
    exact ⟨hn0, hm0, hn, hm, hL⟩))
  refine ⟨t, t', ht, ht', by rw [htl, htl', hl], by rw [htp, htp', hp], fun i hi => ?_⟩
  have hpadx : padEntries (2 ^ s.sizedL) s.m (s'.loadWord .h) = padEntries (2 ^ s.sizedL) s.m (s.loadWord .x) :=
    padEntries_congr _ fun j hj => congrArg RamWord.loaded (hx j hj)
  have hpadh : padEntries (2 ^ s.sizedL) s.n (s'.loadWord .x) = padEntries (2 ^ s.sizedL) s.n (s.loadWord .h) :=
    padEntries_congr _ fun j hj => congrArg RamWord.loaded (hh j hj)
  rw [hty i (htp ▸ hi), hty' i (hp ▸ htp ▸ hi), convResult_comm, hbuild, hl, hm', hn', hpadx, hpadh]

end Sys2Proof.Machine
end

section
/-! SUPPORT. The twiddle ROM: the search for the word nearest to a cosine, and the independence of its result of
LOG2_KMAX (40_datapath.md R129, R130). -/

namespace Sys2Proof.Machine

/-! ### The comparison, in units -/

/-- What orders two numbers is the library's comparison of them. -/
theorem Orders.compares {o : Ordering} {x y : ℝ} (h : Orders o x y) : o.Compares x y := by cases o <;> exact h

/-- The cosine of (π/2)(a/2^n), in units of 2^-1074. -/
noncomputable def cosUnits (n a : Nat) : ℝ := Real.cos (quarterAngle (2 ^ n) a) * 2 ^ 1074

/-- `cmpCos` with the fuel and the circle of a ROM orders a dyadic number and the cosine. -/
theorem orders_cmpCos_rom {n a : Nat} (ha : a ≤ 2 * 2 ^ n) (p : Int) (q : Nat) :
    Orders (cmpCos (n + 2) (2 ^ n) a p q) (p / 2 ^ q) (Real.cos (quarterAngle (2 ^ n) a)) :=
  orders_cmpCos _ (Nat.two_pow_pos n) n a p q ha (Nat.dvd_mul_right _ _)

/-- And so a dyadic number given as units. -/
theorem orders_cmpCos_units {n a : Nat} (ha : a ≤ 2 * 2 ^ n) {p : Int} {q : Nat} {v : ℝ}
    (hv : (p : ℝ) / 2 ^ q = v / 2 ^ 1074) : Orders (cmpCos (n + 2) (2 ^ n) a p q) v (cosUnits n a) := by
  have hunit : (0 : ℝ) < 2 ^ 1074 := pow_pos two_pos _
  have h := orders_cmpCos_rom ha p q
  rw [hv] at h
  refine h.of_map ?_ ?_ <;> rw [cosUnits]
  · exact (div_lt_iff₀ hunit).symm
  · exact (lt_div_iff₀ hunit).symm

/-- The mantissa and the shift of bits below those of 2.0 give their magnitude, and the odd mantissa after them, with
one place more, the midpoint to the next magnitude. -/
theorem magMantissa_div {b : Nat} (hb : b < 2 ^ 62) :
    (magMantissa b : ℝ) / 2 ^ magShift b = bitsMag b / 2 ^ 1074 ∧
      (2 * magMantissa b + 1 : ℝ) / 2 ^ (magShift b + 1) = ((bitsMag b + bitsMag (b + 1)) / 2 : ℝ) / 2 ^ 1074 := by
  obtain ⟨e, m, rfl, he, hm⟩ := exists_quantum b
  have hmant : magMantissa (e * 2 ^ 52 + m) = m := by rw [magMantissa]; split <;> omega
  have hshift : 1074 = magShift (e * 2 ^ 52 + m) + e := by rw [magShift]; omega
  have hmag := bitsMag_encode_lt he hm
  have hnext := bitsMag_encode (e := e) (m := m + 1) (by omega) (by omega)
  rw [add_assoc, hmag, hnext, hmant, hshift, pow_add]
  push_cast
  constructor
  · field_simp
  · field_simp
    ring

section
variable {n a : Nat}

/-- The comparison of the magnitude of bits below those of 2.0 with the cosine. -/
theorem compares_cmpCos_bits (ha : a ≤ 2 * 2 ^ n) {b : Nat} (hb : b < 2 ^ 62) :
    (cmpCos (n + 2) (2 ^ n) a (magMantissa b) (magShift b)).Compares (bitsMag b : ℝ) (cosUnits n a) :=
  (orders_cmpCos_units ha (by rw [Int.cast_natCast, (magMantissa_div hb).1])).compares

/-- The comparison of the midpoint to the next magnitude with the cosine. -/
theorem compares_cmpCos_midpoint (ha : a ≤ 2 * 2 ^ n) {b : Nat} (hb : b < 2 ^ 62) :
    (cmpCos (n + 2) (2 ^ n) a (2 * magMantissa b + 1 : Nat) (magShift b + 1)).Compares
      ((bitsMag b + bitsMag (b + 1)) / 2 : ℝ) (cosUnits n a) :=
  (orders_cmpCos_units ha (by rw [← (magMantissa_div hb).2]; push_cast; rfl)).compares

/-! ### The search -/

/-- `floorCos` finds the last bits whose magnitude does not exceed the cosine. -/
theorem floorCos_spec (ha : a ≤ 2 * 2 ^ n) (bits : Nat) : ∀ b : Nat, b + 2 ^ bits ≤ 2 ^ 62 →
    (bitsMag b : ℝ) ≤ cosUnits n a → cosUnits n a < bitsMag (b + 2 ^ bits) →
      floorCos (n + 2) (2 ^ n) a bits b < 2 ^ 62 ∧
        (bitsMag (floorCos (n + 2) (2 ^ n) a bits b) : ℝ) ≤ cosUnits n a ∧
        cosUnits n a < bitsMag (floorCos (n + 2) (2 ^ n) a bits b + 1) := by
  induction bits with
  | zero => exact fun b hb hlow hhigh => ⟨hb, hlow, hhigh⟩
  | succ bits ih =>
    intro b hb hlow hhigh
    rw [pow_succ, mul_two, ← add_assoc] at hb hhigh
    have hpos := Nat.two_pow_pos bits
    have hcmp := (compares_cmpCos_bits ha (b := b + 2 ^ bits) (by omega)).eq_gt
    rw [floorCos]
    split
    next hgt => exact ih b (by omega) hlow (hcmp.1 hgt)
    next hgt => exact ih (b + 2 ^ bits) (by omega) (not_lt.1 (hcmp.not.1 hgt)) hhigh

/-- 2.0 in units. -/
theorem bitsMag_two : (bitsMag (2 ^ 62) : ℝ) = 2 * 2 ^ 1074 := by
  have h := bitsMag_power 1
  rw [show (1023 + 1) * 2 ^ 52 = 2 ^ 62 from rfl, pow_one] at h
  rw [h, Nat.cast_mul, Nat.cast_pow, Nat.cast_ofNat]

/-- The angle of the first quadrant. -/
theorem quarterAngle_mem (ha : a ≤ 2 ^ n) : quarterAngle (2 ^ n) a ∈ Set.Icc 0 (Real.pi / 2) := by
  have hfrac : (a : ℝ) / (2 ^ n : Nat) ≤ 1 := (div_le_one (by positivity)).2 (by exact_mod_cast ha)
  exact ⟨by rw [quarterAngle]; positivity, mul_le_of_le_one_right (by positivity) hfrac⟩

/-- In the first quadrant the cosine lies from 0 to 1. -/
theorem cosUnits_mem (ha : a ≤ 2 ^ n) : 0 ≤ cosUnits n a ∧ cosUnits n a < bitsMag (2 ^ 62) := by
  obtain ⟨hlow, hhigh⟩ := quarterAngle_mem ha
  have hcos := Real.cos_nonneg_of_mem_Icc ⟨by linarith [Real.pi_pos], hhigh⟩
  have hunit : (0 : ℝ) < 2 ^ 1074 := pow_pos two_pos _
  rw [bitsMag_two]
  exact ⟨mul_nonneg hcos hunit.le, mul_lt_mul_of_pos_right ((Real.cos_le_one _).trans_lt one_lt_two) hunit⟩

/-- `nearestCos` gives the bits nearest to a cosine of the first quadrant. -/
theorem isNearest_nearestCos (ha : a ≤ 2 ^ n) :
    ∃ lo, IsNearest (cosUnits n a) lo (nearestCos (n + 2) (2 ^ n) a) ∧ nearestCos (n + 2) (2 ^ n) a < infBits := by
  have ha' : a ≤ 2 * 2 ^ n := by omega
  obtain ⟨h0, htop⟩ := cosUnits_mem ha
  obtain ⟨hb, hlow, hhigh⟩ := floorCos_spec ha' 62 0 (by norm_num)
    (by rwa [bitsMag_zero, Nat.cast_zero]) (by rwa [zero_add])
  have hcmp := compares_cmpCos_midpoint ha' hb
  rw [nearestCos]
  generalize floorCos (n + 2) (2 ^ n) a 62 0 = b at *
  have hb1 : b + 1 < infBits := by rw [infBits]; omega
  split
  next h =>
    have hlt := hcmp.eq_lt.1 h
    exact ⟨b, ⟨hlow, hhigh, .inr ⟨rfl, by linarith⟩⟩, hb1⟩
  next h =>
    have hgt := hcmp.eq_gt.1 h
    exact ⟨b, ⟨hlow, hhigh, .inl ⟨rfl, by linarith⟩⟩, by omega⟩
  next h =>
    have heq := hcmp.eq_eq.1 h
    refine ⟨b, ⟨hlow, hhigh, ?_⟩, by omega⟩
    rcases Nat.mod_two_eq_zero_or_one b with hm | hm <;> rw [hm]
    · exact .inl ⟨rfl, by linarith⟩
    · exact .inr ⟨rfl, by linarith⟩

/-- `cosF64` gives the word nearest to the cosine, on both sides of π/2: of an angle past it, the negated cosine of its
distance from π. -/
theorem cosF64_cases (ha : a ≤ 2 * 2 ^ n) : ∃ s, ∃ a' ≤ 2 ^ n,
    cosF64 (n + 2) (2 ^ n) a = signedWord s (nearestCos (n + 2) (2 ^ n) a') ∧
      Real.cos (quarterAngle (2 ^ n) a) = unitsValue s (cosUnits n a') := by
  have hvalue : ∀ a' : Nat, cosUnits n a' / 2 ^ 1074 = Real.cos (quarterAngle (2 ^ n) a') := fun a' =>
    mul_div_cancel_right₀ _ (pow_ne_zero _ two_ne_zero)
  rw [cosF64]
  split
  next h =>
    refine ⟨false, a, h, by rw [signedWord, cond_false, zero_add], (hvalue a).symm⟩
  next h =>
    refine ⟨true, 2 * 2 ^ n - a, by omega, rfl, ?_⟩
    have hangle : quarterAngle (2 ^ n) (2 * 2 ^ n - a) = Real.pi - quarterAngle (2 ^ n) a := by
      rw [quarterAngle, quarterAngle, Nat.cast_sub ha]
      push_cast
      field_simp
    rw [unitsValue, if_pos rfl, neg_div, hvalue, hangle, Real.cos_pi_sub, neg_neg]

/-- The value of a word in the reals. -/
theorem fval_cast (w : F64) : ((fval w : ℚ) : ℝ) = unitsValue (fsign w) (bitsMag (fbits w) : ℝ) := by
  rw [fval_eq, unitsValue, unitsValue]
  split <;> push_cast <;> rfl

/-- `cosF64` is finite, and no finite word lies nearer to the cosine (40_datapath.md R129). -/
theorem cosF64_nearest (ha : a ≤ 2 * 2 ^ n) {x : ℝ} (hx : Real.cos (quarterAngle (2 ^ n) a) = x) :
    fisFinite (cosF64 (n + 2) (2 ^ n) a) = true ∧
      ∀ c : F64, |(fval (cosF64 (n + 2) (2 ^ n) a) : ℝ) - x| ≤ |(fval c : ℝ) - x| := by
  obtain ⟨s, a', ha', hw, hcos⟩ := cosF64_cases ha
  obtain ⟨lo, hnear, hfin⟩ := isNearest_nearestCos ha'
  rw [← hx, hw, hcos]
  refine ⟨fisFinite_signedWord s hfin, fun c => ?_⟩
  rw [fval_cast c, fval_cast, fsign_signedWord s (hfin.trans infBits_lt), fbits_signedWord s (hfin.trans infBits_lt)]
  exact hnear.unitsValue_dist_le s _ _

/-- A cosine of the first quadrant that is representable is found exactly. -/
theorem cosF64_exact (ha : a ≤ 2 ^ n) {b : Nat} (hb : cosUnits n a = bitsMag b) :
    cosF64 (n + 2) (2 ^ n) a = BitVec.ofNat 64 b := by
  obtain ⟨lo, hnear, -⟩ := isNearest_nearestCos ha
  have hle := hnear.dist_le b
  rw [hb, sub_self, abs_zero, abs_nonpos_iff, sub_eq_zero, Nat.cast_inj] at hle
  rw [cosF64, if_pos ha, bitsMag_strictMono.injective hle]

end

/-! ### The ROM (40_datapath.md R129) -/

/-- The distance of entry k's angle from π/2, as `romS` takes it. -/
def sineArg (n k : Nat) : Nat := if 2 ^ n ≤ 4 * k then 4 * k - 2 ^ n else 2 ^ n - 4 * k

theorem romS_eq (n k : Nat) : romS n k = cosF64 (n + 2) (2 ^ n) (sineArg n k) := rfl

/-- The angle of entry k. -/
theorem quarterAngle_rom (n k : Nat) : quarterAngle (2 ^ n) (4 * k) = 2 * Real.pi * k / 2 ^ n := by
  rw [quarterAngle]
  push_cast
  ring

/-- The sine of an entry's angle is the cosine of its distance from π/2. -/
theorem cos_sineArg (n k : Nat) :
    Real.cos (quarterAngle (2 ^ n) (sineArg n k)) = Real.sin (2 * Real.pi * k / 2 ^ n) := by
  have hquarter : quarterAngle (2 ^ n) (2 ^ n) = Real.pi / 2 := by
    rw [quarterAngle, div_self (by positivity), mul_one]
  have hsub : ∀ {a a' : Nat}, a' ≤ a →
      quarterAngle (2 ^ n) (a - a') = quarterAngle (2 ^ n) a - quarterAngle (2 ^ n) a' :=
    fun h => by rw [quarterAngle, quarterAngle, quarterAngle, Nat.cast_sub h]; ring
  rw [sineArg]
  split
  next h => rw [hsub h, hquarter, quarterAngle_rom, Real.cos_sub_pi_div_two]
  next h => rw [hsub (le_of_not_ge h), hquarter, quarterAngle_rom, Real.cos_pi_div_two_sub]

theorem sineArg_le {n k : Nat} (hk : 4 * k ≤ 2 * 2 ^ n) : sineArg n k ≤ 2 ^ n := by
  rw [sineArg]
  split <;> omega

/-- Both ends of the first quadrant in units: 1.0 and +0.0. -/
theorem cosUnits_zero (n : Nat) : cosUnits n 0 = bitsMag 0x3FF0000000000000 := by
  have h : bitsMag 0x3FF0000000000000 = 2 ^ 1074 := by
    rw [show 0x3FF0000000000000 = 1022 * 2 ^ 52 + 2 ^ 52 by decide, bitsMag_encode (.inr le_rfl) (by norm_num),
      ← pow_add]
  rw [h, cosUnits, quarterAngle, Nat.cast_zero, zero_div, mul_zero, Real.cos_zero, one_mul, Nat.cast_pow,
    Nat.cast_ofNat]

theorem cosUnits_quarter (n : Nat) : cosUnits n (2 ^ n) = bitsMag 0 := by
  rw [bitsMag_zero, cosUnits, quarterAngle, div_self (by positivity), mul_one, Real.cos_pi_div_two, zero_mul,
    Nat.cast_zero]

theorem cosF64_zero (n : Nat) : cosF64 (n + 2) (2 ^ n) 0 = 0x3FF0000000000000 :=
  cosF64_exact (Nat.zero_le _) (cosUnits_zero n)

theorem cosF64_quarter (n : Nat) : cosF64 (n + 2) (2 ^ n) (2 ^ n) = 0 :=
  cosF64_exact le_rfl (cosUnits_quarter n)

/-- Settles O57: every entry is `cosF64` of an angle whose cosine is the number, and the exact entries are at the ends
of the first quadrant. -/
theorem twiddleRomIsCorrectlyRounded : Obligations.TwiddleRomIsCorrectlyRounded := by
  intro n hn _
  refine ⟨fun k hk => ?_, cosF64_zero n, ?_, fun h2 => ?_⟩
  · have hhalf : 2 * 2 ^ (n - 1) = 2 ^ n := by rw [← pow_succ', Nat.sub_add_cancel hn]
    obtain ⟨hcfin, hc⟩ := cosF64_nearest (n := n) (a := 4 * k) (by omega) (congrArg Real.cos (quarterAngle_rom n k))
    obtain ⟨hsfin, hs⟩ := cosF64_nearest (n := n) ((sineArg_le (by omega)).trans (by omega)) (cos_sineArg n k)
    exact ⟨hcfin, hsfin, fun c _ => ⟨hc c, hs c⟩⟩
  · rw [romS_eq, show sineArg n 0 = 2 ^ n by simp [sineArg], cosF64_quarter]
  · have hquarter : 4 * 2 ^ (n - 2) = 2 ^ n := by rw [show 4 = 2 ^ 2 from rfl, ← pow_add, Nat.add_sub_cancel' h2]
    exact ⟨by rw [romC, hquarter, cosF64_quarter],
      by rw [romS_eq, show sineArg n (2 ^ (n - 2)) = 0 by simp [sineArg, hquarter], cosF64_zero]⟩

/-! ### The twiddles do not depend on LOG2_KMAX (40_datapath.md R130) -/

/-- The search depends on the answers of the comparison alone. -/
theorem floorCos_congr {f f' Q Q' a a' : Nat} (h : ∀ p q, cmpCos f Q a p q = cmpCos f' Q' a' p q) (bits b : Nat) :
    floorCos f Q a bits b = floorCos f' Q' a' bits b := by
  induction bits generalizing b with
  | zero => rfl
  | succ bits ih => rw [floorCos, floorCos, h, ih]

theorem nearestCos_congr {f f' Q Q' a a' : Nat} (h : ∀ p q, cmpCos f Q a p q = cmpCos f' Q' a' p q) :
    nearestCos f Q a = nearestCos f' Q' a' := by
  rw [nearestCos, nearestCos, floorCos_congr h, h]

/-- On a circle 2^r times as fine, the comparison of the same angle gives the same answers: it is exact. -/
theorem cmpCos_scale (n r : Nat) {a : Nat} (ha : a ≤ 2 * 2 ^ n) (p : Int) (q : Nat) :
    cmpCos (n + r + 2) (2 ^ (n + r)) (a * 2 ^ r) p q = cmpCos (n + 2) (2 ^ n) a p q := by
  have hangle : quarterAngle (2 ^ (n + r)) (a * 2 ^ r) = quarterAngle (2 ^ n) a := by
    rw [quarterAngle, quarterAngle, pow_add]
    push_cast
    rw [mul_div_mul_right _ _ (pow_ne_zero _ two_ne_zero)]
  have hfine := orders_cmpCos_rom (n := n + r) (a := a * 2 ^ r)
    (by rw [pow_add, ← mul_assoc]; exact Nat.mul_le_mul_right _ ha) p q
  rw [hangle] at hfine
  exact hfine.compares.inj (orders_cmpCos_rom ha p q).compares

theorem cosF64_scale (n r : Nat) {a : Nat} (ha : a ≤ 2 * 2 ^ n) :
    cosF64 (n + r + 2) (2 ^ (n + r)) (a * 2 ^ r) = cosF64 (n + 2) (2 ^ n) a := by
  have hr := Nat.two_pow_pos r
  rw [cosF64, cosF64, nearestCos_congr (cmpCos_scale n r ha), pow_add,
    show 2 * (2 ^ n * 2 ^ r) - a * 2 ^ r = (2 * 2 ^ n - a) * 2 ^ r by rw [Nat.sub_mul, mul_assoc], ← pow_add,
    nearestCos_congr (cmpCos_scale n r (Nat.sub_le _ _)), pow_add]
  simp only [Nat.mul_le_mul_right_iff hr]

theorem romC_scale (n r : Nat) {j : Nat} (hj : 4 * j ≤ 2 * 2 ^ n) : romC (n + r) (j * 2 ^ r) = romC n j := by
  rw [romC, romC, ← mul_assoc, cosF64_scale n r hj]

theorem romS_scale (n r : Nat) {j : Nat} (hj : 4 * j ≤ 2 * 2 ^ n) : romS (n + r) (j * 2 ^ r) = romS n j := by
  have harg : sineArg (n + r) (j * 2 ^ r) = sineArg n j * 2 ^ r := by
    rw [sineArg, sineArg, pow_add, ← mul_assoc, ite_mul, Nat.sub_mul, Nat.sub_mul]
    simp only [Nat.mul_le_mul_right_iff (Nat.two_pow_pos r)]
  rw [romS_eq, romS_eq, harg, cosF64_scale n r ((sineArg_le hj).trans (by omega))]

/-- Settles O58: the index is below 2^(m-1), and the ROM holds at it what the ROM of LOG2_KMAX = n holds at j. -/
theorem twiddleSelection : Obligations.TwiddleSelection := by
  intro m n j hn hm _ hj
  obtain ⟨r, rfl⟩ := Nat.exists_eq_add_of_le hm
  have hhalf : 2 * 2 ^ (n - 1) = 2 ^ n := by rw [← pow_succ', Nat.sub_add_cancel hn]
  refine ⟨?_, rfl, rfl, fun d => ?_⟩
  · rw [Nat.add_sub_cancel_left, show n + r - 1 = n - 1 + r by omega, pow_add]
    exact Nat.mul_lt_mul_of_pos_right hj (Nat.two_pow_pos r)
  · have hj' : 4 * j ≤ 2 * 2 ^ n := by omega
    unfold twiddle
    rw [romIndex, romIndex, Nat.add_sub_cancel_left, Nat.sub_self, pow_zero, mul_one, romC_scale n r hj',
      romS_scale n r hj']

end Sys2Proof.Machine
end

section
/-! SUPPORT. The transform engine: BITREV, STAGE and FFT on the entries of an active region, and the checks that their
LOG2K and operands must pass (41_transform.md, 60_exceptions.md R224). -/

namespace Sys2Proof.Machine

/-! ### A command by the outcome of its checks -/

/-- A command with a failing check ends with the error of the first one. -/
theorem exec_of_fails {i : Instr} {s : State} {e : Err} (h : (commandChecks i s).findSome? id = some e) :
    exec i s = .next (s.raise e) := by
  rw [exec_eq_command, State.command_of_fails h]

/-- A command whose checks pass does its writes and completes. -/
theorem exec_of_passes {i : Instr} {s : State} (h : ∀ c ∈ commandChecks i s, c = none) :
    exec i s = .next (commandBody i s).complete := by
  rw [exec_eq_command, State.command_of_passes h]

theorem State.checkL_of_fits {s : State} (h : s.l ≤ s.build.log2KMax) : s.checkL s.l = none :=
  (s.checkL_eq_none_iff _).2 h

theorem State.checkL_of_exceeds {s : State} (h : s.build.log2KMax < s.l) :
    s.checkL s.l = some ⟨.invalidSize, .log2k, s.log2k.setWidth 32⟩ := by
  rw [State.checkL, require_eq_some]
  exact ⟨by simpa using h, by rw [State.l, BitVec.ofNat_toNat]⟩

/-- The check that CLEAR, BITREV, FFT, CMUL and SCALE make passes if L fits. -/
theorem State.checks_pass_of_fits {s : State} (h : s.l ≤ s.build.log2KMax) : ∀ c ∈ [s.checkL s.l], c = none := by
  simpa using State.checkL_of_fits h

/-- A STAGE number passes its check exactly if it is one of 1 … L (41_transform.md R152). -/
theorem State.checkStage_eq_none_iff (s : State) (n : Nat) : s.checkStage n = none ↔ 1 ≤ n ∧ n ≤ s.l := by
  simp [State.checkStage]

theorem State.stageChecks_pass {s : State} {n : Nat} (h : s.l ≤ s.build.log2KMax) (hn : 1 ≤ n) (hnl : n ≤ s.l) :
    ∀ c ∈ [s.checkL s.l, s.checkStage n], c = none := by
  simpa [s.checkStage_eq_none_iff] using ⟨State.checkL_of_fits h, hn, hnl⟩

theorem State.checkStage_of_outside {s : State} {n : Nat} (h : n = 0 ∨ s.l < n) :
    s.checkStage n = some ⟨.invalidSize, .stage, BitVec.ofNat 32 n⟩ := by
  rw [State.checkStage, require_eq_some]
  refine ⟨?_, rfl⟩
  rw [← Bool.decide_and, decide_eq_false_iff_not]
  omega

theorem State.checkPCapacity_of_exceeds {s : State} (h : s.build.yMax < s.p) :
    s.checkPCapacity = some ⟨.invalidSize, .pLen, s.pLen⟩ := by
  rw [State.checkPCapacity, require_eq_some]
  exact ⟨by simpa using h, rfl⟩

/-- Settles O31: the check of LOG2K is the first one of each of these commands. -/
theorem oversizedLog2kIsReported : Obligations.OversizedLog2kIsReported := by
  intro s b d n i hi hl
  have hfirst : ∃ rest, commandChecks i s = s.checkL s.l :: rest := by
    simp only [List.mem_cons, List.not_mem_nil, or_false] at hi
    rcases hi with rfl | rfl | rfl | rfl | rfl | rfl | rfl <;> exact ⟨_, rfl⟩
  obtain ⟨rest, hrest⟩ := hfirst
  exact exec_of_fails (by rw [hrest, State.checkL_of_exceeds hl]; rfl)

/-- Settles O32: the check of LOG2K passes, and the second one fails. -/
theorem stageNumberAndExtractLengthAreChecked : Obligations.StageNumberAndExtractLengthAreChecked := by
  refine fun s hl => ⟨fun b d n hn =>
    exec_of_fails (e := ⟨.invalidSize, .stage, BitVec.ofNat 32 n⟩) ?_, fun hp =>
    exec_of_fails (e := ⟨.invalidSize, .pLen, s.pLen⟩) ?_⟩
  · rw [commandChecks, State.checkL_of_fits hl, State.checkStage_of_outside hn]; rfl
  · rw [commandChecks, State.checkL_of_fits hl, State.checkPCapacity_of_exceeds hp]; rfl

/-! ### Commands that rewrite the active region of a buffer -/

/-- A command whose checks pass and whose body stores the K entries `es` in buffer b completes, with those entries in
the active region, and leaves all else alone but for the completion. -/
theorem exec_stores_entries {i : Instr} {s : State} {b : Buf} {es : List Entry}
    (hp : ∀ c ∈ commandChecks i s, c = none) (hbody : commandBody i s = s.putEntries b es) (hl : es.length = s.k) :
    ∃ t, exec i s = .next t ∧ t = { s with mem := t.mem, done := true, eng := .idle } ∧
      (∀ j < s.k, t.entry b j = entryAt es j) ∧
      ∀ a, a < (ramOf b).addr 0 ∨ (ramOf b).addr 0 + 16 * s.k ≤ a → t.mem.read a = s.mem.read a := by
  refine ⟨(s.putEntries b es).complete, by rw [exec_of_passes hp, hbody], rfl, fun j hj => ?_, fun a ha => ?_⟩
  · rw [entryAt_eq _ _ (hl ▸ hj)]
    exact s.entry_putEntries b es j (hl ▸ hj)
  · exact s.read_putEntries_of_outside b es a (hl ▸ ha)

theorem entryAt_entries (s : State) (b : Buf) {k j : Nat} (hj : j < k) :
    entryAt (s.entries b k) j = (s.entry b j).loaded := by
  rw [entryAt_eq _ _ (by simpa using hj), State.entries_getElem]

theorem entryAt_set_self {es : List Entry} {i : Nat} (h : i < es.length) (e : Entry) : entryAt (es.set i e) i = e := by
  simp [entryAt, h]

theorem entryAt_set_of_ne (es : List Entry) {i j : Nat} (h : i ≠ j) (e : Entry) :
    entryAt (es.set i e) j = entryAt es j := by
  simp [entryAt, h]

/-! ### BITREV -/

/-- Bit reversal is its own inverse, so it takes distinct indices to distinct ones (40_datapath.md R131). -/
theorem bitrev_bitrev {l i : Nat} (hi : i < 2 ^ l) : bitrev l (bitrev l i) = i := by
  obtain ⟨-, hinverse, -⟩ := bitReversalLaw.1 l i hi
  exact hinverse

theorem bitrev_injOn (l : Nat) : Set.InjOn (bitrev l) {i | i < 2 ^ l} :=
  Set.LeftInvOn.injOn fun _ => bitrev_bitrev

/-- The bit reversal moves entry i to entry rev_L(i): no later move has the same target. -/
theorem entryAt_bitrevEntries {l : Nat} {es : List Entry} (hl : es.length = 2 ^ l) {i : Nat} (hi : i < 2 ^ l) :
    entryAt (bitrevEntries l es) (bitrev l i) = entryAt es i := by
  have moved : ∀ n ≤ 2 ^ l, ∀ i < n,
      entryAt ((List.range n).foldl (fun out i => out.set (bitrev l i) (entryAt es i)) es) (bitrev l i) =
        entryAt es i := by
    intro n
    induction n with
    | zero => intro _ i hi; omega
    | succ n ih =>
      intro hn i hi
      rw [List.range_succ, List.foldl_append, List.foldl_cons, List.foldl_nil]
      rcases Nat.lt_succ_iff_lt_or_eq.1 hi with hlt | rfl
      · rw [entryAt_set_of_ne _ ((bitrev_injOn l).ne hn (hlt.trans hn) hlt.ne'), ih (by omega) i hlt]
      · refine entryAt_set_self ?_ _
        rw [foldl_keeps_length _ fun _ _ => List.length_set, hl]
        exact bitrev_lt l i
  exact moved _ le_rfl i hi

/-- Settles O16: the entries stored are the bit-reversed ones. -/
theorem bitrevPermutesEntries : Obligations.BitrevPermutesEntries := by
  intro s b hl
  obtain ⟨t, ht, hregs, hentry, hframe⟩ := exec_stores_entries (i := .bitrev b) (b := b)
    (es := bitrevEntries s.l (s.entries b s.k)) (State.checks_pass_of_fits hl) rfl (by simp)
  refine ⟨t, ht, hregs, fun i hi => ?_, hframe⟩
  rw [hentry _ (bitrev_lt s.l i), entryAt_bitrevEntries (s.entries_length b s.k) hi, entryAt_entries s b hi]

/-! ### STAGE -/

/-- A butterfly sees its operands as a command reads them. -/
theorem butterfly_loaded (w u v : Entry) : butterfly w u.loaded v.loaded = butterfly w u v := by
  simp [butterfly, cadd, csub, cmul, Entry.loaded, RamWord.add, RamWord.sub, RamWord.mul]

/-- The place of the lower entry of butterfly j of group g of stage n, given as the pair (g, j) (41_transform.md
R152). -/
def lowerIndex (n : Nat) (p : Nat × Nat) : Nat := p.1 * 2 ^ n + p.2

/-- The place of its upper entry, half a span above. -/
def upperIndex (n : Nat) (p : Nat × Nat) : Nat := p.1 * 2 ^ n + p.2 + 2 ^ (n - 1)

/-- The two entries of a butterfly. -/
def pairAt (n : Nat) (p : Nat × Nat) (es : List Entry) : Entry × Entry :=
  (entryAt es (lowerIndex n p), entryAt es (upperIndex n p))

/-- One butterfly of stage n. -/
def stageButterfly (log2KMax n : Nat) (d : Dir) (es : List Entry) (p : Nat × Nat) : List Entry :=
  butterflyAt (twiddle log2KMax n p.2 d) (lowerIndex n p) (upperIndex n p) es

/-- A butterfly leaves its results in its two entries. -/
theorem pairAt_stageButterfly {log2KMax n : Nat} {d : Dir} {p : Nat × Nat} {es : List Entry}
    (hlen : upperIndex n p < es.length) :
    pairAt n p (stageButterfly log2KMax n d es p) =
      butterfly (twiddle log2KMax n p.2 d) (pairAt n p es).1 (pairAt n p es).2 := by
  have hlt : lowerIndex n p < upperIndex n p := Nat.lt_add_of_pos_right (Nat.two_pow_pos _)
  rw [pairAt, stageButterfly, butterflyAt, entryAt_set_of_ne _ hlt.ne', entryAt_set_self (hlt.trans hlen),
    entryAt_set_self (by rwa [List.length_set])]
  rfl

/-- The butterflies of stage n, in their order. -/
def stagePairs (l n : Nat) : List (Nat × Nat) := (List.range (2 ^ l / 2 ^ n)).product (List.range (2 ^ (n - 1)))

/-- The two nested loops of a stage are one loop over its butterflies. -/
theorem stageEntries_eq (log2KMax l n : Nat) (d : Dir) (es : List Entry) :
    stageEntries log2KMax l n d es = (stagePairs l n).foldl (stageButterfly log2KMax n d) es := by
  rw [stagePairs, List.product, List.foldl_flatMap]
  simp only [List.foldl_map]
  rfl

theorem mem_stagePairs {l n : Nat} {p : Nat × Nat} :
    p ∈ stagePairs l n ↔ p.1 < 2 ^ l / 2 ^ n ∧ p.2 < 2 ^ (n - 1) := by
  rw [stagePairs, List.pair_mem_product, List.mem_range, List.mem_range]

theorem stagePairs_nodup (l n : Nat) : (stagePairs l n).Nodup := List.nodup_range.product List.nodup_range

/-- An index determines the group it lies in and its place there. -/
theorem group_place_unique {n g g' x x' : Nat} (hx : x < 2 ^ n) (hx' : x' < 2 ^ n)
    (h : g * 2 ^ n + x = g' * 2 ^ n + x') : g = g' ∧ x = x' := by
  have split : ∀ {g x}, x < 2 ^ n → (g * 2 ^ n + x) / 2 ^ n = g ∧ (g * 2 ^ n + x) % 2 ^ n = x := fun hx =>
    (Nat.div_mod_unique (Nat.two_pow_pos n)).2 ⟨by ring, hx⟩
  obtain ⟨hg, hp⟩ := split (g := g) hx
  obtain ⟨hg', hp'⟩ := split (g := g') hx'
  exact ⟨hg.symm.trans (h ▸ hg'), hp.symm.trans (h ▸ hp')⟩

section
variable {log2KMax n : Nat} {d : Dir} (hn : 1 ≤ n)
include hn

theorem two_pow_eq_two_spans : 2 ^ n = 2 * 2 ^ (n - 1) := by rw [← pow_succ', Nat.sub_add_cancel hn]

/-- The entries of a butterfly lie in the active region. -/
theorem upperIndex_lt {l : Nat} (hnl : n ≤ l) {p : Nat × Nat} (hp : p ∈ stagePairs l n) : upperIndex n p < 2 ^ l := by
  obtain ⟨hg, hj⟩ := mem_stagePairs.1 hp
  have hspan := two_pow_eq_two_spans hn
  calc upperIndex n p < (p.1 + 1) * 2 ^ n := by rw [upperIndex, Nat.add_one_mul]; omega
    _ ≤ 2 ^ l / 2 ^ n * 2 ^ n := Nat.mul_le_mul_right _ hg
    _ = 2 ^ l := Nat.div_mul_cancel (pow_dvd_pow 2 hnl)

/-- Distinct butterflies of a stage have no entry in common. -/
theorem indices_ne {p q : Nat × Nat} (hp : p.2 < 2 ^ (n - 1)) (hq : q.2 < 2 ^ (n - 1)) (hne : p ≠ q) :
    ∀ k ∈ [lowerIndex n p, upperIndex n p], lowerIndex n q ≠ k ∧ upperIndex n q ≠ k := by
  have hspan := two_pow_eq_two_spans hn
  have hne' : ¬(q.1 = p.1 ∧ q.2 = p.2) := fun h => hne (Prod.ext h.1 h.2).symm
  have apart : ∀ {x y : Nat}, x < 2 ^ n → y < 2 ^ n → ¬(q.1 = p.1 ∧ x = y) → q.1 * 2 ^ n + x ≠ p.1 * 2 ^ n + y :=
    fun hx hy h heq => h (group_place_unique hx hy heq)
  simp only [List.forall_mem_cons, List.not_mem_nil, false_imp_iff, implies_true, and_true, lowerIndex, upperIndex,
    Nat.add_assoc]
  exact ⟨⟨apart (by omega) (by omega) hne', apart (by omega) (by omega) (by omega)⟩,
    apart (by omega) (by omega) (by omega), apart (by omega) (by omega) (by omega)⟩

/-- A butterfly leaves the entries of every other one of its stage alone. -/
theorem pairAt_stageButterfly_of_ne {p q : Nat × Nat} (hp : p.2 < 2 ^ (n - 1)) (hq : q.2 < 2 ^ (n - 1)) (hne : p ≠ q)
    (es : List Entry) : pairAt n p (stageButterfly log2KMax n d es q) = pairAt n p es := by
  have untouched : ∀ k ∈ [lowerIndex n p, upperIndex n p],
      entryAt (stageButterfly log2KMax n d es q) k = entryAt es k := fun k hk => by
    obtain ⟨hlower, hupper⟩ := indices_ne hn hp hq hne k hk
    rw [stageButterfly, butterflyAt, entryAt_set_of_ne _ hupper, entryAt_set_of_ne _ hlower]
  exact Prod.ext (untouched _ (by simp)) (untouched _ (by simp))

/-- Butterflies of the stage that are all other ones leave them alone too. -/
theorem pairAt_foldl_of_not_mem {p : Nat × Nat} (hp : p.2 < 2 ^ (n - 1)) {ps : List (Nat × Nat)}
    (hps : ∀ q ∈ ps, q.2 < 2 ^ (n - 1)) (hmem : p ∉ ps) (es : List Entry) :
    pairAt n p (ps.foldl (stageButterfly log2KMax n d) es) = pairAt n p es := by
  induction ps generalizing es with
  | nil => rfl
  | cons q ps ih =>
    rw [List.forall_mem_cons] at hps
    rw [List.mem_cons, not_or] at hmem
    rw [List.foldl_cons, ih hps.2 hmem.2, pairAt_stageButterfly_of_ne hn hp hps.1 hmem.1]

/-- Distinct butterflies of a stage, done one after another, each work on the values before the first one. -/
theorem pairAt_foldl_stageButterfly {ps : List (Nat × Nat)} (hnodup : ps.Nodup) (hps : ∀ q ∈ ps, q.2 < 2 ^ (n - 1))
    {es : List Entry} (hlen : ∀ q ∈ ps, upperIndex n q < es.length) {p : Nat × Nat} (hp : p ∈ ps) :
    pairAt n p (ps.foldl (stageButterfly log2KMax n d) es) =
      butterfly (twiddle log2KMax n p.2 d) (pairAt n p es).1 (pairAt n p es).2 := by
  induction ps generalizing es with
  | nil => simp at hp
  | cons q ps ih =>
    have hp' := hps p hp
    rw [List.nodup_cons] at hnodup
    rw [List.forall_mem_cons] at hps hlen
    rw [List.foldl_cons]
    rcases List.mem_cons.1 hp with rfl | hmem
    · rw [pairAt_foldl_of_not_mem hn hp' hps.2 hnodup.1, pairAt_stageButterfly hlen.1]
    · have hne : p ≠ q := fun h => hnodup.1 (h ▸ hmem)
      rw [ih hnodup.2 hps.2 (by simpa [stageButterfly] using hlen.2) hmem,
        pairAt_stageButterfly_of_ne hn hp' hps.1 hne]

/-- What a stage leaves in the entries of each of its butterflies. -/
theorem pairAt_stageEntries {l : Nat} (hnl : n ≤ l) {es : List Entry} (hl : es.length = 2 ^ l) {p : Nat × Nat}
    (hp : p ∈ stagePairs l n) :
    pairAt n p (stageEntries log2KMax l n d es) =
      butterfly (twiddle log2KMax n p.2 d) (pairAt n p es).1 (pairAt n p es).2 := by
  rw [stageEntries_eq]
  exact pairAt_foldl_stageButterfly hn (stagePairs_nodup l n) (fun q hq => (mem_stagePairs.1 hq).2)
    (fun q hq => hl ▸ upperIndex_lt hn hnl hq) hp

end

/-- Settles O18: each butterfly of the stage works on the values before the command. -/
theorem stageAppliesButterflies : Obligations.StageAppliesButterflies := by
  intro s b d n hl hn hnl
  obtain ⟨t, ht, hregs, hentry, hframe⟩ := exec_stores_entries (i := .stage b d n) (b := b)
    (es := stageEntries s.build.log2KMax s.l n d (s.entries b s.k))
    (State.stageChecks_pass hl hn hnl) rfl (by simp)
  refine ⟨t, ht, hregs, fun g j hg hj => ?_, hframe⟩
  have hp : (g, j) ∈ stagePairs s.l n := mem_stagePairs.2 ⟨hg, hj⟩
  have hupper : upperIndex n (g, j) < s.k := upperIndex_lt hn hnl hp
  have hlower : lowerIndex n (g, j) < s.k := (Nat.le_add_right _ _).trans_lt hupper
  have hpair := pairAt_stageEntries (log2KMax := s.build.log2KMax) (d := d) hn hnl (s.entries_length b s.k) hp
  rw [pairAt, pairAt, ← hentry _ hlower, ← hentry _ hupper, entryAt_entries s b hlower, entryAt_entries s b hupper,
    butterfly_loaded] at hpair
  exact Prod.ext_iff.1 hpair

/-! ### FFT -/

/-- The transform of one entry is the entry (41_transform.md R153). -/
theorem entryAt_fftEntries_zero (log2KMax : Nat) (d : Dir) {es : List Entry} (hl : es.length = 1) :
    entryAt (fftEntries log2KMax 0 d es) 0 = entryAt es 0 :=
  entryAt_bitrevEntries (l := 0) hl one_pos

/-- Settles O19: the entries stored are the transform's. -/
theorem fftCompletesInPlace : Obligations.FftCompletesInPlace := by
  intro s b d hl
  obtain ⟨t, ht, hregs, hentry, hframe⟩ := exec_stores_entries (i := .fft b d) (b := b)
    (es := fftEntries s.build.log2KMax s.l d (s.entries b s.k))
    (State.checks_pass_of_fits hl) rfl (by simp)
  refine ⟨t, ht, hregs, fun hl0 => ?_, hframe⟩
  have hk : s.k = 1 := by rw [State.k, hl0, pow_zero]
  rw [hentry 0 (by omega), hl0, entryAt_fftEntries_zero _ d (by rw [s.entries_length, hk]),
    entryAt_entries s b (by omega)]

/-! ### Entries that a command reads back as they are -/

/-- Entries without a half-poison word: what a command stores and reads back is unchanged
(70_reset_and_hazards.md R268). -/
def WholeEntries (es : List Entry) : Prop := ∀ e ∈ es, e.loaded = e

theorem WholeEntries.loadEntries {es : List Entry} (h : WholeEntries es) : loadEntries es = es :=
  (List.map_congr_left h).trans (List.map_id es)

theorem wholeEntries_entries (s : State) (b : Buf) (k : Nat) : WholeEntries (s.entries b k) := by
  intro e he
  obtain ⟨i, -, rfl⟩ := List.mem_map.1 he
  exact Entry.loaded_loaded _

theorem WholeEntries.entryAt {es : List Entry} (h : WholeEntries es) (i : Nat) :
    (entryAt es i).loaded = entryAt es i := by
  rcases Nat.lt_or_ge i es.length with hi | hi
  · rw [entryAt_eq es i hi]
    exact h _ (List.getElem_mem hi)
  · rw [Machine.entryAt, List.getD_eq_default _ _ hi]
    rfl

theorem WholeEntries.set {es : List Entry} (h : WholeEntries es) (i : Nat) {e : Entry} (he : e.loaded = e) :
    WholeEntries (es.set i e) := fun e' he' =>
  (List.mem_or_eq_of_mem_set he').elim (h e') fun heq => heq ▸ he

theorem WholeEntries.foldl {α : Type} {f : List Entry → α → List Entry}
    (hf : ∀ es a, WholeEntries es → WholeEntries (f es a)) (as : List α) {es : List Entry} (h : WholeEntries es) :
    WholeEntries (as.foldl f es) := by
  induction as generalizing es with
  | nil => exact h
  | cons a as ih => exact ih (hf es a h)

theorem WholeEntries.bitrevEntries {es : List Entry} (h : WholeEntries es) (l : Nat) :
    WholeEntries (bitrevEntries l es) :=
  WholeEntries.foldl (fun _ i hes => hes.set _ (h.entryAt i)) _ h

theorem WholeEntries.stageEntries {es : List Entry} (h : WholeEntries es) (log2KMax l n : Nat) (d : Dir) :
    WholeEntries (stageEntries log2KMax l n d es) := by
  rw [stageEntries_eq]
  exact WholeEntries.foldl (fun _ _ hes => (hes.set _ (cadd_loaded ..).2).set _ (csub_loaded ..).2) _ h

/-! ### Storing the active region twice -/

/-- No byte written at a passes a filter that keeps only addresses outside the written ones. -/
theorem filter_cellsFrom_of_outside {p : Host.Cell → Bool} (a : Nat) {bs : List (Option Byte)}
    (h : ∀ c, p c = true → c.1 < a ∨ a + bs.length ≤ c.1) : (cellsFrom a bs).filter p = [] := by
  refine List.filter_eq_nil_iff.2 fun c hc hp => ?_
  have hin := mem_cellsFrom bs a c hc
  have hout := h c hp
  omega

/-- Writing the same range of bytes again leaves the last ones written. -/
theorem Memory.putBytes_putBytes (m : Memory) (a : Nat) {bs bs' : List (Option Byte)} (h : bs.length = bs'.length) :
    (m.putBytes a bs).putBytes a bs' = m.putBytes a bs' := by
  have disjoint : ∀ c : Host.Cell, (decide (c.1 < a) && decide (a + bs.length ≤ c.1)) = false := fun c => by
    rw [← Bool.decide_and, decide_eq_false_iff_not]
    omega
  have below : (m.putBytes a bs).filter (fun c => decide (c.1 < a)) = m.filter fun c => decide (c.1 < a) := by
    rw [Memory.putBytes, List.filter_append, List.filter_append,
      filter_cellsFrom_of_outside a fun _ hc => .inl (of_decide_eq_true hc)]
    simp [-Bool.decide_and, List.filter_filter, disjoint]
  have above : (m.putBytes a bs).filter (fun c => decide (a + bs.length ≤ c.1)) =
      m.filter fun c => decide (a + bs.length ≤ c.1) := by
    rw [Memory.putBytes, List.filter_append, List.filter_append,
      filter_cellsFrom_of_outside a fun _ hc => .inr (of_decide_eq_true hc)]
    simp [-Bool.decide_and, List.filter_filter, disjoint, Bool.and_comm]
  rw [Memory.putBytes, below, ← h, above, h, Memory.putBytes]

theorem State.putEntries_putEntries (s : State) (b : Buf) {es es' : List Entry} (h : es.length = es'.length) :
    (s.putEntries b es).putEntries b es' = s.putEntries b es' := by
  have hmem := Memory.putBytes_putBytes s.mem ((ramOf b).addr 0)
    (bs := (es.flatMap Entry.words).flatMap RamWord.bytes) (bs' := (es'.flatMap Entry.words).flatMap RamWord.bytes)
    (by simp only [flatMap_bytes_length, flatMap_words_length, h])
  exact congrArg (fun m => { s with mem := m }) hmem

/-- Rewriting an active region that has just been stored is storing the rewritten entries. -/
theorem State.mapActive_putEntries (s : State) (b : Buf) {es : List Entry} (hl : es.length = s.k) (h : WholeEntries es)
    {f : List Entry → List Entry} (hf : (f es).length = es.length) :
    (s.putEntries b es).mapActive b f = s.putEntries b (f es) := by
  rw [State.mapActive, show (s.putEntries b es).k = s.k from rfl, s.entries_putEntries b hl, h.loadEntries,
    s.putEntries_putEntries b hf.symm]

/-! ### Commands issued one after another (30_encoding.md R105) -/

/-- A state with the flags DONE and ERR, the error record and the engine of another one: the part of the state that a
command's issue and completion write. -/
def State.withStatusOf (s u : State) : State :=
  { s with done := u.done, err := u.err, errCode := u.errCode, errSource := u.errSource, errInfo := u.errInfo
           eng := u.eng }

/-- A state in which a command that was issued has completed successfully. -/
def State.succeeded (s : State) : State :=
  { s with done := true, err := false, errCode := .none, errSource := .none, errInfo := 0, eng := .idle }

/-- A body that neither reads nor writes what issue and completion write. -/
def IgnoresStatus (f : State → State) : Prop := ∀ s u : State, f (s.withStatusOf u) = (f s).withStatusOf u

theorem IgnoresStatus.comp {f g : State → State} (hf : IgnoresStatus f) (hg : IgnoresStatus g) :
    IgnoresStatus fun s => g (f s) := fun s u => by
  simp only [hf s u, hg (f s) u]

theorem ignoresStatus_fftBody (b : Buf) (d : Dir) : IgnoresStatus fun s => s.fftBody b d := fun _ _ => rfl

theorem ignoresStatus_convSteps : IgnoresStatus convSteps :=
  have padx : IgnoresStatus State.padxBody := fun _ _ => rfl
  have padh : IgnoresStatus State.padhBody := fun _ _ => rfl
  have cmul : IgnoresStatus State.cmulBody := fun _ _ => rfl
  have scale : IgnoresStatus fun s => s.scaleBody .A := fun _ _ => rfl
  have extract : IgnoresStatus State.extractBody := fun _ _ => rfl
  (((((((padx.comp padh).comp (ignoresStatus_fftBody .A .fwd)).comp (ignoresStatus_fftBody .B .fwd)).comp cmul).comp
    (ignoresStatus_fftBody .A .inv)).comp scale).comp extract :)

/-- No command sees what issue and completion write. -/
theorem commandBody_withStatusOf (i : Instr) (s u : State) :
    commandBody i (s.withStatusOf u) = (commandBody i s).withStatusOf u := by
  cases i with
  | conv => exact ignoresStatus_convSteps s.sizeBody u
  | _ => rfl

theorem commandChecks_withStatusOf (i : Instr) (s u : State) :
    commandChecks i (s.withStatusOf u) = commandChecks i s := by
  cases i <;> rfl

/-- A command whose checks pass, issued and completed, does its writes and succeeds. -/
theorem runCommand_of_passes {i : Instr} {s : State} (hi : i.wellFormed = true)
    (hp : ∀ c ∈ commandChecks i s, c = none) : runCommand i s = some (commandBody i s).succeeded := by
  have hissue : s.issue (encode i) = s.withStatusOf (s.issue (encode i)) := rfl
  have hturn : engineTurn (s.issue (encode i)) = .next (commandBody i s).succeeded := by
    rw [engineTurn_of_ok rfl (decodeOfEncode i hi), hissue, exec_of_passes (by rwa [commandChecks_withStatusOf]),
      commandBody_withStatusOf]
    rfl
  rw [runCommand, hturn]
  rfl

/-- Commands issued one after another do their writes in turn, if in the states P that they lead through their checks
pass. -/
theorem runCommands_of_pass (P : State → Prop) {is : List Instr}
    (h : ∀ i ∈ is, i.wellFormed = true ∧ ∀ s, P s → (∀ c ∈ commandChecks i s, c = none) ∧ P (commandBody i s))
    {s : State} (hs : P s) :
    runCommands is s.succeeded = some (is.foldl (fun s i => commandBody i s) s).succeeded := by
  induction is generalizing s with
  | nil => rfl
  | cons i is ih =>
    rw [List.forall_mem_cons] at h
    obtain ⟨⟨hi, hstep⟩, hrest⟩ := h
    obtain ⟨hp, hP⟩ := hstep s hs
    have hsucceeded : s.succeeded = s.withStatusOf s.succeeded := rfl
    rw [runCommands, hsucceeded, runCommand_of_passes hi (by rwa [commandChecks_withStatusOf]),
      commandBody_withStatusOf]
    exact ih hrest hP

/-- The stages, each on the entries that the one before it stored, store what one pass through them makes. -/
theorem foldl_stage_putEntries (s : State) (b : Buf) (d : Dir) (ns : List Nat) {es : List Entry} (hl : es.length = s.k)
    (h : WholeEntries es) :
    (ns.map fun n => Instr.stage b d (n + 1)).foldl (fun s i => commandBody i s) (s.putEntries b es) =
      s.putEntries b (ns.foldl (fun es n => stageEntries s.build.log2KMax s.l (n + 1) d es) es) := by
  induction ns generalizing es with
  | nil => rfl
  | cons n ns ih =>
    have hstage : commandBody (.stage b d (n + 1)) (s.putEntries b es) =
        s.putEntries b (stageEntries s.build.log2KMax s.l (n + 1) d es) :=
      s.mapActive_putEntries b hl h (stageEntries_length ..)
    rw [List.map_cons, List.foldl_cons, List.foldl_cons, hstage]
    exact ih (by rwa [stageEntries_length]) (h.stageEntries _ _ _ d)

/-- The stages 1 … L, issued one after another, all pass their checks. -/
theorem runCommands_stages {s : State} (b : Buf) (d : Dir) (hl : s.l ≤ s.build.log2KMax) :
    runCommands ((List.range s.l).map fun n => .stage b d (n + 1)) s.succeeded =
      some (((List.range s.l).map fun n => Instr.stage b d (n + 1)).foldl (fun s i => commandBody i s)
        s).succeeded := by
  refine runCommands_of_pass (fun t => t.l = s.l ∧ t.build = s.build) ?_ ⟨rfl, rfl⟩
  simp only [List.forall_mem_map, List.mem_range]
  intro n hn
  have hL := s.build.log2KMax_le
  refine ⟨decide_eq_true (by omega), fun t ⟨htl, htb⟩ => ⟨?_, htl, htb⟩⟩
  exact State.stageChecks_pass (by rwa [htl, htb]) (by omega) (by omega)

/-- Settles O20: what the stages after a BITREV read back is what was stored, so they rewrite it as FFT does. -/
theorem fftIsBitrevThenStages : Obligations.FftIsBitrevThenStages := by
  intro s b d hl
  have hpass := State.checks_pass_of_fits hl
  have hbody := foldl_stage_putEntries s b d (List.range s.l) (es := bitrevEntries s.l (s.entries b s.k)) (by simp)
    ((wholeEntries_entries s b s.k).bitrevEntries s.l)
  have hbitrev : runCommand (.bitrev b) s = some (commandBody (.bitrev b) s).succeeded :=
    runCommand_of_passes rfl hpass
  refine ⟨(s.fftBody b d).succeeded, runCommand_of_passes rfl hpass, ?_⟩
  rw [runCommands, hbitrev, Option.bind_some]
  exact (runCommands_stages (s := commandBody (.bitrev b) s) b d hl).trans
    (congrArg (fun t => some (State.succeeded t)) hbody)

end Sys2Proof.Machine
end

section
/-! SUPPORT. The spectral multiplier: CMUL on the entries of the active regions (42_multiplier.md). -/

namespace Sys2Proof.Machine

theorem entryAt_zipWith (f : Entry → Entry → Entry) {es es' : List Entry} {i : Nat} (h : i < es.length)
    (h' : i < es'.length) : entryAt (List.zipWith f es es') i = f (entryAt es i) (entryAt es' i) := by
  rw [entryAt_eq _ _ (by simp [h, h']), entryAt_eq _ _ h, entryAt_eq _ _ h', List.getElem_zipWith]

/-- Settles O21: the entries stored are the products, which see their operands as a command reads them. -/
theorem cmulMultipliesEntries : Obligations.CmulMultipliesEntries := by
  intro s hl
  obtain ⟨t, ht, hregs, hentry, hframe⟩ := exec_stores_entries (i := .cmul) (b := .A)
    (es := List.zipWith cmul (s.entries .A s.k) (s.entries .B s.k)) (State.checks_pass_of_fits hl) rfl (by simp)
  refine ⟨t, ht, hregs, fun i hi => ?_, hframe⟩
  obtain ⟨hproduct, -⟩ := cmul_loaded (s.entry .A i) (s.entry .B i)
  rw [hentry i hi, entryAt_zipWith _ (by simpa using hi) (by simpa using hi), entryAt_entries s .A hi,
    entryAt_entries s .B hi, hproduct]

end Sys2Proof.Machine
end

section
/-! SUPPORT. The orchestrator's checks and registers: NOP, the sizes that SIZE and CONV compute, and the errors that the
commands report (43_orchestrator.md R180 to R182, R190, 60_exceptions.md R224). -/

namespace Sys2Proof.Machine

/-- Settles O9: NOP has no check and no body. -/
theorem nopCompletes : Obligations.NopCompletes := fun _ => rfl

/-! ### Each check by its condition -/

theorem require_decide (p : Prop) [Decidable p] (e : Err) : require (decide p) e = if p then none else some e := by
  by_cases h : p <;> simp [require, h]

theorem State.checkMNonzero_eq (s : State) :
    s.checkMNonzero = if 0 < s.m then none else some ⟨.invalidInput, .mLen, 0⟩ := require_decide ..

theorem State.checkNNonzero_eq (s : State) :
    s.checkNNonzero = if 0 < s.n then none else some ⟨.invalidInput, .nLen, 0⟩ := require_decide ..

theorem State.checkMCapacity_eq (s : State) :
    s.checkMCapacity = if s.m ≤ s.build.kMax then none else some ⟨.invalidSize, .mLen, s.mLen⟩ := require_decide ..

theorem State.checkNCapacity_eq (s : State) :
    s.checkNCapacity = if s.n ≤ s.build.kMax then none else some ⟨.invalidSize, .nLen, s.nLen⟩ := require_decide ..

theorem State.checkL_eq (s : State) (l : Nat) :
    s.checkL l = if l ≤ s.build.log2KMax then none else some ⟨.invalidSize, .log2k, BitVec.ofNat 32 l⟩ :=
  require_decide ..

/-- SIZE and CONV make the same checks (43_orchestrator.md R188). -/
theorem commandChecks_of_size_or_conv {i : Instr} (hi : i = .size ∨ i = .conv) (s : State) :
    commandChecks i s = s.sizeChecks := by
  rcases hi with rfl | rfl <;> rfl

/-! ### Errors -/

/-- Settles O33: a command that ends otherwise than by the error completion leaves ERR as it was. -/
theorem failedCommandLeavesNoPartialResult : Obligations.FailedCommandLeavesNoPartialResult := by
  intro i s t hs hx ht
  obtain ⟨e, -, rfl⟩ | ⟨-, rfl⟩ := exec_cases hx
  · rfl
  · obtain ⟨-, herr, -⟩ := commandBody_keeps_status i s
    simp [herr, hs] at ht

/-- Settles O29: in each clause the checks before the one that reports pass. -/
theorem sizeAndConvReportBadLengths : Obligations.SizeAndConvReportBadLengths := by
  intro s i hi
  have report : ∀ e, s.sizeChecks.findSome? id = some e → exec i s = .next (s.raise e) := fun e he =>
    exec_of_fails (by rwa [commandChecks_of_size_or_conv hi])
  refine ⟨fun hm => report ⟨.invalidInput, .mLen, 0⟩ ?_, fun hm hn => report ⟨.invalidInput, .nLen, 0⟩ ?_,
    fun hn hm => report ⟨.invalidSize, .mLen, s.mLen⟩ ?_, fun hm hm' hn => report ⟨.invalidSize, .nLen, s.nLen⟩ ?_⟩
  · simp [State.sizeChecks, s.checkMNonzero_eq, hm]
  · simp [State.sizeChecks, s.checkMNonzero_eq, s.checkNNonzero_eq, hm, hn]
  · simp [State.sizeChecks, s.checkMNonzero_eq, s.checkNNonzero_eq, s.checkMCapacity_eq, Nat.zero_lt_of_lt hm, hn,
      Nat.not_le.2 hm]
  · simp [State.sizeChecks, s.checkMNonzero_eq, s.checkNNonzero_eq, s.checkMCapacity_eq, s.checkNCapacity_eq, hm, hm',
      Nat.zero_lt_of_lt hn, Nat.not_le.2 hn]

/-- Settles O30: in each clause the checks before the one that reports pass. -/
theorem padCommandsReportErrors : Obligations.PadCommandsReportErrors := by
  intro s
  refine ⟨fun hm => exec_of_fails (e := ⟨.invalidInput, .mLen, 0⟩) ?_,
    fun hm => exec_of_fails (e := ⟨.invalidSize, .mLen, s.mLen⟩) ?_,
    fun hm hm' hl => exec_of_fails (e := ⟨.invalidSize, .log2k, s.log2k.setWidth 32⟩) ?_,
    fun hn => exec_of_fails (e := ⟨.invalidInput, .nLen, 0⟩) ?_,
    fun hn => exec_of_fails (e := ⟨.invalidSize, .nLen, s.nLen⟩) ?_,
    fun hn hn' hl => exec_of_fails (e := ⟨.invalidSize, .log2k, s.log2k.setWidth 32⟩) ?_⟩
  · simp [commandChecks, s.checkMNonzero_eq, hm]
  · simp [commandChecks, s.checkMNonzero_eq, s.checkMCapacity_eq, Nat.zero_lt_of_lt hm, Nat.not_le.2 hm]
  · simp [commandChecks, s.checkMNonzero_eq, s.checkMCapacity_eq, State.checkL_of_exceeds hl, hm, hm']
  · simp [commandChecks, s.checkNNonzero_eq, hn]
  · simp [commandChecks, s.checkNNonzero_eq, s.checkNCapacity_eq, Nat.zero_lt_of_lt hn, Nat.not_le.2 hn]
  · simp [commandChecks, s.checkNNonzero_eq, s.checkNCapacity_eq, State.checkL_of_exceeds hl, hn, hn']

/-! ### The sizes -/

/-- The number of entries that a transform must have in a sizing mode (40_datapath.md R134, R135). -/
def leastSize (mode : SizeMode) (m n : Nat) : Nat :=
  match mode with
  | .reference => 2 * m
  | .linear => validLength m n

/-- The computed L is the least one whose K holds the entries needed. -/
theorem sizeExponent_le_iff (mode : SizeMode) {m n : Nat} (hm : 0 < m) (hn : 0 < n) (j : Nat) :
    sizeExponent mode m n ≤ j ↔ leastSize mode m n ≤ 2 ^ j := by
  cases mode <;> simp only [sizeExponent, leastSize, validLength, bitlen_le_iff] <;> omega

section
variable {s : State} (hm0 : 0 < s.m) (hn0 : 0 < s.n)
include hm0 hn0

theorem State.sizedL_le_iff (j : Nat) : s.sizedL ≤ j ↔ leastSize s.sizeMode s.m s.n ≤ 2 ^ j :=
  sizeExponent_le_iff s.sizeMode hm0 hn0 j

/-- In REFERENCE mode the computed K lies in 2M … 4M - 1 (40_datapath.md R134). -/
theorem State.sizedL_of_reference (h : s.sizeMode = .reference) :
    2 * s.m ≤ 2 ^ s.sizedL ∧ 2 ^ s.sizedL < 4 * s.m := by
  have least := s.sizedL_le_iff hm0 hn0
  rw [h, leastSize] at least
  refine ⟨(least _).1 le_rfl, ?_⟩
  cases hl : s.sizedL with
  | zero => omega
  | succ l =>
    have hlt : 2 ^ l < 2 * s.m := Nat.not_le.1 fun hle => by
      have := (least l).2 hle
      omega
    omega

/-- In LINEAR mode the computed K is the least power of two not below P (40_datapath.md R135). -/
theorem State.sizedL_of_linear (h : s.sizeMode = .linear) :
    s.m + s.n - 1 ≤ 2 ^ s.sizedL ∧ ∀ j, s.m + s.n - 1 ≤ 2 ^ j → s.sizedL ≤ j := by
  have least := s.sizedL_le_iff hm0 hn0
  rw [h, leastSize, validLength] at least
  exact ⟨(least _).1 le_rfl, fun j => (least j).2⟩

variable (hm : s.m ≤ s.build.kMax) (hn : s.n ≤ s.build.kMax)
include hm hn

/-- With lengths in range and a K that fits, all of SIZE's checks pass. -/
theorem State.sizeChecks_pass_of_fits (href : s.sizeMode = .reference → 2 * s.m ≤ s.build.kMax)
    (hlin : s.sizeMode = .linear → s.m + s.n - 1 ≤ s.build.kMax) : ∀ c ∈ s.sizeChecks, c = none := by
  refine s.sizeChecks_pass_iff.2 ⟨hm0, hn0, hm, hn, (s.sizedL_le_iff hm0 hn0 _).2 ?_⟩
  cases hmode : s.sizeMode with
  | reference => exact href hmode
  | linear => exact hlin hmode

/-- With lengths in range and a K above K_MAX, the first check to fail is that of the computed L. -/
theorem State.sizeChecks_of_oversized (href : s.sizeMode = .reference → s.build.kMax < 2 * s.m)
    (hlin : s.sizeMode = .linear → s.build.kMax < s.m + s.n - 1) :
    s.sizeChecks.findSome? id = some ⟨.invalidSize, .log2k, BitVec.ofNat 32 s.sizedL⟩ := by
  have hexceeds : ¬ s.sizedL ≤ s.build.log2KMax := by
    rw [s.sizedL_le_iff hm0 hn0, Nat.not_le]
    cases hmode : s.sizeMode with
    | reference => exact href hmode
    | linear => exact hlin hmode
  simp [State.sizeChecks, s.checkMNonzero_eq, s.checkNNonzero_eq, s.checkMCapacity_eq, s.checkNCapacity_eq,
    s.checkL_eq, hm0, hn0, hm, hn, hexceeds]

/-- The L computed from lengths in range fits ERR_INFO. -/
theorem State.sizedL_toNat : (BitVec.ofNat 32 s.sizedL).toNat = s.sizedL := by
  have hK := s.build.kMax_le
  have hl : s.sizedL ≤ 21 := by
    rw [s.sizedL_le_iff hm0 hn0]
    cases s.sizeMode <;> simp only [leastSize, validLength] <;> omega
  rw [BitVec.toNat_ofNat, Nat.mod_eq_of_lt (by omega)]

end

/-- Settles O11: the error's info is the computed L, of which the sizing laws speak. -/
theorem sizeReportsAnOversizedTransform : Obligations.SizeReportsAnOversizedTransform := by
  intro s i hi hm0 hn0 hm hn href hlin
  have hfail := State.sizeChecks_of_oversized hm0 hn0 hm hn href hlin
  rw [← commandChecks_of_size_or_conv hi] at hfail
  have hinfo := State.sizedL_toNat hm0 hn0 hm hn
  refine ⟨_, exec_of_fails hfail, rfl, ?_, ?_⟩ <;> rw [State.raise_errInfo, hinfo]
  · exact State.sizedL_of_reference hm0 hn0
  · exact State.sizedL_of_linear hm0 hn0

/-- After a SIZE that passed its checks LOG2K holds the computed L. -/
theorem State.sizeBody_l {s : State} (hp : ∀ c ∈ s.sizeChecks, c = none) : s.sizeBody.l = s.sizedL :=
  Nat.pow_right_injective le_rfl (sizes_fit_registers (.inl rfl) hp).1

/-- Settles O10: the registers hold the computed sizes, of which the sizing laws speak. -/
theorem sizeComputesTheSizes : Obligations.SizeComputesTheSizes := by
  refine ⟨fun s => ⟨rfl, rfl, rfl, rfl, rfl⟩, fun s hm0 hn0 hm hn href hlin => ?_⟩
  have hp := State.sizeChecks_pass_of_fits hm0 hn0 hm hn href hlin
  have hl : s.sizeBody.complete.l = s.sizedL := State.sizeBody_l hp
  have hP : s.sizeBody.complete.p = s.m + s.n - 1 := (sizes_fit_registers (.inl rfl) hp).2
  have hk : s.sizeBody.complete.k = 2 ^ s.sizedL := congrArg (2 ^ ·) hl
  refine ⟨_, exec_of_passes (i := .size) hp, rfl, ?_⟩
  rw [commandBody, hk, hl, hP]
  exact ⟨rfl, State.sizedL_of_reference hm0 hn0, State.sizedL_of_linear hm0 hn0, decide_eq_true_iff⟩

end Sys2Proof.Machine
end

section
/-! SUPPORT. The orchestrator's commands on the buffers and Y: CLEAR, PADX, PADH, SCALE and EXTRACT
(43_orchestrator.md R183 to R187). -/

namespace Sys2Proof.Machine

/-! ### CLEAR and SCALE -/

/-- Settles O14: the entries stored are zeros. -/
theorem clearZeroesTheActiveRegion : Obligations.ClearZeroesTheActiveRegion := by
  intro s b hl
  obtain ⟨t, ht, hregs, hentry, hframe⟩ := exec_stores_entries (i := .clear b) (b := b)
    (es := List.replicate s.k Entry.zero) (State.checks_pass_of_fits hl) rfl (by simp)
  refine ⟨t, ht, hregs, fun i hi => ?_, hframe⟩
  rw [hentry i hi, entryAt_eq _ _ (by simpa using hi), List.getElem_replicate]
  rfl

/-- Settles O22: the entries stored are the scaled ones, and scaling sees an entry as a command reads it. -/
theorem scaleDividesByK : Obligations.ScaleDividesByK := by
  intro s b hl
  obtain ⟨t, ht, hregs, hentry, hframe⟩ := exec_stores_entries (i := .scale b) (b := b)
    (es := (s.entries b s.k).map (scaleEntry s.k)) (State.checks_pass_of_fits hl) rfl (by simp)
  refine ⟨t, ht, hregs, fun i hi => ?_, hframe⟩
  obtain ⟨hscaled, -⟩ := scaleEntry_loaded s.k (s.entry b i)
  rw [hentry i hi, entryAt_eq _ _ (by simpa using hi), List.getElem_map, State.entries_getElem, hscaled]
  rfl

/-! ### PADX and PADH -/

/-- What zero-padding puts into real slot r: the sample r, if there is one, to which the samples r + k, r + 2k, … are
added in that order (43_orchestrator.md R184, R185). -/
def foldedSample (k : Nat) (sample : Nat → RamWord) (r len : Nat) : RamWord :=
  if r < len then
    (List.range ((len - 1 - r) / k)).foldl (fun acc j => acc.add (sample (r + (j + 1) * k))) (sample r)
  else RamWord.ofF64 0

section
variable {k : Nat} (sample : Nat → RamWord)

/-- The next sample changes its own slot only. -/
theorem foldedSample_succ_of_ne {r len : Nat} (hr : r < k) (h : len % k ≠ r) :
    foldedSample k sample r (len + 1) = foldedSample k sample r len := by
  have hne : r ≠ len := fun e => h (e ▸ Nat.mod_eq_of_lt hr)
  by_cases hlt : r < len
  · have hdvd : ¬ k ∣ len - 1 - r + 1 := by
      rw [show len - 1 - r + 1 = len - r by omega, ← Nat.modEq_iff_dvd' hlt.le, Nat.ModEq, Nat.mod_eq_of_lt hr]
      exact Ne.symm h
    rw [foldedSample, foldedSample, if_pos (by omega), if_pos hlt, ← Nat.succ_div_of_not_dvd hdvd,
      show len - 1 - r + 1 = len + 1 - 1 - r by omega]
  · rw [foldedSample, foldedSample, if_neg (by omega), if_neg hlt]

/-- The first sample of a slot is copied into it. -/
theorem foldedSample_succ_self (r : Nat) : foldedSample k sample r (r + 1) = sample r := by
  simp [foldedSample]

/-- Every later sample of a slot is added to what the slot holds. -/
theorem foldedSample_succ_add {r q : Nat} (hr : r < k) :
    foldedSample k sample r (r + (q + 1) * k + 1) =
      (foldedSample k sample r (r + (q + 1) * k)).add (sample (r + (q + 1) * k)) := by
  have hexp : (q + 1) * k = q * k + k := Nat.succ_mul q k
  have hbefore : (r + (q + 1) * k - 1 - r) / k = q := by
    rw [show r + (q + 1) * k - 1 - r = k - 1 + k * q by rw [hexp, Nat.mul_comm k]; omega,
      Nat.add_mul_div_left _ _ (by omega), Nat.div_eq_of_lt (by omega), Nat.zero_add]
  have hafter : (r + (q + 1) * k + 1 - 1 - r) / k = q + 1 := by
    rw [show r + (q + 1) * k + 1 - 1 - r = (q + 1) * k by omega, Nat.mul_div_cancel _ (by omega)]
  rw [foldedSample, foldedSample, if_pos (by omega), if_pos (by omega), hbefore, hafter, List.range_succ,
    List.foldl_append, List.foldl_cons, List.foldl_nil]

/-- The entry of slot r after the samples below len have been placed. -/
theorem entryAt_padEntries {r : Nat} (hr : r < k) (len : Nat) :
    entryAt (padEntries k len sample) r = ⟨foldedSample k sample r len, RamWord.ofF64 0⟩ := by
  induction len with
  | zero => rw [padEntries, List.range_zero, List.foldl_nil, entryAt_eq _ _ (by simpa using hr),
      List.getElem_replicate]; rfl
  | succ len ih =>
    have hstep : padEntries k (len + 1) sample = padSample k sample (padEntries k len sample) len := by
      rw [padEntries, List.range_succ, List.foldl_append, List.foldl_cons, List.foldl_nil, padEntries]
    rw [hstep, padSample]
    by_cases hslot : len % k = r
    · rw [hslot, entryAt_set_self (by simpa using hr), ih]
      have hdiv := Nat.mod_add_div' len k
      cases hq : len / k with
      | zero =>
        obtain rfl : len = r := by rw [← hdiv, hq, hslot, Nat.zero_mul, Nat.add_zero]
        rw [if_pos hr, foldedSample_succ_self]
      | succ q =>
        obtain rfl : len = r + (q + 1) * k := by rw [← hdiv, hq, hslot]
        rw [if_neg (by rw [Nat.succ_mul]; omega), foldedSample_succ_add sample hr]
    · rw [entryAt_set_of_ne _ hslot, ih, foldedSample_succ_of_ne sample hr hslot]

end

/-- Settles O15: both commands store padded entries. -/
theorem paddingPlacesAndFolds : Obligations.PaddingPlacesAndFolds := by
  refine ⟨fun s h0 hcap hl => ?_, fun s h0 hcap hl => ?_⟩
  · have hp : ∀ c ∈ commandChecks .padx s, c = none := by
      simp [commandChecks, s.checkMNonzero_eq, s.checkMCapacity_eq, State.checkL_of_fits hl, h0, hcap]
    obtain ⟨t, ht, hregs, hentry, hframe⟩ := exec_stores_entries (b := .A) hp rfl (padEntries_length ..)
    exact ⟨t, ht, hregs, fun r hr => (hentry r hr).trans (entryAt_padEntries _ hr s.m), hframe⟩
  · have hp : ∀ c ∈ commandChecks .padh s, c = none := by
      simp [commandChecks, s.checkNNonzero_eq, s.checkNCapacity_eq, State.checkL_of_fits hl, h0, hcap]
    obtain ⟨t, ht, hregs, hentry, hframe⟩ := exec_stores_entries (b := .B) hp rfl (padEntries_length ..)
    exact ⟨t, ht, hregs, fun r hr => (hentry r hr).trans (entryAt_padEntries _ hr s.n), hframe⟩

/-! ### EXTRACT -/

/-- Settles O23: word n of those stored in Y is the real word of entry n mod K, as a command reads it. -/
theorem extractCopiesRealParts : Obligations.ExtractCopiesRealParts := by
  intro s hl hcap
  have hP : s.checkPCapacity = none := (require_eq_none ..).2 (decide_eq_true hcap)
  have hp : ∀ c ∈ commandChecks .extract s, c = none := by
    simp [commandChecks, State.checkL_of_fits hl, hP]
  refine ⟨_, exec_of_passes hp, rfl, fun n hn => ?_, fun a ha => ?_⟩
  · rw [State.ramWord_complete, commandBody, State.extractBody, State.ramWord_putWords _ _ _ _ (by simpa using hn),
      List.getElem_map, List.getElem_range]
    rfl
  · exact s.read_putWords_of_outside .y _ a (by simpa using ha)

end Sys2Proof.Machine
end

section
/-! SUPPORT. CONV as SIZE and the eight commands after it (43_orchestrator.md R188, R189). -/

namespace Sys2Proof.Machine

/-- The commands whose writes CONV makes after SIZE's, in their order (43_orchestrator.md R188). -/
def convCommands : List Instr :=
  [.padx, .padh, .fft .A .fwd, .fft .B .fwd, .cmul, .fft .A .inv, .scale .A, .extract]

theorem convSteps_eq_foldl (s : State) : convSteps s = convCommands.foldl (fun s i => commandBody i s) s := rfl

/-! ### What the commands after SIZE leave unchanged -/

/-- A byte lies outside the active regions of BUF_A and BUF_B and outside Y[0 … P-1]. -/
def State.OutsideConv (s : State) (a : Nat) : Prop :=
  (a < Ram.bufA.addr 0 ∨ Ram.bufA.addr 0 + 16 * s.k ≤ a) ∧ (a < Ram.bufB.addr 0 ∨ Ram.bufB.addr 0 + 16 * s.k ≤ a) ∧
    (a < Ram.y.addr 0 ∨ Ram.y.addr 0 + 8 * s.p ≤ a)

/-- u differs from s in memory only, and there only in the words that CONV writes. -/
def State.ConvFrame (s u : State) : Prop :=
  ∃ mem, u = { s with mem := mem } ∧ ∀ a, s.OutsideConv a → mem.read a = s.mem.read a

theorem State.ConvFrame.refl (s : State) : s.ConvFrame s := ⟨s.mem, rfl, fun _ _ => rfl⟩

/-- The region left alone is given by K and P, which the frame keeps. -/
theorem State.ConvFrame.trans {s u v : State} (h : s.ConvFrame u) (h' : u.ConvFrame v) : s.ConvFrame v := by
  obtain ⟨mem, rfl, hread⟩ := h
  obtain ⟨mem', rfl, hread'⟩ := h'
  exact ⟨mem', rfl, fun a ha => (hread' a ha).trans (hread a ha)⟩

/-- Storing K entries in a buffer stays within its active region. -/
theorem State.ConvFrame.putEntries (s : State) (b : Buf) {es : List Entry} (hl : es.length = s.k) :
    s.ConvFrame (s.putEntries b es) := by
  refine ⟨_, rfl, fun a ⟨hA, hB, _⟩ => s.read_putEntries_of_outside b es a ?_⟩
  rw [hl]
  cases b with
  | A => exact hA
  | B => exact hB

theorem State.ConvFrame.extractBody (s : State) : s.ConvFrame s.extractBody :=
  ⟨_, rfl, fun a ⟨_, _, hY⟩ => s.read_putWords_of_outside .y _ a (by simpa using hY)⟩

/-- Each of the commands after SIZE writes within the words that CONV writes. -/
theorem convFrame_commandBody {i : Instr} (hi : i ∈ convCommands) (s : State) : s.ConvFrame (commandBody i s) := by
  have store := @State.ConvFrame.putEntries s
  simp only [convCommands, List.mem_cons, List.not_mem_nil, or_false] at hi
  rcases hi with rfl | rfl | rfl | rfl | rfl | rfl | rfl | rfl
  · exact store .A (padEntries_length ..)
  · exact store .B (padEntries_length ..)
  · exact store .A (by simp)
  · exact store .B (by simp)
  · exact store .A (by simp)
  · exact store .A (by simp)
  · exact store .A (by simp)
  · exact .extractBody s

theorem convFrame_convSteps (s : State) : s.ConvFrame (convSteps s) := by
  rw [convSteps_eq_foldl]
  exact List.foldlRecOn _ _ (.refl s) fun _ h _ hi => h.trans (convFrame_commandBody hi _)

/-- Settles O24: after SIZE's writes, CONV's change memory only. -/
theorem convCompletes : Obligations.ConvCompletes := by
  intro s hm0 hn0 hm hn href hlin
  have hp := State.sizeChecks_pass_of_fits hm0 hn0 hm hn href hlin
  obtain ⟨mem, hmem, hread⟩ := convFrame_convSteps s.sizeBody
  rw [← State.convBody_eq_convSteps] at hmem
  refine ⟨_, _, exec_of_passes (i := .conv) hp, exec_of_passes (i := .size) hp, ?_⟩
  rw [commandBody, commandBody, hmem]
  exact ⟨rfl, fun a hA hB hY => hread a ⟨hA, hB, hY⟩⟩

/-! ### The nine commands, issued one after another -/

/-- After a SIZE that passed its checks, those of the commands that CONV stands for pass too. -/
theorem convCommands_pass {s : State} (hp : ∀ c ∈ s.sizeChecks, c = none) {i : Instr} (hi : i ∈ convCommands) :
    ∀ c ∈ commandChecks i s.sizeBody, c = none := by
  obtain ⟨hm0, hn0, hm, hn, hL⟩ := s.sizeChecks_pass_iff.1 hp
  have hP : s.sizeBody.p = s.m + s.n - 1 := (sizes_fit_registers (.inl rfl) hp).2
  have hcheckL : s.sizeBody.checkL s.sizeBody.l = none := State.checkL_of_fits (by rwa [State.sizeBody_l hp])
  have hcheckM : s.sizeBody.checkMNonzero = none := s.sizeBody.checkMNonzero_eq.trans (if_pos hm0)
  have hcheckN : s.sizeBody.checkNNonzero = none := s.sizeBody.checkNNonzero_eq.trans (if_pos hn0)
  have hcapM : s.sizeBody.checkMCapacity = none := s.sizeBody.checkMCapacity_eq.trans (if_pos hm)
  have hcapN : s.sizeBody.checkNCapacity = none := s.sizeBody.checkNCapacity_eq.trans (if_pos hn)
  have hcapP : s.sizeBody.checkPCapacity = none :=
    (require_eq_none ..).2 (decide_eq_true (by rw [hP, State.sizeBody_build, Build.yMax]; omega))
  simp only [convCommands, List.mem_cons, List.not_mem_nil, or_false] at hi
  rcases hi with rfl | rfl | rfl | rfl | rfl | rfl | rfl | rfl <;>
    simp [commandChecks, hcheckL, hcheckM, hcheckN, hcapM, hcapN, hcapP]

/-- A command's checks read no memory. -/
theorem State.ConvFrame.commandChecks_eq {s u : State} (h : s.ConvFrame u) (i : Instr) :
    commandChecks i u = commandChecks i s := by
  obtain ⟨mem, rfl, -⟩ := h
  cases i <;> rfl

theorem convCommands_wellFormed : ∀ i ∈ convCommands, i.wellFormed = true := by decide

/-- Settles O25: the commands after SIZE keep the sizes, so that their checks pass, and write what CONV does. -/
theorem convIsNineCommands : Obligations.ConvIsNineCommands := by
  intro s hm0 hn0 hm hn href hlin
  have hp := State.sizeChecks_pass_of_fits hm0 hn0 hm hn href hlin
  have hrest := runCommands_of_pass s.sizeBody.ConvFrame (is := convCommands)
    (fun i hi => ⟨convCommands_wellFormed i hi, fun u hu =>
      ⟨by rw [hu.commandChecks_eq]; exact convCommands_pass hp hi, hu.trans (convFrame_commandBody hi u)⟩⟩)
    (.refl s.sizeBody)
  refine ⟨(convSteps s.sizeBody).succeeded, runCommand_of_passes (i := .conv) rfl hp, ?_⟩
  rw [runCommands, runCommand_of_passes (i := .size) rfl hp]
  exact hrest

end Sys2Proof.Machine
end

section
/-! SUPPORT. The interrupt output, and the ways out of the error state (10_state.md R48, 60_exceptions.md R226, R231,
R232). -/

namespace Sys2Proof.Machine

/-! ### The interrupt output over the agents' steps -/

/-- An engine's turn does not touch IRQ_EN. -/
theorem engineTurn_irqEn {s t : State} (h : engineTurn s = .next t) : t.irqEn = s.irqEn := by
  obtain ⟨-, rfl⟩ | ⟨c, -, ⟨r, -, rfl⟩ | ⟨i, -, hx⟩⟩ := engineTurn_cases h
  · rfl
  · simp
  · obtain ⟨e, -, rfl⟩ | ⟨-, rfl⟩ := exec_cases hx <;> simp

theorem State.irq_of_not_done_of_not_err {s : State} (hdone : s.done = false) (herr : s.err = false) :
    s.irq = false := by
  simp [State.irq, hdone, herr]

/-- The completion of an issued command sets one of DONE and ERR, so irq is then IRQ_EN (60_exceptions.md R231). -/
theorem irq_of_engineTurn_completes {s t : State} {c : Word32} (hc : s.eng = .running c) (hdone : s.done = false)
    (herr : s.err = false) (h : engineTurn s = .next t) : t.irq = s.irqEn := by
  obtain ⟨t', h', -, -, hone⟩ := engineTurn_completes hc hdone herr
  obtain rfl : t = t' := Host.Outcome.next.inj (h.symm.trans h')
  simp [State.irq, hone, engineTurn_irqEn h]

/-- The host's write of STATUS is acknowledged and clears its W1C bits, idle and busy (10_state.md R32). -/
theorem hostWrite_status (s : State) (v : Word32) :
    stepEvent (hostWrite s.build Reg.status.offset v) s = .next { s.writeStatus v with bus := .written } := by
  rw [stepEvent_hostWrite_reg, State.busWrite_status]

/-- Settles O34: a STATUS write is `State.writeStatus` idle and busy, and a CMD write while idle is an issue. -/
theorem errorStateEnds : Obligations.ErrorStateEnds := by
  refine fun s _ => ⟨fun v hv => ⟨_, hostWrite_status s v, ?_, fun hdone => ?_⟩, fun c hi => ?_⟩
  · simp [State.writeStatus, State.arch, hv]
  · exact State.irq_of_not_done_of_not_err hdone (by simp [hv])
  · obtain ⟨t, ht, -, harch⟩ := hostWrite_reg_of_idle hi .cmd c
    exact ⟨t, ht, harch⟩

/-- Settles O48: irq reads IRQ_EN, DONE and ERR only, of which each of these steps says what becomes. -/
theorem completionRaisesIrq : Obligations.CompletionRaisesIrq := by
  refine ⟨fun _ => rfl, fun s t c hc hdone herr h => ⟨State.irq_of_not_done_of_not_err hdone herr, ?_⟩,
    fun s => ⟨_, hostWrite_status s 6, ?_⟩, fun s c hi => ?_, fun s v hi => ?_⟩
  · exact irq_of_engineTurn_completes hc hdone herr h
  · exact State.irq_of_not_done_of_not_err (by simp) (by simp)
  · refine ⟨_, stepEvent_hostWrite_reg s .cmd c, ?_⟩
    rw [State.busWrite_of_idle hi]
    exact State.irq_of_not_done_of_not_err rfl rfl
  · refine ⟨_, stepEvent_hostWrite_reg s .ctrl v, ?_⟩
    rw [State.busWrite_of_idle hi]
    exact ⟨rfl, rfl, rfl⟩

end Sys2Proof.Machine
end

section
/-! SUPPORT. What a reset leaves (70_reset_and_hazards.md R260 to R262, 10_state.md R49). -/

namespace Sys2Proof.Machine

/-- Settles O49: the registers read their reset values, and no byte is listed. -/
theorem resetValues : Obligations.ResetValues := by
  refine ⟨?_, rfl, State.reset.build.configWord_eq, rfl, rfl, fun _ => rfl⟩
  simp only [List.forall_mem_cons, List.not_mem_nil, false_imp_iff, implies_true, and_true]
  exact ⟨rfl, rfl, rfl, rfl, rfl, rfl, rfl, rfl, rfl⟩

/-- Settles O50: the step of a reset is `State.afterReset`, in which nothing of the running command is left. -/
theorem resetAbandonsTheCommand : Obligations.ResetAbandonsTheCommand :=
  fun s => ⟨s.afterReset, rfl, rfl, s.afterReset_eng, s.afterReset_done, s.afterReset_err, fun _ => rfl⟩

end Sys2Proof.Machine
end

section
/-! SUPPORT. The entries that CONV leaves in the buffers, the words they depend on and when they hold values
(70_reset_and_hazards.md R269, 10_state.md R45). -/

namespace Sys2Proof.Machine

/-! ### Single entries after the stores of CONV's steps -/

/-- An entry of the other buffer is unchanged when an active region is rewritten. -/
theorem State.entry_putEntries_of_ne (s : State) {b b' : Buf} (hb : b' ≠ b) {es : List Entry}
    (hl : es.length ≤ 2 ^ 20) {i : Nat} (hi : i < 2 ^ 20) : (s.putEntries b es).entry b' i = s.entry b' i := by
  have hr : ramOf b' ≠ ramOf b := by cases b <;> cases b' <;> simp_all [ramOf]
  rw [State.entry, State.entry, s.ramWord_putEntries_of_ne hr hl (by omega),
    s.ramWord_putEntries_of_ne hr hl (by omega)]

/-- The Y region lies past the buffers, so EXTRACT keeps them whatever P is. -/
theorem State.entry_extractBody (s : State) (b : Buf) {i : Nat} (hi : i < 2 ^ 20) :
    s.extractBody.entry b i = s.entry b i := by
  have keep : ∀ w < 2 ^ 21, s.extractBody.ramWord (ramOf b) w = s.ramWord (ramOf b) w := fun w hw =>
    Memory.word_putWords_of_outside _ _ _ _ (.inl (by cases b <;> simp only [ramOf, Ram.addr, Ram.base] <;> omega))
  rw [State.entry, State.entry, keep _ (by omega), keep _ (by omega)]

/-- The rewritten entries of an active region. -/
theorem State.entry_mapActive (s : State) (b : Buf) {f : List Entry → List Entry}
    (hf : ∀ es, (f es).length = es.length) {i : Nat} (hi : i < s.k) :
    (s.mapActive b f).entry b i = entryAt (f (s.entries b s.k)) i := by
  have hlen : i < (f (s.entries b s.k)).length := by rwa [hf, State.entries_length]
  rw [entryAt_eq _ _ hlen]
  exact s.entry_putEntries b _ i hlen

namespace State.Holds

variable {s : State} {log2KMax l : Nat} {ea eb : List Entry}

theorem entry_fftBody_B (h : s.Holds log2KMax l ea eb) (d : Dir) {i : Nat} (hi : i < 2 ^ l) :
    (s.fftBody .B d).entry .B i = entryAt (fftEntries log2KMax l d eb) i := by
  rw [State.fftBody, s.entry_mapActive .B (fun _ => fftEntries_length ..) (h.k_eq ▸ hi), h.log2KMax_eq, h.l_eq,
    h.k_eq, h.entries_B]

theorem entry_scaleBody_A (h : s.Holds log2KMax l ea eb) {i : Nat} (hi : i < 2 ^ l) :
    (s.scaleBody .A).entry .A i = entryAt (ea.map (scaleEntry (2 ^ l))) i := by
  rw [State.scaleBody, s.entry_mapActive .A (fun _ => List.length_map ..) (h.k_eq ▸ hi), h.k_eq, h.entries_A]

/-- The steps of CONV after the transform of BUF_B leave it as it is. -/
theorem entry_B_productSteps (h : s.Holds log2KMax l ea eb) {i : Nat} (hi : i < 2 ^ l) :
    (((s.cmulBody.fftBody .A .inv).scaleBody .A).extractBody).entry .B i = s.entry .B i := by
  have hk : s.k ≤ 2 ^ 20 := h.k_eq.trans_le h.small
  have hi' : i < 2 ^ 20 := hi.trans_le h.small
  have keep : ∀ (u : State) {es : List Entry}, es.length = s.k → (u.putEntries .A es).entry .B i = u.entry .B i :=
    fun u _ hl => u.entry_putEntries_of_ne (by simp) (hl.trans_le hk) hi'
  have keepMap : ∀ (u : State) {f : List Entry → List Entry}, u.k = s.k → (∀ es, (f es).length = es.length) →
      (u.mapActive .A f).entry .B i = u.entry .B i :=
    fun u _ huk hf => keep u ((hf _).trans ((u.entries_length .A u.k).trans huk))
  calc (((s.cmulBody.fftBody .A .inv).scaleBody .A).extractBody).entry .B i
      = ((s.cmulBody.fftBody .A .inv).scaleBody .A).entry .B i := State.entry_extractBody _ .B hi'
    _ = (s.cmulBody.fftBody .A .inv).entry .B i := keepMap _ rfl fun _ => List.length_map ..
    _ = s.cmulBody.entry .B i := keepMap _ rfl fun _ => fftEntries_length ..
    _ = s.entry .B i := keep s (by simp)

end State.Holds

/-- Padding gives the entries of x and of h to the two buffers. -/
theorem State.holds_padded (s : State) {log2KMax l : Nat} (hlog : s.build.log2KMax = log2KMax) (hl : s.l = l)
    (hk : 2 ^ l ≤ 2 ^ 20) (hn : s.n ≤ 2 ^ 20) :
    s.padxBody.padhBody.Holds log2KMax l (loadEntries (padEntries (2 ^ l) s.m (s.loadWord .x)))
      (loadEntries (padEntries (2 ^ l) s.n (s.loadWord .h))) := by
  have hstart : s.Holds log2KMax l _ _ := ⟨hlog, hl, hk, rfl, rfl⟩
  have hh : padEntries (2 ^ l) s.n (s.padxBody.loadWord .h) = padEntries (2 ^ l) s.n (s.loadWord .h) :=
    padEntries_congr _ fun j hj => s.loadWord_h_padxBody (hstart.k_eq.trans_le hk) (by omega)
  exact hh ▸ hstart.padxBody.padhBody

/-- Scaled entries are whole, so they are read back as they are. -/
theorem loadEntries_map_scaleEntry (k : Nat) (es : List Entry) :
    loadEntries (es.map (scaleEntry k)) = es.map (scaleEntry k) :=
  WholeEntries.loadEntries (List.forall_mem_map.2 fun e _ => (scaleEntry_loaded k e).2)

/-- What CONV leaves in BUF_B for the padded entries of h: their transform. -/
def convSpectrum (log2KMax l : Nat) (eh : List Entry) : List Entry := fftEntries log2KMax l .fwd (loadEntries eh)

/-- The entries that CONV's steps leave in the active regions (43_orchestrator.md R188). -/
theorem entry_convSteps (s : State) {log2KMax l : Nat} (hlog : s.build.log2KMax = log2KMax) (hl : s.l = l)
    (hk : 2 ^ l ≤ 2 ^ 20) (hn : s.n ≤ 2 ^ 20) {i : Nat} (hi : i < 2 ^ l) :
    (convSteps s).entry .A i = entryAt (convResult log2KMax l (padEntries (2 ^ l) s.m (s.loadWord .x))
      (padEntries (2 ^ l) s.n (s.loadWord .h))) i ∧
    (convSteps s).entry .B i = entryAt (convSpectrum log2KMax l (padEntries (2 ^ l) s.n (s.loadWord .h))) i := by
  have hx := (s.holds_padded hlog hl hk hn).fftBody_A .fwd
  have hh := hx.fftBody_B .fwd
  constructor
  · rw [convResult, loadEntries_map_scaleEntry, ← (hh.cmulBody.fftBody_A .inv).entry_scaleBody_A hi]
    exact State.entry_extractBody _ .A (hi.trans_le hk)
  · exact (hh.entry_B_productSteps hi).trans (hx.entry_fftBody_B .fwd hi)

/-- The zero-padded x of CONV, of the computed K entries. -/
def State.convX (s : State) : List Entry := padEntries (2 ^ s.sizedL) s.m (s.loadWord .x)

/-- The zero-padded h of CONV, of the computed K entries. -/
def State.convH (s : State) : List Entry := padEntries (2 ^ s.sizedL) s.n (s.loadWord .h)

/-- What CONV leaves in BUF_A. -/
def State.convA (s : State) : List Entry := convResult s.build.log2KMax s.sizedL s.convX s.convH

/-- What CONV leaves in BUF_B. -/
def State.convB (s : State) : List Entry := convSpectrum s.build.log2KMax s.sizedL s.convH

@[simp] theorem State.entry_complete (s : State) (b : Buf) (i : Nat) : s.complete.entry b i = s.entry b i := rfl

/-- Every word that a CONV whose checks pass writes, in terms of the padded x and h. -/
theorem exec_conv_writes {s : State} (hp : ∀ c ∈ s.sizeChecks, c = none) :
    ∃ t, exec .conv s = .next t ∧ t.k = 2 ^ s.sizedL ∧ t.p = s.sizedP ∧
      (∀ i < 2 ^ s.sizedL, t.entry .A i = entryAt s.convA i ∧ t.entry .B i = entryAt s.convB i) ∧
      ∀ n < s.sizedP, t.ramWord .y n = (entryAt s.convA (n % 2 ^ s.sizedL)).re := by
  obtain ⟨t, ht, hl, hP, hy⟩ := exec_conv_of_checks hp
  obtain ⟨-, -, -, hn, hL⟩ := s.sizeChecks_pass_iff.1 hp
  have hentry := fun i => entry_convSteps s.sizeBody (i := i) rfl (State.sizeBody_l hp)
    (Nat.pow_le_pow_right two_pos (hL.trans s.build.log2KMax_le)) (hn.trans s.build.kMax_le)
  rw [← State.convBody_eq_convSteps] at hentry
  have htb : t = s.convBody.complete := Host.Outcome.next.inj (ht.symm.trans (exec_of_passes (i := .conv) hp))
  refine ⟨t, ht, congrArg (2 ^ ·) hl, hP, fun i hi => ?_, hy⟩
  obtain ⟨hA, hB⟩ := hentry i hi
  rw [htb, State.entry_complete, State.entry_complete, hA, hB]
  exact ⟨rfl, rfl⟩

/-! ### CONV depends on its input words only (70_reset_and_hazards.md R269) -/

section
variable {s : State} {mem' : Memory} (hx : ∀ i < s.m, mem'.word (Ram.x.addr i) = s.mem.word (Ram.x.addr i))
  (hh : ∀ i < s.n, mem'.word (Ram.h.addr i) = s.mem.word (Ram.h.addr i))

include hx in
theorem State.convX_congr : ({ s with mem := mem' } : State).convX = s.convX :=
  padEntries_congr _ fun i hi => congrArg RamWord.loaded (hx i hi)

include hh in
theorem State.convH_congr : ({ s with mem := mem' } : State).convH = s.convH :=
  padEntries_congr _ fun i hi => congrArg RamWord.loaded (hh i hi)

include hh in
theorem State.convB_congr : ({ s with mem := mem' } : State).convB = s.convB :=
  congrArg (convSpectrum s.build.log2KMax s.sizedL) (State.convH_congr hh)

include hx hh in
theorem State.convA_congr : ({ s with mem := mem' } : State).convA = s.convA :=
  congrArg₂ (convResult s.build.log2KMax s.sizedL) (State.convX_congr hx) (State.convH_congr hh)

end

/-- Settles O26: the padded x and h, and with them all that CONV writes, are those of the other memory. -/
theorem convDependsOnItsInputsOnly : Obligations.ConvDependsOnItsInputsOnly := by
  intro s mem' hm0 hn0 hm hn href hlin hx hh
  have hp := State.sizeChecks_pass_of_fits hm0 hn0 hm hn href hlin
  obtain ⟨t, ht, hk, hP, hentry, hy⟩ := exec_conv_writes hp
  obtain ⟨t', ht', -, -, hentry', hy'⟩ := exec_conv_writes (s := { s with mem := mem' }) hp
  rw [State.convA_congr hx hh] at hentry' hy'
  rw [State.convB_congr hh] at hentry'
  refine ⟨t, t', ht, ht', fun i hi => ?_, fun n hn => (hy' n (hP ▸ hn)).trans (hy n (hP ▸ hn)).symm⟩
  obtain ⟨hA, hB⟩ := hentry i (hk ▸ hi)
  obtain ⟨hA', hB'⟩ := hentry' i (hk ▸ hi)
  exact ⟨hA'.trans hA.symm, hB'.trans hB.symm⟩

/-! ### Entries that hold values (10_state.md R45) -/

/-- Both words of an entry hold values. -/
def Entry.Defined (e : Entry) : Prop := e.re.defined = true ∧ e.im.defined = true

theorem RamWord.defined_loaded (w : RamWord) : w.loaded.defined = w.defined := by
  rw [RamWord.defined, RamWord.val_loaded, RamWord.defined]

theorem Entry.Defined.cadd {u v : Entry} (hu : u.Defined) (hv : v.Defined) : (cadd u v).Defined := by
  simp [Machine.cadd, Entry.Defined, RamWord.add, hu.1, hu.2, hv.1, hv.2]

theorem Entry.Defined.csub {u v : Entry} (hu : u.Defined) (hv : v.Defined) : (csub u v).Defined := by
  simp [Machine.csub, Entry.Defined, RamWord.sub, hu.1, hu.2, hv.1, hv.2]

theorem Entry.Defined.cmul {u v : Entry} (hu : u.Defined) (hv : v.Defined) : (cmul u v).Defined := by
  simp [Machine.cmul, Entry.Defined, RamWord.add, RamWord.sub, RamWord.mul, hu.1, hu.2, hv.1, hv.2]

theorem Entry.Defined.scaleEntry {e : Entry} (h : e.Defined) (k : Nat) : (scaleEntry k e).Defined := by
  simp [Machine.scaleEntry, Entry.Defined, RamWord.div, h.1, h.2]

/-- Twiddles are constants of the ROM (40_datapath.md R130). -/
theorem defined_twiddle (log2KMax n j : Nat) (d : Dir) : (twiddle log2KMax n j d).Defined := by
  cases d <;> exact ⟨RamWord.defined_ofF64 _, RamWord.defined_ofF64 _⟩

/-- A list of k entries, all of which hold values. -/
def DefinedEntries (k : Nat) (es : List Entry) : Prop := es.length = k ∧ ∀ e ∈ es, e.Defined

namespace DefinedEntries

variable {k : Nat} {es : List Entry}

theorem entryAt (h : DefinedEntries k es) {i : Nat} (hi : i < k) : (entryAt es i).Defined := by
  rw [entryAt_eq es i (h.1.symm ▸ hi)]
  exact h.2 _ (List.getElem_mem _)

theorem set (h : DefinedEntries k es) (i : Nat) {e : Entry} (he : e.Defined) : DefinedEntries k (es.set i e) :=
  ⟨List.length_set.trans h.1, fun e' he' => (List.mem_or_eq_of_mem_set he').elim (h.2 e') fun heq => heq ▸ he⟩

theorem loadEntries (h : DefinedEntries k es) : DefinedEntries k (loadEntries es) :=
  ⟨(List.length_map _).trans h.1, List.forall_mem_map.2 fun e he => by
    obtain ⟨hre, him⟩ := h.2 e he
    exact ⟨e.re.defined_loaded.trans hre, e.im.defined_loaded.trans him⟩⟩

theorem zipWith_cmul {es' : List Entry} (h : DefinedEntries k es) (h' : DefinedEntries k es') :
    DefinedEntries k (List.zipWith cmul es es') := by
  refine ⟨by rw [List.length_zipWith, h.1, h'.1, min_self], fun e he => ?_⟩
  obtain ⟨i, hi, rfl⟩ := List.getElem_of_mem he
  rw [List.getElem_zipWith]
  exact (h.2 _ (List.getElem_mem _)).cmul (h'.2 _ (List.getElem_mem _))

theorem map_scaleEntry (h : DefinedEntries k es) (j : Nat) : DefinedEntries k (es.map (scaleEntry j)) :=
  ⟨(List.length_map _).trans h.1, List.forall_mem_map.2 fun e he => (h.2 e he).scaleEntry j⟩

/-- The bit reversal reads entries of the active region only. -/
theorem bitrevEntries {l : Nat} (h : DefinedEntries (2 ^ l) es) : DefinedEntries (2 ^ l) (bitrevEntries l es) :=
  List.foldlRecOn _ _ h fun _ hout _ hi => hout.set _ (h.entryAt (List.mem_range.1 hi))

/-- The butterflies of a stage read entries of the active region only. -/
theorem stageEntries {l n : Nat} (h : DefinedEntries (2 ^ l) es) (hn : 1 ≤ n) (hnl : n ≤ l) (log2KMax : Nat)
    (d : Dir) : DefinedEntries (2 ^ l) (stageEntries log2KMax l n d es) := by
  rw [stageEntries_eq]
  refine List.foldlRecOn _ _ h fun out hout p hp => ?_
  have hupper := upperIndex_lt hn hnl hp
  have hu : (Machine.entryAt out (lowerIndex n p)).Defined :=
    hout.entryAt ((Nat.le_add_right _ _).trans_lt hupper)
  have ht := (defined_twiddle log2KMax n p.2 d).cmul (hout.entryAt hupper)
  exact (hout.set _ (hu.cadd ht)).set _ (hu.csub ht)

theorem fftEntries {l : Nat} (h : DefinedEntries (2 ^ l) es) (log2KMax : Nat) (d : Dir) :
    DefinedEntries (2 ^ l) (fftEntries log2KMax l d es) :=
  List.foldlRecOn _ _ h.bitrevEntries fun _ hout n hn =>
    hout.stageEntries (Nat.le_add_left 1 n) (List.mem_range.1 hn) log2KMax d

end DefinedEntries

/-- Samples that hold values are padded with zeros to entries that do. -/
theorem definedEntries_padEntries {k len : Nat} (hk : 0 < k) {sample : Nat → RamWord}
    (h : ∀ i < len, (sample i).defined = true) : DefinedEntries k (padEntries k len sample) := by
  have hzero : Entry.zero.Defined := ⟨RamWord.defined_ofF64 0, RamWord.defined_ofF64 0⟩
  refine List.foldlRecOn _ _ ⟨List.length_replicate, fun e he => List.eq_of_mem_replicate he ▸ hzero⟩
    fun _ hout i hi => ?_
  have hsample := h i (List.mem_range.1 hi)
  obtain ⟨hre, him⟩ := hout.entryAt (Nat.mod_lt i hk)
  refine hout.set _ ⟨?_, him⟩
  dsimp only
  split
  · exact hsample
  · rw [RamWord.add, RamWord.defined_map₂, hre, hsample, Bool.and_self]

theorem definedEntries_convSpectrum {l : Nat} {eh : List Entry} (h : DefinedEntries (2 ^ l) eh) (log2KMax : Nat) :
    DefinedEntries (2 ^ l) (convSpectrum log2KMax l eh) :=
  h.loadEntries.fftEntries log2KMax .fwd

theorem definedEntries_convResult {l : Nat} {ex eh : List Entry} (hx : DefinedEntries (2 ^ l) ex)
    (hh : DefinedEntries (2 ^ l) eh) (log2KMax : Nat) : DefinedEntries (2 ^ l) (convResult log2KMax l ex eh) := by
  have product := (definedEntries_convSpectrum hx log2KMax).loadEntries.zipWith_cmul
    (definedEntries_convSpectrum hh log2KMax).loadEntries
  exact ((product.loadEntries.fftEntries log2KMax .inv).loadEntries.map_scaleEntry (2 ^ l)).loadEntries

/-- The words of an active region hold values if its entries do. -/
theorem State.defined_ramWord_of_entries {t : State} {b : Buf} {k : Nat} (h : ∀ i < k, (t.entry b i).Defined)
    {w : Nat} (hw : w < 2 * k) : (t.ramWord (ramOf b) w).defined = true := by
  obtain ⟨hre, him⟩ := h (w / 2) (by omega)
  rcases Nat.mod_two_eq_zero_or_one w with hpar | hpar
  · rwa [show w = 2 * (w / 2) by omega]
  · rwa [show w = 2 * (w / 2) + 1 by omega]

/-- Settles O27: from padded entries that hold values, CONV's steps compute such entries only. -/
theorem convOfWrittenInputsIsDefined : Obligations.ConvOfWrittenInputsIsDefined := by
  intro s hm0 hn0 hm hn href hlin hx hh
  obtain ⟨t, ht, hk, hP, hentry, hy⟩ := exec_conv_writes (State.sizeChecks_pass_of_fits hm0 hn0 hm hn href hlin)
  have hpos := Nat.two_pow_pos s.sizedL
  have hconvX : DefinedEntries (2 ^ s.sizedL) s.convX :=
    definedEntries_padEntries hpos fun i hi => (RamWord.defined_loaded _).trans (hx i hi)
  have hconvH : DefinedEntries (2 ^ s.sizedL) s.convH :=
    definedEntries_padEntries hpos fun i hi => (RamWord.defined_loaded _).trans (hh i hi)
  have hconvA : DefinedEntries (2 ^ s.sizedL) s.convA := definedEntries_convResult hconvX hconvH _
  have hconvB : DefinedEntries (2 ^ s.sizedL) s.convB := definedEntries_convSpectrum hconvH _
  refine ⟨t, ht, fun w hw => ⟨?_, ?_⟩, fun n hn => ?_⟩
  · exact State.defined_ramWord_of_entries (b := .A) (fun i hi => (hentry i hi).1 ▸ hconvA.entryAt hi) (hk ▸ hw)
  · exact State.defined_ramWord_of_entries (b := .B) (fun i hi => (hentry i hi).2 ▸ hconvB.entryAt hi) (hk ▸ hw)
  · rw [hy n (hP ▸ hn)]
    exact (hconvA.entryAt (Nat.mod_lt n hpos)).1

end Sys2Proof.Machine
end
